-- ==== Sys2Proof/Word.lean ====
section
/-! DEFINITION. The widths the spec gives its values (00_scope R8, R13; 30_encoding R120). -/

namespace Sys2Proof

/-- The content of an integer register or of one point coordinate: XLEN_INT = 256 bits, unsigned (R8, R13). -/
abbrev Word := BitVec 256

/-- One byte of BUF. -/
abbrev Byte := BitVec 8

/-- One command word, and one CSR value: 64 bits (R8, R120). -/
abbrev Cmd := BitVec 64

/-- The index of an integer register R0..R15: addition wraps mod 16, as R15 says of `i+k`. -/
abbrev RegIdx := Fin 16

/-- The index of a point register Q0..Q15. -/
abbrev PtIdx := Fin 16

end Sys2Proof
end

