-- ==== Sys2Proof/Syntax.lean ====
section
/-! DEFINITION. The commands: one constructor per row of spec/opcode_table.json, with the row's fields as R121 and R123 name
them. Unused fields and unused IMM bits are not fields of a command: the decoder has checked that they are 0 (R122). -/

namespace Sys2Proof

/-- A command of the engine (30_encoding R127). A `RegIdx` field is of kind `r`, a `PtIdx` field of kind `q`; `addr` and `len`
are ADDR and LEN; the others are IMM or its sub-fields (R121, R123). -/
inductive Instr where
  /-- NOP: no operation (R201). -/
  | nop
  /-- LDI: load a small immediate (R202). -/
  | ldi (d : RegIdx) (imm16 : BitVec 16)
  /-- LDC: load a curve constant (R203). -/
  | ldc (d : RegIdx) (k : BitVec 16)
  /-- MOV: copy a register (R204). -/
  | mov (d : RegIdx) (a : RegIdx)
  /-- LD: load a big-endian integer from BUF (R205). -/
  | ld (d : RegIdx) (addr : BitVec 12) (len : BitVec 12)
  /-- ST: store a big-endian integer to BUF (R206). -/
  | st (a : RegIdx) (addr : BitVec 12) (len : BitVec 12)
  /-- CSRR: read a control register (R207). -/
  | csrr (d : RegIdx) (csr : BitVec 16)
  /-- CSRW: write a control register (R208). -/
  | csrw (a : RegIdx) (csr : BitVec 16)
  /-- RCMP: compare two registers (R209). -/
  | rcmp (a : RegIdx) (b : RegIdx)
  /-- RODD: test the low bit (R210). -/
  | rodd (a : RegIdx)
  /-- FADD: field addition (R232). -/
  | fadd (d : RegIdx) (a : RegIdx) (b : RegIdx)
  /-- FSUB: field subtraction (R233). -/
  | fsub (d : RegIdx) (a : RegIdx) (b : RegIdx)
  /-- FMUL: field multiplication (R234). -/
  | fmul (d : RegIdx) (a : RegIdx) (b : RegIdx)
  /-- FSQR: field squaring (R235). -/
  | fsqr (d : RegIdx) (a : RegIdx)
  /-- FNEG: field negation (R236). -/
  | fneg (d : RegIdx) (a : RegIdx)
  /-- FPOW: field exponentiation (R237). -/
  | fpow (d : RegIdx) (a : RegIdx) (b : RegIdx)
  /-- FINV: field inversion (R238). -/
  | finv (d : RegIdx) (a : RegIdx)
  /-- FSQRT: field square root (R239). -/
  | fsqrt (d : RegIdx) (a : RegIdx)
  /-- FBINV: batch inversion (R240). -/
  | fbinv (d : RegIdx) (a : RegIdx) (cnt : BitVec 5)
  /-- FRED: field reduction (R241). -/
  | fred (d : RegIdx) (a : RegIdx)
  /-- NADD: scalar addition (R321). -/
  | nadd (d : RegIdx) (a : RegIdx) (b : RegIdx)
  /-- NSUB: scalar subtraction (R322). -/
  | nsub (d : RegIdx) (a : RegIdx) (b : RegIdx)
  /-- NMUL: scalar multiplication mod n (R323). -/
  | nmul (d : RegIdx) (a : RegIdx) (b : RegIdx)
  /-- NNEG: scalar negation (R324). -/
  | nneg (d : RegIdx) (a : RegIdx)
  /-- NINV: scalar inversion (R325). -/
  | ninv (d : RegIdx) (a : RegIdx)
  /-- NRED: scalar reduction (R326). -/
  | nred (d : RegIdx) (a : RegIdx)
  /-- NCHK: check a scalar (R327). -/
  | nchk (a : RegIdx)
  /-- NSPLIT: GLV split (R328). -/
  | nsplit (d : RegIdx) (a : RegIdx)
  /-- PSET: set a point from affine coordinates (R280). -/
  | pset (d : PtIdx) (a : RegIdx) (b : RegIdx)
  /-- PSETJ: set a point from Jacobian coordinates (R281). -/
  | psetj (d : PtIdx) (a : RegIdx) (b : RegIdx) (c : RegIdx)
  /-- PGET: read affine coordinates (R282). -/
  | pget (d : RegIdx) (a : PtIdx)
  /-- PGETJ: read Jacobian coordinates (R283). -/
  | pgetj (d : RegIdx) (a : PtIdx)
  /-- PLDG: load the base point (R284). -/
  | pldg (d : PtIdx)
  /-- PZERO: load the identity (R285). -/
  | pzero (d : PtIdx)
  /-- PMOV: copy a point register (R286). -/
  | pmov (d : PtIdx) (a : PtIdx)
  /-- PNEG: point negation (R287). -/
  | pneg (d : PtIdx) (a : PtIdx)
  /-- PDBL: point doubling (R288). -/
  | pdbl (d : PtIdx) (a : PtIdx)
  /-- PADD: point addition (R289). -/
  | padd (d : PtIdx) (a : PtIdx) (b : PtIdx)
  /-- PEQ: point equality (R290). -/
  | peq (a : PtIdx) (b : PtIdx)
  /-- PCHK: check a point (R291). -/
  | pchk (a : PtIdx)
  /-- PAFF: normalise a point (R292). -/
  | paff (d : PtIdx) (a : PtIdx)
  /-- PAFFB: batch normalisation (R293). -/
  | paffb (d : PtIdx) (a : PtIdx) (cnt : BitVec 5)
  /-- PENDO: the GLV endomorphism (R294). -/
  | pendo (d : PtIdx) (a : PtIdx)
  /-- PWEI: the curve's right-hand side (R295). -/
  | pwei (d : RegIdx) (a : RegIdx)
  /-- MUL: windowed GLV multiplication (R333). -/
  | mul (d : PtIdx) (a : PtIdx) (b : RegIdx)
  /-- MULU: plain double-and-add (R334). -/
  | mulu (d : PtIdx) (a : PtIdx) (b : RegIdx)
  /-- PRECOMP: build the precomputation cache (R335). -/
  | precomp (a : PtIdx)
  /-- CINV: invalidate the cache (R336). -/
  | cinv
  /-- PTENC: encode a public key (R372). -/
  | ptenc (a : PtIdx) (addr : BitVec 12) (fmt : BitVec 2)
  /-- PTDEC: decode a public key (R373). -/
  | ptdec (d : PtIdx) (addr : BitVec 12) (len : BitVec 12)
  /-- SIGENC: encode a compact signature (R374). -/
  | sigenc (a : RegIdx) (b : RegIdx) (addr : BitVec 12)
  /-- SIGDEC: decode a compact signature (R375). -/
  | sigdec (d : RegIdx) (addr : BitVec 12) (len : BitVec 12)
  /-- DERENC: encode a DER signature (R376). -/
  | derenc (a : RegIdx) (b : RegIdx) (addr : BitVec 12)
  /-- DERDEC: decode a DER signature (R377). -/
  | derdec (d : RegIdx) (addr : BitVec 12) (len : BitVec 12)
  /-- RSIGENC: encode a recoverable signature (R378). -/
  | rsigenc (a : RegIdx) (b : RegIdx) (addr : BitVec 12)
  /-- RSIGDEC: decode a recoverable signature (R379). -/
  | rsigdec (d : RegIdx) (addr : BitVec 12) (len : BitVec 12)
  /-- SCHENC: encode a Schnorr signature (R380). -/
  | schenc (a : RegIdx) (b : RegIdx) (addr : BitVec 12)
  /-- SCHDEC: decode a Schnorr signature (R381). -/
  | schdec (d : RegIdx) (addr : BitVec 12) (len : BitVec 12)
  /-- SHIGHS: test for high S (R382). -/
  | shighs (a : RegIdx)
  /-- SNORM: low-S normalisation (R383). -/
  | snorm (d : RegIdx) (a : RegIdx) (flip : Bool)
  /-- ESIGN: ECDSA sign (R426). -/
  | esign (d : RegIdx) (a : RegIdx) (addr : BitVec 12) (len : BitVec 12) (nocanon : Bool) (ent : BitVec 2)
  /-- EVERIFY: ECDSA verify (R427). -/
  | everify (a : RegIdx) (b : RegIdx) (c : PtIdx) (addr : BitVec 12) (len : BitVec 12) (nostrict : Bool)
  /-- ERECOVER: ECDSA public-key recovery (R428). -/
  | erecover (d : PtIdx) (a : RegIdx) (b : RegIdx) (addr : BitVec 12) (len : BitVec 12)
  /-- SPUB: Schnorr public key (R451). -/
  | spub (d : RegIdx) (a : RegIdx)
  /-- SSIGN: BIP-340 sign (R452). -/
  | ssign (d : RegIdx) (a : RegIdx) (addr : BitVec 12) (len : BitVec 12) (auxbuf : Bool)
  /-- SVERIFY: BIP-340 verify (R453). -/
  | sverify (a : RegIdx) (b : RegIdx) (c : RegIdx) (addr : BitVec 12) (len : BitVec 12)
  deriving DecidableEq, Repr

end Sys2Proof
end

