-- ==== Sys2Proof/WellFormed.lean ====
section
/-! DEFINITION. Which commands hold no reserved value in a used field (30_encoding R123, R125). A command that is not
well-formed decodes as its row (R122) and then raises E_ILLEGAL (R125), which its meaning does. -/

namespace Sys2Proof

/-- LD and ST move 1 to 32 bytes (R125). -/
def movesLegal (len : BitVec 12) : Bool := decide (1 ≤ len.toNat ∧ len.toNat ≤ 32)

/-- FBINV and PAFFB take 1 to 16 elements (R123, R125). -/
def countLegal (cnt : BitVec 5) : Bool := decide (1 ≤ cnt.toNat ∧ cnt.toNat ≤ 16)

/-- CSRW may name STATUS, CTRL or RECID: the other assigned CSRs are read-only (R125, 10_state R51). -/
def csrWritable (csr : BitVec 16) : Bool := csr.toNat == 1 || csr.toNat == 4 || csr.toNat == 5

/-- No used field holds a reserved value (R125). -/
def Instr.wellFormed : Instr → Bool
  | .nop => true
  | .ldi _ _ => true
  | .ldc _ k => decide (k.toNat ≤ 9)
  | .mov _ _ => true
  | .ld _ _ len => movesLegal len
  | .st _ _ len => movesLegal len
  | .csrr _ csr => decide (csr.toNat ≤ 8)
  | .csrw _ csr => csrWritable csr
  | .rcmp _ _ => true
  | .rodd _ => true
  | .fadd _ _ _ => true
  | .fsub _ _ _ => true
  | .fmul _ _ _ => true
  | .fsqr _ _ => true
  | .fneg _ _ => true
  | .fpow _ _ _ => true
  | .finv _ _ => true
  | .fsqrt _ _ => true
  | .fbinv _ _ cnt => countLegal cnt
  | .fred _ _ => true
  | .nadd _ _ _ => true
  | .nsub _ _ _ => true
  | .nmul _ _ _ => true
  | .nneg _ _ => true
  | .ninv _ _ => true
  | .nred _ _ => true
  | .nchk _ => true
  | .nsplit _ _ => true
  | .pset _ _ _ => true
  | .psetj _ _ _ _ => true
  | .pget _ _ => true
  | .pgetj _ _ => true
  | .pldg _ => true
  | .pzero _ => true
  | .pmov _ _ => true
  | .pneg _ _ => true
  | .pdbl _ _ => true
  | .padd _ _ _ => true
  | .peq _ _ => true
  | .pchk _ => true
  | .paff _ _ => true
  | .paffb _ _ cnt => countLegal cnt
  | .pendo _ _ => true
  | .pwei _ _ => true
  | .mul _ _ _ => true
  | .mulu _ _ _ => true
  | .precomp _ => true
  | .cinv => true
  | .ptenc _ _ fmt => decide (fmt.toNat ≠ 3)
  | .ptdec _ _ _ => true
  | .sigenc _ _ _ => true
  | .sigdec _ _ _ => true
  | .derenc _ _ _ => true
  | .derdec _ _ _ => true
  | .rsigenc _ _ _ => true
  | .rsigdec _ _ _ => true
  | .schenc _ _ _ => true
  | .schdec _ _ _ => true
  | .shighs _ => true
  | .snorm _ _ _ => true
  | .esign _ _ _ _ _ ent => decide (ent.toNat ≠ 3)
  | .everify _ _ _ _ _ _ => true
  | .erecover _ _ _ _ _ => true
  | .spub _ _ => true
  | .ssign _ _ _ _ _ => true
  | .sverify _ _ _ _ _ => true

/-- `wellFormed` as a proposition. -/
abbrev Instr.WellFormed (i : Instr) : Prop := i.wellFormed = true

end Sys2Proof
end

