-- ==== Sys2Proof/Decode.lean ====
section
/-! DEFINITION. The decoder (30_encoding R120, R122, R126 to R128) and, after it, the encoder. -/

namespace Sys2Proof

/-- Why a word decodes as no row: each is E_ILLEGAL for the command (R128, R122). -/
inductive DecodeError where
  /-- The opcode byte is assigned to no command (R128). -/
  | reservedOpcode (op : BitVec 8)
  /-- A field or IMM bit that the command does not use is not 0 (R122). -/
  | nonzeroUnusedField (mnemonic : String)
  deriving DecidableEq, Repr

/-- The fields of a command word below the opcode (R120). -/
structure Fields where
  d : Fin 16 := 0
  a : Fin 16 := 0
  b : Fin 16 := 0
  c : Fin 16 := 0
  addr : BitVec 12 := 0
  len : BitVec 12 := 0
  imm : BitVec 16 := 0
  deriving DecidableEq, Repr

/-- OP = w[63:56] (R120). -/
def opcode (w : Cmd) : BitVec 8 := w.extractLsb' 56 8

/-- D = w[55:52], A = w[51:48], B = w[47:44], C = w[43:40], ADDR = w[39:28], LEN = w[27:16], IMM = w[15:0] (R120, R126). -/
def Fields.ofWord (w : Cmd) : Fields where
  d := (w.extractLsb' 52 4).toFin
  a := (w.extractLsb' 48 4).toFin
  b := (w.extractLsb' 44 4).toFin
  c := (w.extractLsb' 40 4).toFin
  addr := w.extractLsb' 28 12
  len := w.extractLsb' 16 12
  imm := w.extractLsb' 0 16

/-- One row of the opcode table (R127): `mask` has a 1 in every opcode bit and every must-be-zero bit (R122). -/
structure Row where
  mnemonic : String
  op : BitVec 8
  mask : Cmd
  build : Fields → Instr

/-- `match` of a row: OP << 56 (R122). -/
def Row.pattern (r : Row) : Cmd := r.op.setWidth 64 <<< 56

/-- Opcodes 0x0_ (R127). -/
def rowsMove : List Row := [
  ⟨"NOP", 0x00#8, 0xFFFFFFFFFFFFFFFF#64, fun _ => .nop⟩,
  ⟨"LDI", 0x01#8, 0xFF0FFFFFFFFF0000#64, fun f => .ldi f.d f.imm⟩,
  ⟨"LDC", 0x02#8, 0xFF0FFFFFFFFF0000#64, fun f => .ldc f.d f.imm⟩,
  ⟨"MOV", 0x03#8, 0xFF00FFFFFFFFFFFF#64, fun f => .mov f.d f.a⟩,
  ⟨"LD", 0x04#8, 0xFF0FFF000000FFFF#64, fun f => .ld f.d f.addr f.len⟩,
  ⟨"ST", 0x05#8, 0xFFF0FF000000FFFF#64, fun f => .st f.a f.addr f.len⟩,
  ⟨"CSRR", 0x06#8, 0xFF0FFFFFFFFF0000#64, fun f => .csrr f.d f.imm⟩,
  ⟨"CSRW", 0x07#8, 0xFFF0FFFFFFFF0000#64, fun f => .csrw f.a f.imm⟩,
  ⟨"RCMP", 0x08#8, 0xFFF00FFFFFFFFFFF#64, fun f => .rcmp f.a f.b⟩,
  ⟨"RODD", 0x09#8, 0xFFF0FFFFFFFFFFFF#64, fun f => .rodd f.a⟩]

/-- Opcodes 0x1_ (R127). -/
def rowsField : List Row := [
  ⟨"FADD", 0x10#8, 0xFF000FFFFFFFFFFF#64, fun f => .fadd f.d f.a f.b⟩,
  ⟨"FSUB", 0x11#8, 0xFF000FFFFFFFFFFF#64, fun f => .fsub f.d f.a f.b⟩,
  ⟨"FMUL", 0x12#8, 0xFF000FFFFFFFFFFF#64, fun f => .fmul f.d f.a f.b⟩,
  ⟨"FSQR", 0x13#8, 0xFF00FFFFFFFFFFFF#64, fun f => .fsqr f.d f.a⟩,
  ⟨"FNEG", 0x14#8, 0xFF00FFFFFFFFFFFF#64, fun f => .fneg f.d f.a⟩,
  ⟨"FPOW", 0x15#8, 0xFF000FFFFFFFFFFF#64, fun f => .fpow f.d f.a f.b⟩,
  ⟨"FINV", 0x16#8, 0xFF00FFFFFFFFFFFF#64, fun f => .finv f.d f.a⟩,
  ⟨"FSQRT", 0x17#8, 0xFF00FFFFFFFFFFFF#64, fun f => .fsqrt f.d f.a⟩,
  ⟨"FBINV", 0x18#8, 0xFF00FFFFFFFFFFE0#64, fun f => .fbinv f.d f.a (f.imm.extractLsb' 0 5)⟩,
  ⟨"FRED", 0x19#8, 0xFF00FFFFFFFFFFFF#64, fun f => .fred f.d f.a⟩]

/-- Opcodes 0x2_ (R127). -/
def rowsScalar : List Row := [
  ⟨"NADD", 0x20#8, 0xFF000FFFFFFFFFFF#64, fun f => .nadd f.d f.a f.b⟩,
  ⟨"NSUB", 0x21#8, 0xFF000FFFFFFFFFFF#64, fun f => .nsub f.d f.a f.b⟩,
  ⟨"NMUL", 0x22#8, 0xFF000FFFFFFFFFFF#64, fun f => .nmul f.d f.a f.b⟩,
  ⟨"NNEG", 0x23#8, 0xFF00FFFFFFFFFFFF#64, fun f => .nneg f.d f.a⟩,
  ⟨"NINV", 0x24#8, 0xFF00FFFFFFFFFFFF#64, fun f => .ninv f.d f.a⟩,
  ⟨"NRED", 0x25#8, 0xFF00FFFFFFFFFFFF#64, fun f => .nred f.d f.a⟩,
  ⟨"NCHK", 0x26#8, 0xFFF0FFFFFFFFFFFF#64, fun f => .nchk f.a⟩,
  ⟨"NSPLIT", 0x27#8, 0xFF00FFFFFFFFFFFF#64, fun f => .nsplit f.d f.a⟩]

/-- Opcodes 0x3_ (R127). -/
def rowsPoint : List Row := [
  ⟨"PSET", 0x30#8, 0xFF000FFFFFFFFFFF#64, fun f => .pset f.d f.a f.b⟩,
  ⟨"PSETJ", 0x31#8, 0xFF0000FFFFFFFFFF#64, fun f => .psetj f.d f.a f.b f.c⟩,
  ⟨"PGET", 0x32#8, 0xFF00FFFFFFFFFFFF#64, fun f => .pget f.d f.a⟩,
  ⟨"PGETJ", 0x33#8, 0xFF00FFFFFFFFFFFF#64, fun f => .pgetj f.d f.a⟩,
  ⟨"PLDG", 0x34#8, 0xFF0FFFFFFFFFFFFF#64, fun f => .pldg f.d⟩,
  ⟨"PZERO", 0x35#8, 0xFF0FFFFFFFFFFFFF#64, fun f => .pzero f.d⟩,
  ⟨"PMOV", 0x36#8, 0xFF00FFFFFFFFFFFF#64, fun f => .pmov f.d f.a⟩,
  ⟨"PNEG", 0x37#8, 0xFF00FFFFFFFFFFFF#64, fun f => .pneg f.d f.a⟩,
  ⟨"PDBL", 0x38#8, 0xFF00FFFFFFFFFFFF#64, fun f => .pdbl f.d f.a⟩,
  ⟨"PADD", 0x39#8, 0xFF000FFFFFFFFFFF#64, fun f => .padd f.d f.a f.b⟩,
  ⟨"PEQ", 0x3A#8, 0xFFF00FFFFFFFFFFF#64, fun f => .peq f.a f.b⟩,
  ⟨"PCHK", 0x3B#8, 0xFFF0FFFFFFFFFFFF#64, fun f => .pchk f.a⟩,
  ⟨"PAFF", 0x3C#8, 0xFF00FFFFFFFFFFFF#64, fun f => .paff f.d f.a⟩,
  ⟨"PAFFB", 0x3D#8, 0xFF00FFFFFFFFFFE0#64, fun f => .paffb f.d f.a (f.imm.extractLsb' 0 5)⟩,
  ⟨"PENDO", 0x3E#8, 0xFF00FFFFFFFFFFFF#64, fun f => .pendo f.d f.a⟩,
  ⟨"PWEI", 0x3F#8, 0xFF00FFFFFFFFFFFF#64, fun f => .pwei f.d f.a⟩]

/-- Opcodes 0x4_ (R127). -/
def rowsMul : List Row := [
  ⟨"MUL", 0x40#8, 0xFF000FFFFFFFFFFF#64, fun f => .mul f.d f.a f.b⟩,
  ⟨"MULU", 0x41#8, 0xFF000FFFFFFFFFFF#64, fun f => .mulu f.d f.a f.b⟩,
  ⟨"PRECOMP", 0x42#8, 0xFFF0FFFFFFFFFFFF#64, fun f => .precomp f.a⟩,
  ⟨"CINV", 0x43#8, 0xFFFFFFFFFFFFFFFF#64, fun _ => .cinv⟩]

/-- Opcodes 0x5_ (R127). -/
def rowsCodec : List Row := [
  ⟨"PTENC", 0x50#8, 0xFFF0FF000FFFFFFC#64, fun f => .ptenc f.a f.addr (f.imm.extractLsb' 0 2)⟩,
  ⟨"PTDEC", 0x51#8, 0xFF0FFF000000FFFF#64, fun f => .ptdec f.d f.addr f.len⟩,
  ⟨"SIGENC", 0x52#8, 0xFFF00F000FFFFFFF#64, fun f => .sigenc f.a f.b f.addr⟩,
  ⟨"SIGDEC", 0x53#8, 0xFF0FFF000000FFFF#64, fun f => .sigdec f.d f.addr f.len⟩,
  ⟨"DERENC", 0x54#8, 0xFFF00F000FFFFFFF#64, fun f => .derenc f.a f.b f.addr⟩,
  ⟨"DERDEC", 0x55#8, 0xFF0FFF000000FFFF#64, fun f => .derdec f.d f.addr f.len⟩,
  ⟨"RSIGENC", 0x56#8, 0xFFF00F000FFFFFFF#64, fun f => .rsigenc f.a f.b f.addr⟩,
  ⟨"RSIGDEC", 0x57#8, 0xFF0FFF000000FFFF#64, fun f => .rsigdec f.d f.addr f.len⟩,
  ⟨"SCHENC", 0x58#8, 0xFFF00F000FFFFFFF#64, fun f => .schenc f.a f.b f.addr⟩,
  ⟨"SCHDEC", 0x59#8, 0xFF0FFF000000FFFF#64, fun f => .schdec f.d f.addr f.len⟩,
  ⟨"SHIGHS", 0x5A#8, 0xFFF0FFFFFFFFFFFF#64, fun f => .shighs f.a⟩,
  ⟨"SNORM", 0x5B#8, 0xFF00FFFFFFFFFFFE#64, fun f => .snorm f.d f.a (f.imm.getLsbD 0)⟩]

/-- Opcodes 0x6_ (R127). -/
def rowsEcdsa : List Row := [
  ⟨"ESIGN", 0x60#8, 0xFF00FF000000FFF8#64, fun f => .esign f.d f.a f.addr f.len (f.imm.getLsbD 0) (f.imm.extractLsb' 1 2)⟩,
  ⟨"EVERIFY", 0x61#8, 0xFFF000000000FFFE#64, fun f => .everify f.a f.b f.c f.addr f.len (f.imm.getLsbD 0)⟩,
  ⟨"ERECOVER", 0x62#8, 0xFF000F000000FFFF#64, fun f => .erecover f.d f.a f.b f.addr f.len⟩]

/-- Opcodes 0x7_ (R127). -/
def rowsSchnorr : List Row := [
  ⟨"SPUB", 0x70#8, 0xFF00FFFFFFFFFFFF#64, fun f => .spub f.d f.a⟩,
  ⟨"SSIGN", 0x71#8, 0xFF00FF000000FFFE#64, fun f => .ssign f.d f.a f.addr f.len (f.imm.getLsbD 0)⟩,
  ⟨"SVERIFY", 0x72#8, 0xFFF000000000FFFF#64, fun f => .sverify f.a f.b f.c f.addr f.len⟩]

/-- The opcode table (R127). -/
def rows : List Row :=
  rowsMove ++ rowsField ++ rowsScalar ++ rowsPoint ++ rowsMul ++ rowsCodec ++ rowsEcdsa ++ rowsSchnorr

/-- The row whose opcode is given, if the opcode is assigned. -/
def rowOf (op : BitVec 8) : Option Row := rows.find? (fun r => r.op == op)

/-- A word decodes as a row exactly when `(w AND mask) = match` (R122). Every other word is refused by name. Reserved values
inside used fields (R125) are checked by the command itself, with the same E_ILLEGAL. (log 18) -/
def decode (w : Cmd) : Except DecodeError Instr :=
  match rowOf (opcode w) with
  | none => .error (.reservedOpcode (opcode w))
  | some r => if w &&& r.mask = r.pattern then .ok (r.build (Fields.ofWord w)) else .error (.nonzeroUnusedField r.mnemonic)

/-- The command that a word of the opcode table's numbering holds: bit 0 is the least significant bit of the one 64-bit word
(R82, R120), and bits at nbits and above are 0. -/
def decodeTableWord (nbits w : Nat) : Option Instr :=
  (decode (BitVec.ofNat 64 (w % 2 ^ nbits))).toOption

/-- The word with a given opcode and fields (R120). -/
def word (op : BitVec 8) (f : Fields) : Cmd :=
  op.setWidth 64 <<< 56
    ||| (BitVec.ofFin (w := 4) f.d).setWidth 64 <<< 52 ||| (BitVec.ofFin (w := 4) f.a).setWidth 64 <<< 48
    ||| (BitVec.ofFin (w := 4) f.b).setWidth 64 <<< 44 ||| (BitVec.ofFin (w := 4) f.c).setWidth 64 <<< 40
    ||| f.addr.setWidth 64 <<< 28 ||| f.len.setWidth 64 <<< 16 ||| f.imm.setWidth 64

/-- The word of a command: its opcode, its fields, and 0 in every field it does not use (R120, R122, R127). -/
def encode : Instr → Cmd
  | .nop => word 0x00#8 {}
  | .ldi d imm16 => word 0x01#8 { d := d, imm := imm16 }
  | .ldc d k => word 0x02#8 { d := d, imm := k }
  | .mov d a => word 0x03#8 { d := d, a := a }
  | .ld d addr len => word 0x04#8 { d := d, addr := addr, len := len }
  | .st a addr len => word 0x05#8 { a := a, addr := addr, len := len }
  | .csrr d csr => word 0x06#8 { d := d, imm := csr }
  | .csrw a csr => word 0x07#8 { a := a, imm := csr }
  | .rcmp a b => word 0x08#8 { a := a, b := b }
  | .rodd a => word 0x09#8 { a := a }
  | .fadd d a b => word 0x10#8 { d := d, a := a, b := b }
  | .fsub d a b => word 0x11#8 { d := d, a := a, b := b }
  | .fmul d a b => word 0x12#8 { d := d, a := a, b := b }
  | .fsqr d a => word 0x13#8 { d := d, a := a }
  | .fneg d a => word 0x14#8 { d := d, a := a }
  | .fpow d a b => word 0x15#8 { d := d, a := a, b := b }
  | .finv d a => word 0x16#8 { d := d, a := a }
  | .fsqrt d a => word 0x17#8 { d := d, a := a }
  | .fbinv d a cnt => word 0x18#8 { d := d, a := a, imm := 0#11 ++ cnt }
  | .fred d a => word 0x19#8 { d := d, a := a }
  | .nadd d a b => word 0x20#8 { d := d, a := a, b := b }
  | .nsub d a b => word 0x21#8 { d := d, a := a, b := b }
  | .nmul d a b => word 0x22#8 { d := d, a := a, b := b }
  | .nneg d a => word 0x23#8 { d := d, a := a }
  | .ninv d a => word 0x24#8 { d := d, a := a }
  | .nred d a => word 0x25#8 { d := d, a := a }
  | .nchk a => word 0x26#8 { a := a }
  | .nsplit d a => word 0x27#8 { d := d, a := a }
  | .pset d a b => word 0x30#8 { d := d, a := a, b := b }
  | .psetj d a b c => word 0x31#8 { d := d, a := a, b := b, c := c }
  | .pget d a => word 0x32#8 { d := d, a := a }
  | .pgetj d a => word 0x33#8 { d := d, a := a }
  | .pldg d => word 0x34#8 { d := d }
  | .pzero d => word 0x35#8 { d := d }
  | .pmov d a => word 0x36#8 { d := d, a := a }
  | .pneg d a => word 0x37#8 { d := d, a := a }
  | .pdbl d a => word 0x38#8 { d := d, a := a }
  | .padd d a b => word 0x39#8 { d := d, a := a, b := b }
  | .peq a b => word 0x3A#8 { a := a, b := b }
  | .pchk a => word 0x3B#8 { a := a }
  | .paff d a => word 0x3C#8 { d := d, a := a }
  | .paffb d a cnt => word 0x3D#8 { d := d, a := a, imm := 0#11 ++ cnt }
  | .pendo d a => word 0x3E#8 { d := d, a := a }
  | .pwei d a => word 0x3F#8 { d := d, a := a }
  | .mul d a b => word 0x40#8 { d := d, a := a, b := b }
  | .mulu d a b => word 0x41#8 { d := d, a := a, b := b }
  | .precomp a => word 0x42#8 { a := a }
  | .cinv => word 0x43#8 {}
  | .ptenc a addr fmt => word 0x50#8 { a := a, addr := addr, imm := 0#14 ++ fmt }
  | .ptdec d addr len => word 0x51#8 { d := d, addr := addr, len := len }
  | .sigenc a b addr => word 0x52#8 { a := a, b := b, addr := addr }
  | .sigdec d addr len => word 0x53#8 { d := d, addr := addr, len := len }
  | .derenc a b addr => word 0x54#8 { a := a, b := b, addr := addr }
  | .derdec d addr len => word 0x55#8 { d := d, addr := addr, len := len }
  | .rsigenc a b addr => word 0x56#8 { a := a, b := b, addr := addr }
  | .rsigdec d addr len => word 0x57#8 { d := d, addr := addr, len := len }
  | .schenc a b addr => word 0x58#8 { a := a, b := b, addr := addr }
  | .schdec d addr len => word 0x59#8 { d := d, addr := addr, len := len }
  | .shighs a => word 0x5A#8 { a := a }
  | .snorm d a flip => word 0x5B#8 { d := d, a := a, imm := 0#15 ++ BitVec.ofBool flip }
  | .esign d a addr len nocanon ent => word 0x60#8 { d := d, a := a, addr := addr, len := len, imm := 0#13 ++ ent ++ BitVec.ofBool nocanon }
  | .everify a b c addr len nostrict => word 0x61#8 { a := a, b := b, c := c, addr := addr, len := len, imm := 0#15 ++ BitVec.ofBool nostrict }
  | .erecover d a b addr len => word 0x62#8 { d := d, a := a, b := b, addr := addr, len := len }
  | .spub d a => word 0x70#8 { d := d, a := a }
  | .ssign d a addr len auxbuf => word 0x71#8 { d := d, a := a, addr := addr, len := len, imm := 0#15 ++ BitVec.ofBool auxbuf }
  | .sverify a b c addr len => word 0x72#8 { a := a, b := b, c := c, addr := addr, len := len }

end Sys2Proof
end

