-- ==== Sys2Proof/Machine/Constants.lean ====
section
/-! DEFINITION. The engine's read-only constants (10_state R48, R41; 00_scope R8). -/

namespace Sys2Proof.Machine

/-- P = 2^256 - 2^32 - 977 (R48, index 0). -/
def P : Nat := 0xFFFFFFFFFFFFFFFFFFFFFFFFFFFFFFFFFFFFFFFFFFFFFFFFFFFFFFFEFFFFFC2F

/-- n, the group order (R48, index 1). -/
def N : Nat := 0xFFFFFFFFFFFFFFFFFFFFFFFFFFFFFFFEBAAEDCE6AF48A03BBFD25E8CD0364141

/-- Gx (R48, index 2). -/
def Gx : Word := 0x79BE667EF9DCBBAC55A06295CE870B07029BFCDB2DCE28D959F2815B16F81798#256

/-- Gy (R48, index 3). -/
def Gy : Word := 0x483ADA7726A3C4655DA4FBFC0E1108A8FD17B448A68554199C47D08FFB10D4B8#256

/-- beta (R48, index 4). -/
def beta : Word := 0x7AE96A2B657C07106E64479EAC3434E99CF0497512F58995C1396C28719501EE#256

/-- lambda (R48, index 5). -/
def lambda : Word := 0x5363AD4CC05C30E0A5261C028812645A122E22EA20816678DF02967C1B23BD72#256

/-- HALF_N = n div 2 (R48, index 6). -/
def halfN : Nat := 0x7FFFFFFFFFFFFFFFFFFFFFFFFFFFFFFF5D576E7357A4501DDFE92F46681B20A0

/-- a1 of the GLV basis (R48, R329). -/
def glvA1 : Int := 0x3086D221A7D46BCDE86C90E49284EB15

/-- b1 of the GLV basis (R48, R329). -/
def glvB1 : Int := -0xE4437ED6010E88286F547FA90ABFE4C3

/-- a2 of the GLV basis (R48, R329). -/
def glvA2 : Int := 0x114CA50F7A8E2F3F657C1108D9D44CFD8

/-- b2 = a1 (R48, R329). -/
def glvB2 : Int := glvA1

/-- LDC's table CONST, by index (R48, 40_move_control R203); none for an index above 9. -/
def constant : Nat → Option Word
  | 0 => some (BitVec.ofNat 256 P)
  | 1 => some (BitVec.ofNat 256 N)
  | 2 => some Gx
  | 3 => some Gy
  | 4 => some beta
  | 5 => some lambda
  | 6 => some (BitVec.ofNat 256 halfN)
  | 7 => some 7
  | 8 => some 0
  | 9 => some 1
  | _ => none

/-- The value of CSR ID (R41): CLASS 0x256B, PMVER 0x01, SRCED 0x07. -/
def idValue : Cmd := 0x00000000256B0107#64

/-- BUF_SIZE (R8). -/
def bufSize : Nat := 4096

/-- DRBG_CAP (R8, 45_ecdsa R424). -/
def drbgCap : Nat := 1000

end Sys2Proof.Machine
end

