-- ==== Sys2Proof/Machine/State.lean ====
section
/-! DEFINITION. The state the spec gives the engine (10_state, 70_reset R600), as plain data, and its reset. -/

namespace Sys2Proof.Machine

/-- A Jacobian triple (10_state R34, 42_curve R270): the affine point (X/Z^2, Y/Z^3), or infinity when Z = 0. -/
structure Point where
  x : Word
  y : Word
  z : Word
  deriving DecidableEq, Repr

/-- An affine pair (42_curve R270); (0, 0) is ZERO_A, the affine identity. -/
structure AffPoint where
  x : Word
  y : Word
  deriving DecidableEq, Repr

/-- ZERO_J, the canonical Jacobian identity (00_scope R17). -/
def zeroJ : Point := ⟨0, 1, 0⟩

/-- The command errors of 60_exceptions R501, but E_NONE, which is the absence of an error. -/
inductive Err where
  /-- E_ILLEGAL, code 1. -/
  | illegal
  /-- E_BUFRANGE, code 2. -/
  | bufRange
  /-- E_ENCODING, code 3. -/
  | encoding
  /-- E_RANGE, code 4. -/
  | range
  /-- E_POINT, code 5. -/
  | point
  /-- E_RECID, code 6. -/
  | recId
  /-- E_NOINV, code 7. -/
  | noInv
  /-- E_DRBG, code 8. -/
  | drbg
  /-- E_SELFCHECK, code 9. -/
  | selfCheck
  /-- E_NONCE0, code 10. -/
  | nonce0
  /-- E_ENDO, code 11. -/
  | endo
  deriving DecidableEq, Repr

/-- The precomputation cache's slot when VALID = 1 (10_state R53). -/
structure CacheSlot where
  /-- TWLOG2: the WLOG2 the table was built with (R50). -/
  twlog2 : BitVec 2
  /-- CPOINT: the affine point the table belongs to. -/
  cpoint : AffPoint
  /-- CTABLE: its multiples, each normalised (43_scalar R330, R335). -/
  ctable : List Point
  deriving DecidableEq, Repr

/-- The written bytes of BUF (10_state R52, 20_memory R80), by address. -/
abbrev Mem := List Host.Cell

/-- The canonical form: addresses strictly rising, every one of them in BUF. An unlisted address holds no written byte at
all, so no entry can equal what it holds. (log 1) -/
abbrev Mem.wf (m : Mem) : Prop := m.Pairwise (fun c c' => c.1 < c'.1) ∧ ∀ c ∈ m, c.1 < 4096

/-- A move of the host or the platform (70_reset R620 to R623). Addresses are host bus addresses (20_memory R90); the datum of
a write of width w bytes is the low 8w bits of `data` (log 11). -/
inductive HostOp where
  /-- A read of `width` bytes at `addr`. -/
  | read (addr width : Nat)
  /-- A write of `width` bytes at `addr`. -/
  | write (addr width : Nat) (data : BitVec 64)
  /-- Reset is asserted (R620). -/
  | reset
  /-- The host makes no access: the engine takes this step. -/
  | pass
  deriving DecidableEq, Repr

/-- The state (R, Q, BUF, CSR, CACHE) of 10_state R31, the in-flight command of R56, and the model's own fields. -/
structure State where
  /-- R0..R15 (R32). -/
  r : Vector Word 16
  /-- Q0..Q15 (R34). -/
  q : Vector Point 16
  /-- BUF (R52): the bytes written since reset. -/
  buf : Mem
  /-- STATUS.DONE (R42). -/
  done : Bool
  /-- STATUS.ERR (R42). -/
  err : Bool
  /-- STATUS.RES, the one condition flag (R36). -/
  res : Bool
  /-- STATUS.OVR (R42). -/
  ovr : Bool
  /-- ERRCODE (R43), none being E_NONE. -/
  errcode : Option Err
  /-- ERRCMD (R44). -/
  errcmd : Cmd
  /-- CTRL.IE (R45). -/
  ie : Bool
  /-- CTRL.WLOG2 (R45). -/
  wlog2 : BitVec 2
  /-- RECID (R46). -/
  recid : BitVec 2
  /-- OLEN (R47). -/
  olen : BitVec 13
  /-- DRBGCNT (R49). -/
  drbgcnt : BitVec 11
  /-- The cache slot (R53): a slot exactly when CACHE.VALID = 1 (R50). -/
  cache : Option CacheSlot
  /-- INFLIGHT (R56, 70_reset R621): a word exactly when STATUS.BUSY = 1. -/
  inflight : Option Cmd
  /-- The model's own: how many resets there have been (log 1, log 16). -/
  epoch : Nat
  /-- The model's own: how many free values have been drawn (log 3, log 4, log 16). -/
  draws : Nat
  /-- The model's own: the host's coming moves, first move first (log 6). -/
  host : List HostOp
  /-- The model's own: what the host's last read of the window returned (log 6). -/
  reply : Option (BitVec 64)
  deriving DecidableEq, Repr

/-- Reasons for the machine to stop. There are none: every command error ends in a next state (60_exceptions R510: "The engine
does not stop"), and no BUF access leaves the buffer (20_memory R84). -/
inductive Fault where
  deriving DecidableEq, Repr

/-- Reasons for an instruction to have no meaning. -/
inductive Refusal where
  /-- Raised by an arm of `exec` for an instruction that has no meaning yet: safe. No arm raises it. -/
  | notModelled (mnemonic : String)
  deriving DecidableEq, Repr

/-- What a step, a command or a host move answers. -/
abbrev Outcome := Host.Outcome State Fault Refusal

/-- The machine right after reset: every item of 70_reset R600, no host move to come. -/
def State.reset : State where
  r := Vector.replicate 16 0
  q := Vector.replicate 16 zeroJ
  buf := []
  done := false
  err := false
  res := false
  ovr := false
  errcode := none
  errcmd := 0
  ie := false
  wlog2 := 3
  recid := 0
  olen := 0
  drbgcnt := 0
  cache := none
  inflight := none
  epoch := 0
  draws := 0
  host := []
  reply := none

end Sys2Proof.Machine
end

