-- ==== Sys2Proof/Machine/FieldOps.lean ====
section
/-! DEFINITION. Arithmetic mod P on 256-bit values (41_field R230 to R243). Every operand is reduced first, every result is the
representative in [0, P) (R230); the method is unobservable (R231, R242). -/

namespace Sys2Proof.Machine

/-- `F(v) = v mod P` as an integer (R231). -/
def F (v : Word) : Nat := v.toNat % P

/-- An integer reduced mod P, as a register value. -/
def modP (v : Nat) : Word := BitVec.ofNat 256 (v % P)

/-- Field addition (R232). -/
def fAdd (a b : Word) : Word := modP (F a + F b)

/-- Field subtraction, the non-negative representative (R233). -/
def fSub (a b : Word) : Word := modP (F a + (P - F b))

/-- Field multiplication (R234). -/
def fMul (a b : Word) : Word := modP (F a * F b)

/-- Field squaring (R235). -/
def fSqr (a : Word) : Word := fMul a a

/-- Field negation (R236). -/
def fNeg (a : Word) : Word := modP (P - F a)

/-- The square-and-multiply loop of R237 over bits i-1 down to 0 of e, mod P. -/
def powLoop (b e : Nat) : Nat → Nat → Nat
  | 0, t => t
  | i + 1, t => powLoop b e i (if e.testBit i then (t * t % P) * b % P else t * t % P)

/-- Field exponentiation with a raw exponent below 2^256 (R237). -/
def fPow (a : Word) (e : Nat) : Word := modP (powLoop (F a) e 256 1)

/-- The extended Euclidean algorithm on remainders r0, r1 with coefficients s0, s1: the coefficient of the last nonzero
remainder. The first argument bounds the steps. -/
def egcd : Nat → Nat → Nat → Int → Int → Int
  | 0, _, _, s0, _ => s0
  | f + 1, r0, r1, s0, s1 => if r1 = 0 then s0 else egcd f r1 (r0 % r1) s1 (s0 - (r0 / r1 : Nat) * s1)

/-- The inverse of a mod m for gcd(a, m) = 1, by the document's extended Euclidean algorithm (R238, R325). 512 steps are enough
below 2^256. (log 14) -/
def invMod (a m : Nat) : Nat := (egcd 512 m a 0 1 % (m : Int)).toNat

/-- `inv_P(a)` where it exists (R238). -/
def fInv (a : Word) : Word := modP (invMod (F a) P)

/-- `inv_P(a)` with its check: E_NOINV unless gcd(F(a), P) = 1 (R238). -/
def fInvChecked (a : Word) : Except Err Word := if Nat.gcd (F a) P = 1 then .ok (fInv a) else .error .noInv

/-- `sqrt_P(a)`: the x = a^((P+1)/4) mod P of R239. -/
def fSqrt (a : Word) : Word := fPow a ((P + 1) / 4)

/-- Is x = sqrt_P(a) a root of a (R239)? -/
def isRoot (x a : Word) : Bool := fSqr x == modP (F a)

/-- The forward pass of R240: each element v with the running product t before it (zero elements are skipped), and the product
of the nonzero elements. -/
def batchForward : List Word → Word → List (Word × Word) × Word
  | [], acc => ([], acc)
  | v :: vs, acc =>
    let rest := batchForward vs (if v = 0 then acc else fMul acc v)
    ((v, acc) :: rest.1, rest.2)

/-- The backward pass of R240, from the last element to the first: the inverses, and the running inverse left over. -/
def batchBack : List (Word × Word) → Word → List Word × Word
  | [], inv => ([], inv)
  | (v, t) :: vts, inv =>
    let rest := batchBack vts inv
    if v = 0 then (0 :: rest.1, rest.2) else (fMul rest.2 t :: rest.1, fMul rest.2 v)

/-- Batch inversion by Montgomery's trick (R240): a zero element gives 0. -/
def batchInv (vs : List Word) : List Word :=
  let fwd := batchForward (vs.map (fun v => modP (F v))) 1
  (batchBack fwd.1 (fInv fwd.2)).1

/-- The curve's right-hand side x^3 + 0·x + 7 mod P (42_curve R295). -/
def weierstrass (x : Word) : Word := fAdd (fMul (fSqr x) x) 7

end Sys2Proof.Machine
end

