-- ==== Sys2Proof/Machine/CurveOps.lean ====
section
/-! DEFINITION. Points and the group law (42_curve R270 to R277). -/

namespace Sys2Proof.Machine

/-- `fromAff(a)` (R270). -/
def fromAff (a : AffPoint) : Point := if a = ⟨0, 0⟩ then zeroJ else ⟨a.x, a.y, 1⟩

/-- The base point G = (Gx, Gy, 1) (42_curve R284). -/
def pointG : Point := ⟨Gx, Gy, 1⟩

/-- `dbl(T)` (R271, dbl-2009-l with a = 0). -/
def dbl (t : Point) : Point :=
  let a := fSqr t.x
  let b := fSqr t.y
  let c := fSqr b
  let d := fMul 2 (fSub (fSub (fSqr (fAdd t.x b)) a) c)
  let e := fMul 3 a
  let f := fSqr e
  let x3 := fSub f (fMul 2 d)
  ⟨x3, fSub (fMul e (fSub d x3)) (fMul 8 c), fMul (fMul 2 t.y) t.z⟩

/-- `add(T1, T2)` (R272). -/
def add (t1 t2 : Point) : Point :=
  if t1.z = 0 then t2
  else if t2.z = 0 then t1
  else
    let z1z1 := fSqr t1.z
    let z2z2 := fSqr t2.z
    let u1 := fMul t1.x z2z2
    let u2 := fMul t2.x z1z1
    let s1 := fMul (fMul t1.y t2.z) z2z2
    let s2 := fMul (fMul t2.y t1.z) z1z1
    let h := fSub u2 u1
    let r := fSub s2 s1
    if h = 0 then
      if r = 0 then dbl t1 else zeroJ
    else
      let hh := fSqr h
      let hhh := fMul h hh
      let v := fMul u1 hh
      let x3 := fSub (fSub (fSqr r) hhh) (fMul 2 v)
      ⟨x3, fSub (fMul r (fSub v x3)) (fMul s1 hhh), fMul (fMul t1.z t2.z) h⟩

/-- Negation (R287): (X, (P - Y) mod P, Z). -/
def neg (t : Point) : Point := ⟨t.x, fNeg t.y, t.z⟩

/-- `eq(T1, T2)`: cross-multiplied equality (R273). -/
def ptEq (t1 t2 : Point) : Bool :=
  fMul t1.x (fSqr t2.z) == fMul t2.x (fSqr t1.z) &&
    fMul t1.y (fMul (fSqr t2.z) t2.z) == fMul t2.y (fMul (fSqr t1.z) t1.z)

/-- `aff(T)` (R274). -/
def aff (t : Point) : AffPoint :=
  if t.z = 0 then ⟨0, 0⟩
  else
    let zi := fInv t.z
    ⟨fMul t.x (fSqr zi), fMul t.y (fMul (fSqr zi) zi)⟩

/-- `norm(T) = fromAff(aff(T))` (R270). -/
def norm (t : Point) : Point := fromAff (aff t)

/-- `valid(a)` (R275): 0 < x, y < P and y^2 = x^3 + 7 mod P. -/
def valid (a : AffPoint) : Bool :=
  decide (0 < a.x.toNat ∧ a.x.toNat < P ∧ 0 < a.y.toNat ∧ a.y.toNat < P) && fSqr a.y == weierstrass a.x

/-- `AssertValid(T)` (R275): aff(T), or E_POINT. -/
def assertValid (t : Point) : Except Err AffPoint := if valid (aff t) then .ok (aff t) else .error .point

/-- `lift(x, par)` (R276): the curve point with coordinate x and a y of parity par, or E_POINT. Its `P - y` is taken mod P, which
differs only for y = 0, and no point of the curve has y = 0 (R271). (log 15) -/
def lift (x : Word) (par : Nat) : Except Err AffPoint :=
  if 0 < x.toNat ∧ x.toNat < P then
    let c := weierstrass x
    let y := fSqrt c
    if fSqr y = c then
      .ok ⟨x, if y.toNat % 2 = par then y else fNeg y⟩
    else .error .point
  else .error .point

/-- `endo(X, Y, Z) = (beta·X mod P, Y, Z)` (R277). -/
def endo (t : Point) : Point := ⟨fMul beta t.x, t.y, t.z⟩

/-- Batch normalisation (R293): batch inverses of the Z, then fromAff of (X·zi^2, Y·zi^3), or ZERO_J where Z = 0. -/
def batchNorm (ts : List Point) : List Point :=
  List.zipWith
    (fun t zi => if t.z = 0 then zeroJ else fromAff ⟨fMul t.x (fSqr zi), fMul t.y (fMul (fSqr zi) zi)⟩)
    ts (batchInv (ts.map Point.z))

end Sys2Proof.Machine
end

