-- ==== Sys2Proof/Config.lean ====
section
/-! DEFINITION. What the platform or the host's services fix, and the free values: opaque constants, so that no proof can
lean on a value of theirs (00_scope R8, R10, R11; 93_implementation_defined I1 to I5, I17 to I19). -/

namespace Sys2Proof

/-- HOST_WORD_ORDER (20_memory R91). -/
inductive WordOrder where
  | big
  | little
  deriving DecidableEq, Repr, Inhabited

/-- `SHA256(bytes)` (R10): total, deterministic, any input length. The 32 bytes of the digest are the big-endian bytes of
the answer. (log 2) -/
opaque Config.sha256 : List Byte → Word

/-- `HMAC_SHA256(key, message)` (R10), the message being the concatenation of the parts. (log 2) -/
opaque Config.hmacSha256 : List Byte → List Byte → Word

/-- Byte number i of the stream the RNG draws are taken from (R11, I2). (log 3) -/
opaque Config.rngByte : Nat → Byte

/-- What the BUF byte at an address holds after the reset of an epoch, until it is written (70_reset R600, I1). (log 1) -/
opaque Config.bufReset : Nat → Nat → Byte

/-- Coordinate 0, 1 or 2 of the point that draw number i gives for a multiplication of a point that is neither valid nor
the identity (I5, D55). (log 4) -/
opaque Config.offCurveCoord : Nat → Nat → Word

/-- HOST_WORD_ORDER, an open platform parameter (R91, I18). (log 11) -/
opaque Config.hostWordOrder : WordOrder

/-- ENGINE_BASE, the host address of the register window, an open platform parameter (R90, I17). (log 11) -/
opaque Config.engineBase : Nat

/-- ENGINE_IRQ, the number of the engine's input at the host's interrupt controller (60_exceptions R520, I19). (log 11) -/
opaque Config.engineIrq : Nat

end Sys2Proof
end

