-- ==== Sys2Proof/Machine/Bytes.lean ====
section
/-! DEFINITION. Byte strings and the integers they stand for (00_scope R14, 20_memory R81). -/

namespace Sys2Proof.Machine

/-- `be(b)`: the unsigned integer whose big-endian bytes are b; 0 for the empty string (R14). -/
def be (b : List Byte) : Nat := b.foldl (fun acc x => acc * 256 + x.toNat) 0

/-- `be_N(v)`: the N-byte big-endian string of v (R14). Every use has v below 2^(8N). -/
def beBytes : Nat → Nat → List Byte
  | 0, _ => []
  | n + 1, v => BitVec.ofNat 8 (v / 256 ^ n) :: beBytes n v

/-- `be_32` of a register value, or the 32 bytes of a digest (R14, R10). -/
def be32 (v : Word) : List Byte := beBytes 32 v.toNat

/-- `be(b)` as a 256-bit value, for a byte string of at most 32 bytes. -/
def wordOf (b : List Byte) : Word := BitVec.ofNat 256 (be b)

end Sys2Proof.Machine
end

