-- ==== Sys2Proof/Machine/Ops.lean ====
section
/-! DEFINITION. The named operations over registers and memory, the free draws, and the one way a command ends: with its writes
committed, or with the error report of 60_exceptions R510. -/

namespace Sys2Proof.Machine

/-! ### Registers (10_state R32 to R34, 00_scope R15) -/

/-- `R[i]`. -/
def State.getR (s : State) (i : RegIdx) : Word := s.r[i]

/-- `R[i] <- v`. -/
def State.setR (s : State) (i : RegIdx) (v : Word) : State := { s with r := s.r.set i v }

/-- `R[i], R[i+1], ..., R[i+k-1]`, indices mod 16 (R15, R33). -/
def State.getRegs (s : State) (i : RegIdx) (k : Nat) : List Word :=
  (List.range k).map (fun j => s.getR (i + Fin.ofNat 16 j))

/-- `R[i] <- v0; R[i+1] <- v1; ...`, indices mod 16 (R15, R33). -/
def State.setRegs (s : State) (i : RegIdx) : List Word → State
  | [] => s
  | v :: vs => (s.setR i v).setRegs (i + 1) vs

/-- `Q[i]`. -/
def State.getQ (s : State) (i : PtIdx) : Point := s.q[i]

/-- `Q[i] <- (X, Y, Z)`. -/
def State.setQ (s : State) (i : PtIdx) (p : Point) : State := { s with q := s.q.set i p }

/-- `Q[i], ..., Q[i+k-1]`, indices mod 16. -/
def State.getPts (s : State) (i : PtIdx) (k : Nat) : List Point :=
  (List.range k).map (fun j => s.getQ (i + Fin.ofNat 16 j))

/-- `Q[i] <- p0; Q[i+1] <- p1; ...`, indices mod 16. -/
def State.setPts (s : State) (i : PtIdx) : List Point → State
  | [] => s
  | p :: ps => (s.setQ i p).setPts (i + 1) ps

/-! ### The operand buffer (20_memory R80 to R88) -/

/-- The byte written at an address since reset, if there is one. -/
def Mem.get? : Mem → Nat → Option Byte
  | [], _ => none
  | (x, y) :: m, a => if x = a then some y else Mem.get? m a

/-- Write one byte, keeping the addresses strictly rising. -/
def Mem.set : Mem → Nat → Byte → Mem
  | [], a, b => [(a, b)]
  | (x, y) :: m, a, b =>
    if a < x then (a, b) :: (x, y) :: m else if a = x then (a, b) :: m else (x, y) :: Mem.set m a b

/-- What BUF holds at an address nothing has written since reset: a free value, the same at every read (R600, R88). (log 1) -/
def State.unwritten (s : State) (a : Nat) : Byte := Config.bufReset s.epoch a

/-- `BUF[a]`. -/
def State.bufByte (s : State) (a : Nat) : Byte := (Mem.get? s.buf a).getD (s.unwritten a)

/-- `MemRead(addr, k)` (R15). -/
def State.readBuf (s : State) (addr k : Nat) : List Byte := (List.range k).map (fun j => s.bufByte (addr + j))

/-- The bytes of a string at rising addresses from a. -/
def Mem.setBytes : Mem → Nat → List Byte → Mem
  | m, _, [] => m
  | m, a, b :: bs => Mem.setBytes (Mem.set m a b) (a + 1) bs

/-- `MemWrite(addr, len(b), b)` (R15). -/
def State.writeBuf (s : State) (addr : Nat) (b : List Byte) : State := { s with buf := Mem.setBytes s.buf addr b }

/-! ### Checks (00_scope R16) -/

/-- A check of a rule: `if not c: raise e`. -/
def require (c : Bool) (e : Err) : Except Err Unit := if c then .ok () else .error e

/-- `CheckBuf(addr, k)` (20_memory R84). -/
def checkBuf (addr k : Nat) : Except Err Unit := require (decide (addr + k ≤ bufSize)) .bufRange

/-! ### Draws (00_scope R11, 93 I2, I5) -/

/-- `RNG(k)`: the next k bytes of the stream of draws, and the state in which they are consumed. (log 3) -/
def State.rng (s : State) (k : Nat) : List Byte × State :=
  ((List.range k).map (fun j => Config.rngByte (s.draws + j)), { s with draws := s.draws + k })

/-! ### The end of a command (60_exceptions R510, 70_reset R630) -/

/-- Success: the command's writes, already in the state, take effect together with `STATUS.DONE <- 1` (R510). -/
def State.markDone (s : State) : State := { s with done := true }

/-- `raise E_X` (R510): the first error is captured with the in-flight word, ERR and DONE are set, nothing else changes. With no
command in flight there is no word to record. (log 13) -/
def State.raise (s : State) (e : Err) : State :=
  { s with
    errcode := if s.err then s.errcode else some e
    errcmd := if s.err then s.errcmd else s.inflight.getD s.errcmd
    err := true
    done := true }

/-- How a command ends: its staged writes committed, or discarded and the error reported from the state s (R630). -/
def complete (s : State) : Except Err State → Outcome
  | .ok t => .next t.markDone
  | .error e => .next (s.raise e)

/-- `STATUS.BUSY` (10_state R42, R56). -/
def State.busy (s : State) : Bool := s.inflight.isSome

/-- The issue step (70_reset R621). -/
def State.issue (s : State) (w : Cmd) : State :=
  if s.busy then { s with ovr := true } else { s with inflight := some w, done := false }

/-- The last line of the execute step (R630): BUSY <- 0, INFLIGHT <- none. -/
def State.retire (s : State) : State := { s with inflight := none }

/-- `retire` on what a command answers. -/
def retireOutcome : Outcome → Outcome
  | .next s => .next s.retire
  | .fault r => .fault r
  | .refused r => .refused r

/-- Reset (70_reset R620): every item of R600, BUF unspecified anew, the in-flight command discarded. What is left of the host's
moves, the draws and the host's last answer are no state of the engine. (log 16) -/
def State.resetStep (s : State) : State :=
  { State.reset with epoch := s.epoch + 1, draws := s.draws, host := s.host, reply := s.reply }

end Sys2Proof.Machine
end

