-- ==== Sys2Proof/Machine/ScalarOps.lean ====
section
/-! DEFINITION. Scalars mod n, the GLV split, the windowed NAF and scalar multiplication (43_scalar R320 to R338). -/

namespace Sys2Proof.Machine

/-- `Nn(v) = v mod n` as an integer (R320). -/
def Nn (v : Word) : Nat := v.toNat % N

/-- An integer reduced mod n, as a register value. -/
def modN (v : Nat) : Word := BitVec.ofNat 256 (v % N)

/-- `inv_n(a)` where it exists (R325). -/
def nInv (a : Nat) : Nat := invMod (a % N) N

/-- 0 < v < n, on the raw value (R327). -/
def inScalarRange (v : Word) : Bool := decide (0 < v.toNat ∧ v.toNat < N)

/-- The check `if not (0 < v < n): raise E_RANGE` (R327). -/
def checkScalar (v : Word) : Except Err Unit := require (inScalarRange v) .range

/-- `Sig(r, s)`: 0 < r < n and 0 < s < n (44_codec R370). -/
def isSig (r s : Word) : Bool := inScalarRange r && inScalarRange s

/-- Is s in the upper half, s > HALF_N (R382)? -/
def isHigh (s : Word) : Bool := decide (halfN < s.toNat)

/-! ### The GLV split (R329) -/

/-- `divNearest(a, b) = (a + b div 2) div b`, for a ≥ 0 and b > 0. -/
def divNearest (a b : Nat) : Nat := (a + b / 2) / b

/-- The split's result: k = s1·k1 + s2·k2·lambda mod n, with si = -1 if kineg, else 1. -/
structure Split where
  k1neg : Bool
  k1 : Nat
  k2neg : Bool
  k2 : Nat
  deriving DecidableEq, Repr

/-- `split(k)` for 0 < k < n, or E_ENDO. -/
def split (k : Nat) : Except Err Split :=
  let c1 := divNearest (glvB2.toNat * k) N
  let c2 := divNearest ((-glvB1).toNat * k) N
  let k1 := (((k : Int) - c1 * glvA1 - c2 * glvA2) % (N : Int)).toNat
  let k2 := ((-(c1 * glvB1) - c2 * glvB2) % (N : Int)).toNat
  let k1neg := decide (2 ^ 128 ≤ k1)
  let k2neg := decide (2 ^ 128 ≤ k2)
  let k1' := if k1neg then N - k1 else k1
  let k2' := if k2neg then N - k2 else k2
  if 2 ^ 128 ≤ k1' ∨ 2 ^ 128 ≤ k2' then .error .endo else .ok ⟨k1neg, k1', k2neg, k2'⟩

/-! ### The table and the windowed NAF (R330, R331) -/

/-- base, base + p, base + 2p, ...: m + 1 entries. -/
def multiples (p : Point) : Nat → Point → List Point
  | 0, base => [base]
  | m + 1, base => base :: multiples p m (add base p)

/-- The windows of `precompute`: each holds `half` multiples of its p, and the next window's p doubles the last of them. -/
def windows (half : Nat) : Nat → Point → List Point
  | 0, _ => []
  | m + 1, p =>
    let tab := multiples p (half - 1) p
    tab ++ windows half m (dbl (tab.getLastD p))

/-- `precompute(T, W)` (R330): nw = 128/W + 1 windows of 2^(W-1) entries. -/
def precompute (t : Point) (w : Nat) : List Point := windows (2 ^ (w - 1)) (128 / w + 1) t

/-- The loop of `wnaf` (R331) over m windows from window i on: the result point p and the decoy f. -/
def wnafLoop (tab : List Point) (w : Nat) : Nat → Nat → Nat → Point → Point → Point × Point
  | 0, _, _, p, f => (p, f)
  | m + 1, i, k, p, f =>
    let half := 2 ^ (w - 1)
    let off := i * half
    let d := k % 2 ^ w
    let k' := k / 2 ^ w
    if half < d then
      wnafLoop tab w m (i + 1) (k' + 1) (add p (neg (tab.getD (off + (2 ^ w - d) - 1) zeroJ))) f
    else if d = 0 then
      wnafLoop tab w m (i + 1) k' p
        (add f (if i % 2 = 1 then neg (tab.getD off zeroJ) else tab.getD off zeroJ))
    else
      wnafLoop tab w m (i + 1) k' (add p (tab.getD (off + d - 1) zeroJ)) f

/-- `wnaf(k, tab, W)` (R331): p starts at ZERO_J, the decoy at G. -/
def wnaf (k : Nat) (tab : List Point) (w : Nat) : Point × Point :=
  wnafLoop tab w (128 / w + 1) 0 k zeroJ pointG

/-- The normalised table that PRECOMP builds for a valid affine point (R335). -/
def cacheTable (a : AffPoint) (wlog2 : BitVec 2) : List Point := (precompute (fromAff a) (2 ^ wlog2.toNat)).map norm

/-- Does MUL take its table from the cache (R332)? -/
def cacheHit (c : CacheSlot) (t : Point) : Bool := t.z != 0 && aff t == c.cpoint

/-- MUL's table and window size (R332): the cached table, or a transient one with W = 1. -/
def lookupTable (cache : Option CacheSlot) (t : Point) : List Point × Nat :=
  match cache with
  | some c => if cacheHit c t then (c.ctable, 2 ^ c.twlog2.toNat) else (precompute t 1, 1)
  | none => (precompute t 1, 1)

/-- The sum of the two partial products (R333), before it is normalised. The decoys are discarded. -/
def mulSplit (tab : List Point) (w : Nat) (k : Split) : Point :=
  let p1 := (wnaf k.k1 tab w).1
  let p2 := (wnaf k.k2 tab w).1
  add (if k.k1neg then neg p1 else p1) (endo (if k.k2neg then neg p2 else p2))

/-- The right-to-left loop of R334 over at most m bits of k: `d` doubles, `acc` gathers. -/
def doubleAndAdd : Nat → Nat → Point → Point → Point
  | 0, _, _, acc => acc
  | m + 1, k, d, acc =>
    if k = 0 then acc else doubleAndAdd m (k / 2) (dbl d) (if k % 2 = 1 then add acc d else acc)

/-- The value of `acc` that R334 ends with for a 256-bit k. -/
def mulPlain (t : Point) (k : Nat) : Point := doubleAndAdd 256 k t zeroJ

/-- `smul(T, k)` (R338) for a valid T or the identity: ZERO_J for k = 0 mod n or the identity, else the normalised multiple,
which is the value MUL and MULU write (R337). (log 5) -/
def smul (t : Point) (k : Nat) : Point := if k % N = 0 ∨ t.z = 0 then zeroJ else norm (mulPlain t (k % N))

/-- Is T the identity or the alias of a valid point: the operands for which R333 and R334 state a value (D55)? -/
def multipliable (t : Point) : Bool := t.z == 0 || valid (aff t)

/-- Draw number i of a point: free coordinates, made canonical (93 I5). (log 4) -/
def freePoint (i : Nat) : Point :=
  ⟨modP (Config.offCurveCoord i 0).toNat, modP (Config.offCurveCoord i 1).toNat, modP (Config.offCurveCoord i 2).toNat⟩

/-- `Q[D] <- norm(product)`, the product being a free point where the operand T is neither valid nor the identity (I5). -/
def State.setProduct (s : State) (d : PtIdx) (t product : Point) : State :=
  if multipliable t then s.setQ d (norm product)
  else { s with draws := s.draws + 1 }.setQ d (norm (freePoint s.draws))

end Sys2Proof.Machine
end

