-- ==== Sys2Proof/Machine/CodecOps.lean ====
section
/-! DEFINITION. The byte formats of keys and signatures as functions on byte strings (44_codec R370 to R373). -/

namespace Sys2Proof.Machine

/-- 0 < r < P: the range of a Schnorr r (R380). -/
def inFieldRange (r : Word) : Bool := decide (0 < r.toNat ∧ r.toNat < P)

/-- The domain of a Schnorr signature: 0 < r < P and 0 < s < n (R380). -/
def isSchnorrSig (r s : Word) : Bool := inFieldRange r && inScalarRange s

/-- `be_32(r) || be_32(s)` (R374). -/
def compact (r s : Word) : List Byte := be32 r ++ be32 s

/-! ### DER (R371) -/

/-- The content bytes of a DER INTEGER of v: minimal, with a leading 00 where the high bit would be set. -/
def derContent (v : Word) : List Byte :=
  let c := (be32 v).dropWhile (fun x => x == 0)
  if 0x80 ≤ (c.headD 0).toNat then 0x00 :: c else c

/-- `derInt(v)`: tag 02, length, content. -/
def derInt (v : Word) : List Byte :=
  let c := derContent v
  0x02 :: BitVec.ofNat 8 c.length :: c

/-- `der(r, s)`: tag 30, length, the two INTEGERs. -/
def der (r s : Word) : List Byte :=
  let body := derInt r ++ derInt s
  0x30 :: BitVec.ofNat 8 body.length :: body

/-- `derIntDec` on the bytes left to read: the INTEGER's value and the bytes after it, or E_ENCODING. -/
def derIntDec : List Byte → Except Err (Nat × List Byte)
  | tag :: l :: rest =>
    let c := rest.take l.toNat
    if tag ≠ 0x02 then .error .encoding
    else if l = 0 ∨ 0x80 ≤ l.toNat ∨ rest.length < l.toNat then .error .encoding
    else if 0x80 ≤ (c.headD 0).toNat then .error .encoding
    else if 2 ≤ l.toNat ∧ c.headD 0 = 0 ∧ (c.tail.headD 0).toNat < 0x80 then .error .encoding
    else .ok (be c, rest.drop l.toNat)
  | _ => .error .encoding

/-- The check of the domain at the end of `underive`, on integers of any size. -/
def checkSigNat (r s : Nat) : Except Err Unit := require (decide (0 < r ∧ r < N ∧ 0 < s ∧ s < N)) .range

/-- `underive(b)`: the two INTEGERs, E_ENCODING, or E_RANGE. -/
def underive : List Byte → Except Err (Word × Word)
  | tag :: l :: body => do
    require (tag == 0x30) .encoding
    require (decide (l.toNat < 0x80 ∧ l.toNat = body.length)) .encoding
    let rp ← derIntDec body
    let sp ← derIntDec rp.2
    require sp.2.isEmpty .encoding
    checkSigNat rp.1 sp.1
    .ok (BitVec.ofNat 256 rp.1, BitVec.ofNat 256 sp.1)
  | _ => .error .encoding

/-! ### Public keys (R372, R373) -/

/-- The bytes of a public key in format fmt (R372): compressed, uncompressed, or x-only. -/
def encodePoint (a : AffPoint) (fmt : BitVec 2) : List Byte :=
  match fmt.toNat with
  | 0 => BitVec.ofNat 8 (2 + a.y.toNat % 2) :: be32 a.x
  | 1 => 0x04 :: (be32 a.x ++ be32 a.y)
  | _ => be32 a.x

/-- The public key in a byte string, whose length selects the format (R373). -/
def decodePoint (b : List Byte) : Except Err AffPoint :=
  match b.length with
  | 32 => lift (wordOf b) 0
  | 33 => do
    require (b.headD 0 == 0x02 || b.headD 0 == 0x03) .encoding
    lift (wordOf b.tail) ((b.headD 0).toNat - 2)
  | 65 => do
    require (b.headD 0 == 0x04) .encoding
    let a : AffPoint := ⟨wordOf (b.tail.take 32), wordOf (b.tail.drop 32)⟩
    require (valid a) .point
    .ok a
  | _ => .error .encoding

end Sys2Proof.Machine
end

