-- ==== Sys2Proof/Machine/Flags.lean ====
section
/-! DEFINITION. The flag computations: STATUS and its one condition flag RES, ERRCODE's codes, and IRQ (10_state R36, R42, R43;
60_exceptions R501, R520). -/

namespace Sys2Proof.Machine

/-- ERRCODE's code of an error (60_exceptions R501). -/
def Err.code : Err → BitVec 8
  | .illegal => 1
  | .bufRange => 2
  | .encoding => 3
  | .range => 4
  | .point => 5
  | .recId => 6
  | .noInv => 7
  | .drbg => 8
  | .selfCheck => 9
  | .nonce0 => 10
  | .endo => 11

/-- ERRCODE[7:0] (R43): 0 is E_NONE. -/
def errorCode : Option Err → BitVec 8
  | none => 0
  | some e => e.code

/-- `STATUS.RES <- c ? 1 : 0` (R36). -/
def State.setRes (s : State) (c : Bool) : State := { s with res := c }

/-- The 64-bit value of STATUS (R42) with a given BUSY bit: OVR, RES, ERR, DONE, BUSY in bits 4 to 0. -/
def State.statusWord (s : State) (busy : Bool) : Cmd :=
  0#59 ++ BitVec.ofBool s.ovr ++ BitVec.ofBool s.res ++ BitVec.ofBool s.err ++ BitVec.ofBool s.done ++ BitVec.ofBool busy

/-- A write of STATUS (R42, 40_move_control R208): DONE, ERR and OVR are cleared where the written bit is 1, ERR together with
ERRCODE and ERRCMD; RES takes bit 3; BUSY and the reserved bits are ignored. -/
def State.writeStatus (s : State) (v : Cmd) : State :=
  { s with
    done := s.done && !v.getLsbD 1
    err := s.err && !v.getLsbD 2
    errcode := if v.getLsbD 2 then none else s.errcode
    errcmd := if v.getLsbD 2 then 0 else s.errcmd
    ovr := s.ovr && !v.getLsbD 4
    res := v.getLsbD 3 }

/-- IRQ = CTRL.IE AND STATUS.DONE (60_exceptions R520). -/
def State.irq (s : State) : Bool := s.ie && s.done

/-- Input k of the host's interrupt controller, as the engine drives it (R520): the line goes to input ENGINE_IRQ. -/
def State.irqInput (s : State) (k : Nat) : Bool := k == Config.engineIrq && s.irq

end Sys2Proof.Machine
end

