-- ==== Sys2Proof/Machine/Operands.lean ====
section
/-! DEFINITION. The operand forms that are not plain registers: CSR numbers, byte counts, element counts, and the checks of
reserved values (10_state R40 to R51; 30_encoding R123, R125). -/

namespace Sys2Proof.Machine

/-! ### Reserved values (R125): each check raises E_ILLEGAL -/

/-- LD and ST: LEN in 1..32. -/
def checkMoveLen (len : BitVec 12) : Except Err Unit := require (decide (1 ≤ len.toNat ∧ len.toNat ≤ 32)) .illegal

/-- FBINV and PAFFB: cnt in 1..16. -/
def checkCount (cnt : BitVec 5) : Except Err Unit := require (decide (1 ≤ cnt.toNat ∧ cnt.toNat ≤ 16)) .illegal

/-- CSRR and CSRW: csr at most 8. -/
def checkCsr (csr : BitVec 16) : Except Err Unit := require (decide (csr.toNat ≤ 8)) .illegal

/-- CSRW: csr in {1, 4, 5}, the others being read-only (R51). -/
def checkCsrWritable (csr : BitVec 16) : Except Err Unit :=
  require (csr.toNat == 1 || csr.toNat == 4 || csr.toNat == 5) .illegal

/-! ### Control and status registers (R40) -/

/-- CACHE (R50): VALID in bit 0, TWLOG2 in bits 2:1, 0 when VALID = 0. -/
def cacheWord : Option CacheSlot → Cmd
  | none => 0
  | some c => 0#61 ++ c.twlog2 ++ 1#1

/-- The 64-bit value of CSR n (R41 to R50) with a given STATUS.BUSY; 0 for an unassigned number (R51). -/
def State.csrRead (s : State) (n : Nat) (busy : Bool) : Cmd :=
  match n with
  | 0 => idValue
  | 1 => s.statusWord busy
  | 2 => 0#56 ++ errorCode s.errcode
  | 3 => s.errcmd
  | 4 => 0#61 ++ s.wlog2 ++ BitVec.ofBool s.ie
  | 5 => 0#62 ++ s.recid
  | 6 => 0#51 ++ s.olen
  | 7 => 0#53 ++ s.drbgcnt
  | 8 => cacheWord s.cache
  | _ => 0

/-- A write of CTRL (R45, R208): a change of WLOG2 invalidates the cache. -/
def State.writeCtrl (s : State) (v : Cmd) : State :=
  { s with
    cache := if v.extractLsb' 1 2 = s.wlog2 then s.cache else none
    ie := v.getLsbD 0
    wlog2 := v.extractLsb' 1 2 }

/-- A write of RECID (R46, R208). -/
def State.writeRecid (s : State) (v : Cmd) : State := { s with recid := v.extractLsb' 0 2 }

/-- A write of CSR n with the field rules of R40, from a command or from the host: a read-only or unassigned number is ignored
(R51; a command has raised E_ILLEGAL before). -/
def State.csrWrite (s : State) (n : Nat) (v : Cmd) : State :=
  match n with
  | 1 => s.writeStatus v
  | 4 => s.writeCtrl v
  | 5 => s.writeRecid v
  | _ => s

end Sys2Proof.Machine
end

