-- ==== Sys2Proof/Machine/Codec.lean ====
section
/-! DEFINITION. The meanings of 44_codec (R370 to R383): encoders check values, then the output region; decoders check the input
region, then the format, then the domain (R370). -/

namespace Sys2Proof.Machine

/-- The check `if not Sig(r, s): raise E_RANGE` (R370). -/
def checkSig (r s : Word) : Except Err Unit := require (isSig r s) .range

/-- The check of a Schnorr signature's domain (R380). -/
def checkSchnorrSig (r s : Word) : Except Err Unit := require (isSchnorrSig r s) .range

/-- The output of an encoder of fixed or known length: the range check, then the write (R370). -/
def State.emit (s : State) (addr : BitVec 12) (out : List Byte) : Except Err State := do
  checkBuf addr.toNat out.length
  .ok (s.writeBuf addr.toNat out)

/-- The output of PTENC and DERENC, which also write OLEN (10_state R47). -/
def State.emitWithLength (s : State) (addr : BitVec 12) (out : List Byte) : Except Err State := do
  let t ← s.emit addr out
  .ok { t with olen := BitVec.ofNat 13 out.length }

/-- The input of a decoder whose format fixes the length: the range check of LEN bytes, then the length (R370). -/
def State.fetchExact (s : State) (addr len : BitVec 12) (k : Nat) : Except Err (List Byte) := do
  checkBuf addr.toNat len.toNat
  require (len.toNat == k) .encoding
  .ok (s.readBuf addr.toNat k)

/-- PTENC (R372): writes OLEN. -/
def execPtenc (a : PtIdx) (addr : BitVec 12) (fmt : BitVec 2) (s : State) : Outcome :=
  complete s do
    require (fmt.toNat != 3) .illegal
    let p ← assertValid (s.getQ a)
    s.emitWithLength addr (encodePoint p fmt)

/-- PTDEC (R373): LEN selects the format; the result has Z = 1. -/
def execPtdec (d : PtIdx) (addr len : BitVec 12) (s : State) : Outcome :=
  complete s do
    checkBuf addr.toNat len.toNat
    let p ← decodePoint (s.readBuf addr.toNat len.toNat)
    .ok (s.setQ d ⟨p.x, p.y, 1⟩)

/-- SIGENC (R374). -/
def execSigenc (a b : RegIdx) (addr : BitVec 12) (s : State) : Outcome :=
  complete s do
    checkSig (s.getR a) (s.getR b)
    s.emit addr (compact (s.getR a) (s.getR b))

/-- SIGDEC (R375): writes R[D] and R[D+1]. -/
def execSigdec (d : RegIdx) (addr len : BitVec 12) (s : State) : Outcome :=
  complete s do
    let b ← s.fetchExact addr len 64
    let r := wordOf (b.take 32)
    let v := wordOf (b.drop 32)
    checkSig r v
    .ok (s.setRegs d [r, v])

/-- DERENC (R376): writes OLEN. -/
def execDerenc (a b : RegIdx) (addr : BitVec 12) (s : State) : Outcome :=
  complete s do
    checkSig (s.getR a) (s.getR b)
    s.emitWithLength addr (der (s.getR a) (s.getR b))

/-- DERDEC (R377): writes R[D] and R[D+1]. -/
def execDerdec (d : RegIdx) (addr len : BitVec 12) (s : State) : Outcome :=
  complete s do
    checkBuf addr.toNat len.toNat
    let rs ← underive (s.readBuf addr.toNat len.toNat)
    .ok (s.setRegs d [rs.1, rs.2])

/-- RSIGENC (R378): the prefix byte is 31 + RECID. -/
def execRsigenc (a b : RegIdx) (addr : BitVec 12) (s : State) : Outcome :=
  complete s do
    checkSig (s.getR a) (s.getR b)
    s.emit addr (BitVec.ofNat 8 (31 + s.recid.toNat) :: compact (s.getR a) (s.getR b))

/-- RSIGDEC (R379): writes R[D], R[D+1] and RECID. -/
def execRsigdec (d : RegIdx) (addr len : BitVec 12) (s : State) : Outcome :=
  complete s do
    let b ← s.fetchExact addr len 65
    let pre := (b.headD 0).toNat
    require (decide (31 ≤ pre ∧ pre ≤ 34)) .encoding
    let r := wordOf (b.tail.take 32)
    let v := wordOf (b.tail.drop 32)
    checkSig r v
    .ok { s.setRegs d [r, v] with recid := BitVec.ofNat 2 (pre - 31) }

/-- SCHENC (R380). -/
def execSchenc (a b : RegIdx) (addr : BitVec 12) (s : State) : Outcome :=
  complete s do
    checkSchnorrSig (s.getR a) (s.getR b)
    s.emit addr (compact (s.getR a) (s.getR b))

/-- SCHDEC (R381): writes R[D] and R[D+1]. -/
def execSchdec (d : RegIdx) (addr len : BitVec 12) (s : State) : Outcome :=
  complete s do
    let b ← s.fetchExact addr len 64
    let r := wordOf (b.take 32)
    let v := wordOf (b.drop 32)
    checkSchnorrSig r v
    .ok (s.setRegs d [r, v])

/-- SHIGHS (R382). -/
def execShighs (a : RegIdx) (s : State) : Outcome :=
  complete s do
    checkScalar (s.getR a)
    .ok (s.setRes (isHigh (s.getR a)))

/-- SNORM (R383): RES = 1 when s was replaced; with FLIP, RECID bit 0 is then flipped. -/
def execSnorm (d a : RegIdx) (flip : Bool) (s : State) : Outcome :=
  complete s do
    checkScalar (s.getR a)
    if isHigh (s.getR a) then
      .ok { (s.setR d (BitVec.ofNat 256 (N - (s.getR a).toNat))).setRes true with
            recid := if flip then s.recid ^^^ 1 else s.recid }
    else .ok ((s.setR d (s.getR a)).setRes false)

end Sys2Proof.Machine
end

