-- ==== Sys2Proof/Machine/Curve.lean ====
section
/-! DEFINITION. The meanings of 42_curve: PSET, PSETJ, PGET, PGETJ, PLDG, PZERO, PMOV, PNEG, PDBL, PADD, PEQ, PCHK, PAFF, PAFFB,
PENDO, PWEI (R278 to R295). Only PCHK checks that a point lies on the curve (R278). -/

namespace Sys2Proof.Machine

/-- A coordinate read from a register must be canonical, else E_POINT (R280, R281). -/
def checkCoord (v : Word) : Except Err Unit := require (decide (v.toNat < P)) .point

/-- PSET (R280): (0, 0) gives ZERO_J. -/
def execPset (d : PtIdx) (a b : RegIdx) (s : State) : Outcome :=
  complete s do
    checkCoord (s.getR a)
    checkCoord (s.getR b)
    .ok (s.setQ d (fromAff ⟨s.getR a, s.getR b⟩))

/-- PSETJ (R281). -/
def execPsetj (d : PtIdx) (a b c : RegIdx) (s : State) : Outcome :=
  complete s do
    checkCoord (s.getR a)
    checkCoord (s.getR b)
    checkCoord (s.getR c)
    .ok (s.setQ d ⟨s.getR a, s.getR b, s.getR c⟩)

/-- PGET (R282): writes R[D] and R[D+1]. -/
def execPget (d : RegIdx) (a : PtIdx) (s : State) : Outcome :=
  let p := aff (s.getQ a)
  complete s (.ok (s.setRegs d [p.x, p.y]))

/-- PGETJ (R283): writes R[D], R[D+1] and R[D+2]. -/
def execPgetj (d : RegIdx) (a : PtIdx) (s : State) : Outcome :=
  let p := s.getQ a
  complete s (.ok (s.setRegs d [p.x, p.y, p.z]))

/-- PLDG (R284). -/
def execPldg (d : PtIdx) (s : State) : Outcome := complete s (.ok (s.setQ d pointG))

/-- PZERO (R285). -/
def execPzero (d : PtIdx) (s : State) : Outcome := complete s (.ok (s.setQ d zeroJ))

/-- PMOV (R286): the raw triple. -/
def execPmov (d a : PtIdx) (s : State) : Outcome := complete s (.ok (s.setQ d (s.getQ a)))

/-- PNEG (R287). -/
def execPneg (d a : PtIdx) (s : State) : Outcome := complete s (.ok (s.setQ d (neg (s.getQ a))))

/-- PDBL (R288). -/
def execPdbl (d a : PtIdx) (s : State) : Outcome := complete s (.ok (s.setQ d (dbl (s.getQ a))))

/-- PADD (R289). -/
def execPadd (d a b : PtIdx) (s : State) : Outcome := complete s (.ok (s.setQ d (add (s.getQ a) (s.getQ b))))

/-- PEQ (R290). -/
def execPeq (a b : PtIdx) (s : State) : Outcome := complete s (.ok (s.setRes (ptEq (s.getQ a) (s.getQ b))))

/-- PCHK (R291): writes nothing. -/
def execPchk (a : PtIdx) (s : State) : Outcome :=
  complete s do
    let _ ← assertValid (s.getQ a)
    .ok s

/-- PAFF (R292). -/
def execPaff (d a : PtIdx) (s : State) : Outcome := complete s (.ok (s.setQ d (norm (s.getQ a))))

/-- PAFFB (R293): all reads first, indices mod 16. -/
def execPaffb (d a : PtIdx) (cnt : BitVec 5) (s : State) : Outcome :=
  complete s do
    checkCount cnt
    .ok (s.setPts d (batchNorm (s.getPts a cnt.toNat)))

/-- PENDO (R294). -/
def execPendo (d a : PtIdx) (s : State) : Outcome := complete s (.ok (s.setQ d (endo (s.getQ a))))

/-- PWEI (R295). -/
def execPwei (d a : RegIdx) (s : State) : Outcome := complete s (.ok (s.setR d (weierstrass (s.getR a))))

end Sys2Proof.Machine
end

