-- ==== Sys2Proof/Machine/Drbg.lean ====
section
/-! DEFINITION. The message scalar, the HMAC-DRBG and the ECDSA and Schnorr procedures the signature commands share (45_ecdsa R421
to R425, R427; 46_schnorr R450, R453). -/

namespace Sys2Proof.Machine

/-- `bits2int(h)` (R421): a hash longer than 32 bytes keeps its leftmost 256 bits. -/
def bits2int (h : List Byte) : Nat :=
  if 256 < 8 * h.length then be h / 2 ^ (8 * h.length - 256) else be h

/-- The message scalar m = bits2int(h) mod n (R421). -/
def msgScalar (h : List Byte) : Nat := bits2int h % N

/-! ### The DRBG (R422 to R424) -/

/-- The phase of a DRBG instance (R422). -/
inductive DrbgPhase where
  | initialized
  | reseeded
  | generating
  deriving DecidableEq, Repr

/-- One DRBG instance (K, V, cnt, phase) (R422, 10_state R54). It lives inside one ESIGN. -/
structure Drbg where
  k : Word
  v : Word
  cnt : Nat
  phase : DrbgPhase
  deriving DecidableEq, Repr

/-- A new instance (R422): K = 00 × 32, V = 01 × 32, cnt = 0. -/
def drbgNew : Drbg where
  k := 0
  v := 0x0101010101010101010101010101010101010101010101010101010101010101#256
  cnt := 0
  phase := .initialized

/-- One round of reseed: K <- HMAC(K, V, tag, seed); V <- HMAC(K, V) (R423). -/
def drbgRound (g : Drbg) (tag : Byte) (seed : List Byte) : Drbg :=
  let k := Config.hmacSha256 (be32 g.k) (be32 g.v ++ [tag] ++ seed)
  { g with k := k, v := Config.hmacSha256 (be32 k) (be32 g.v) }

/-- `reseed(seed)` (R423): a second round with tag 01 for a nonempty seed. -/
def reseed (g : Drbg) (seed : List Byte) : Drbg :=
  let g1 := drbgRound g 0x00 seed
  { (if seed.isEmpty then g1 else drbgRound g1 0x01 seed) with phase := .reseeded }

/-- `generate()` (R424): E_DRBG when 1000 candidates have been generated, else the next candidate. -/
def generate (g : Drbg) : Except Err (Nat × Drbg) :=
  if drbgCap ≤ g.cnt then .error .drbg
  else
    let v := Config.hmacSha256 (be32 g.k) (be32 g.v)
    .ok (v.toNat, { g with v := v, cnt := g.cnt + 1, phase := .generating })

/-- What a signing attempt gives: r, s and the recovery id (R425). -/
structure EcdsaSig where
  r : Nat
  s : Nat
  recid : BitVec 2
  deriving DecidableEq, Repr

/-- The recovery id (Rx = r ? 0 : 2) | (Ry mod 2) (R425). -/
def recoveryId (rx r ry : Nat) : BitVec 2 := BitVec.ofNat 2 ((if rx = r then 0 else 2) + ry % 2)

/-- `kmdToSig(k, m, d)` (R425); none is FAIL. -/
def kmdToSig (k m d : Nat) : Option EcdsaSig :=
  if 0 < k ∧ k < N then
    let a := aff (smul pointG k)
    let r := a.x.toNat % N
    if r = 0 then none
    else
      let s := nInv k * (m + d * r) % N
      if s = 0 then none else some ⟨r, s, recoveryId a.x.toNat r a.y.toNat⟩
  else none

/-- The loop of ESIGN (R426): generate, try, reseed with the empty string. It gives the signature and cnt. The 1001st generate
raises E_DRBG, so the first argument, 1001 at the start, never runs out. -/
def signLoop : Nat → Drbg → Nat → Nat → Except Err (EcdsaSig × Nat)
  | 0, _, _, _ => .error .drbg
  | f + 1, g, m, d =>
    match generate g with
    | .error e => .error e
    | .ok (k, g') =>
      match kmdToSig k m d with
      | some sig => .ok (sig, g'.cnt)
      | none => signLoop f (reseed g' []) m d

/-- The low-S step of ESIGN (R426): n - s and the other parity for a high s. -/
def canonicalSig (sig : EcdsaSig) : EcdsaSig :=
  if halfN < sig.s then { sig with s := N - sig.s, recid := sig.recid ^^^ 1 } else sig

/-- The seed's first part be_32(d) || be_32(m) (R426). -/
def signSeed (d m : Nat) : List Byte := beBytes 32 d ++ beBytes 32 m

/-- `verifyE(r, s, T, h)` (R427). -/
def verifyE (nostrict : Bool) (r s : Word) (t : Point) (h : List Byte) : Bool :=
  if !isSig r s then false
  else if !nostrict && isHigh s then false
  else if !valid (aff t) then false
  else
    let w := nInv s.toNat
    let u1 := msgScalar h * w % N
    let u2 := r.toNat * w % N
    let x := add (smul pointG u1) (smul (fromAff (aff t)) u2)
    if x.z = 0 then false else (aff x).x.toNat % N == r.toNat

/-- The point Q = (s·R - h·G)·r^-1 of ERECOVER (R428), before its check and normalisation. -/
def recoverPoint (ra : AffPoint) (r s : Word) (h : List Byte) : Point :=
  let w := nInv r.toNat
  let u1 := (N - msgScalar h * w % N) % N
  let u2 := s.toNat * w % N
  add (smul pointG u1) (smul (fromAff ra) u2)

/-! ### Schnorr (R450 to R453) -/

/-- The ASCII bytes of "BIP0340/aux" (R450). -/
def tagAux : List Byte := [0x42, 0x49, 0x50, 0x30, 0x33, 0x34, 0x30, 0x2F, 0x61, 0x75, 0x78]

/-- The ASCII bytes of "BIP0340/nonce" (R450). -/
def tagNonce : List Byte := [0x42, 0x49, 0x50, 0x30, 0x33, 0x34, 0x30, 0x2F, 0x6E, 0x6F, 0x6E, 0x63, 0x65]

/-- The ASCII bytes of "BIP0340/challenge" (R450). -/
def tagChallenge : List Byte :=
  [0x42, 0x49, 0x50, 0x30, 0x33, 0x34, 0x30, 0x2F, 0x63, 0x68, 0x61, 0x6C, 0x6C, 0x65, 0x6E, 0x67, 0x65]

/-- `taggedHash(tag, parts)` (R450), the parts concatenated; the 256-bit integer be(digest), not reduced. -/
def taggedHash (tag parts : List Byte) : Word :=
  let t := be32 (Config.sha256 tag)
  Config.sha256 (t ++ t ++ parts)

/-- The challenge e = be(taggedHash("BIP0340/challenge", be_32(r), be_32(px), msg)) mod n (R452, R453). -/
def challenge (r px : Word) (msg : List Byte) : Nat := (taggedHash tagChallenge (be32 r ++ be32 px ++ msg)).toNat % N

/-- The point R' = s·G - e·P of R453. -/
def schnorrPoint (s : Word) (pa : AffPoint) (e : Nat) : Point :=
  add (smul pointG s.toNat) (smul (fromAff pa) (N - e))

/-- `verifyS(r, s, px, msg)` (R453). -/
def verifyS (r s px : Word) (msg : List Byte) : Bool :=
  if !isSchnorrSig r s then false
  else
    match lift px 0 with
    | .error _ => false
    | .ok pa =>
      let x := schnorrPoint s pa (challenge r px msg)
      if x.z = 0 then false
      else if (aff x).y.toNat % 2 = 1 then false
      else (aff x).x == r

/-- Steps 1 to 7 of R452 from the key d0, the message and aux: r and s, E_NONCE0 or E_SELFCHECK. -/
def schnorrSign (d0 : Word) (msg aux : List Byte) : Except Err (Word × Word) := do
  let p := aff (smul pointG d0.toNat)
  let d := if p.y.toNat % 2 = 1 then N - d0.toNat else d0.toNat
  let t := BitVec.ofNat 256 d ^^^ taggedHash tagAux aux
  let k0 := (taggedHash tagNonce (be32 t ++ be32 p.x ++ msg)).toNat % N
  require (k0 != 0) .nonce0
  let r := aff (smul pointG k0)
  let k := if r.y.toNat % 2 = 1 then N - k0 else k0
  let s := modN (k + challenge r.x p.x msg * d)
  require (verifyS r.x s p.x msg) .selfCheck
  .ok (r.x, s)

end Sys2Proof.Machine
end

