-- ==== Sys2Proof/Machine/Ecdsa.lean ====
section
/-! DEFINITION. The meanings of 45_ecdsa: ESIGN, EVERIFY, ERECOVER (R420 to R428). -/

namespace Sys2Proof.Machine

/-- The hash input of a command (R420): LEN bytes in BUF, with `extra` more bytes checked after them; an empty hash is
E_ENCODING. -/
def State.fetchHash (s : State) (addr len : BitVec 12) (extra : Nat) : Except Err (List Byte) := do
  checkBuf addr.toNat (len.toNat + extra)
  require (len.toNat != 0) .encoding
  .ok (s.readBuf addr.toNat len.toNat)

/-- The checks of ESIGN before its draw (R426), giving the hash. -/
def esignInput (a : RegIdx) (addr len : BitVec 12) (ent : BitVec 2) (s : State) : Except Err (List Byte) := do
  require (ent.toNat != 3) .illegal
  let h ← s.fetchHash addr len (if ent.toNat = 1 then 32 else 0)
  checkScalar (s.getR a)
  .ok h

/-- The extra entropy of ESIGN (R426): none, 32 bytes of BUF after the hash, or RNG(32); and the state after the draw. -/
def State.entropy (s : State) (addr len : BitVec 12) (ent : BitVec 2) : List Byte × State :=
  match ent.toNat with
  | 1 => (s.readBuf (addr.toNat + len.toNat) 32, s)
  | 2 => s.rng 32
  | _ => ([], s)

/-- The writes of ESIGN (R426). -/
def State.writeSig (s : State) (d : RegIdx) (sig : EcdsaSig) (cnt : Nat) : State :=
  { s.setRegs d [BitVec.ofNat 256 sig.r, BitVec.ofNat 256 sig.s] with
    recid := sig.recid
    drbgcnt := BitVec.ofNat 11 cnt }

/-- The signing loop of ESIGN on a key, a message scalar and extra entropy (R426), with its low-S step. -/
def esignRun (nocanon : Bool) (dkey m : Nat) (entropy : List Byte) : Except Err (EcdsaSig × Nat) :=
  match signLoop (drbgCap + 1) (reseed drbgNew (signSeed dkey m ++ entropy)) m dkey with
  | .error e => .error e
  | .ok (sig, cnt) => .ok (if nocanon then sig else canonicalSig sig, cnt)

/-- ESIGN (R426). An error after the draw leaves the draw consumed (60_exceptions R510). -/
def execEsign (d a : RegIdx) (addr len : BitVec 12) (nocanon : Bool) (ent : BitVec 2) (s : State) : Outcome :=
  match esignInput a addr len ent s with
  | .error e => complete s (.error e)
  | .ok h =>
    let es := s.entropy addr len ent
    complete es.2 do
      let sc ← esignRun nocanon (s.getR a).toNat (msgScalar h) es.1
      .ok (es.2.writeSig d sc.1 sc.2)

/-- EVERIFY (R427): a bad signature or key is RES = 0, no error. -/
def execEverify (a b : RegIdx) (c : PtIdx) (addr len : BitVec 12) (nostrict : Bool) (s : State) : Outcome :=
  complete s do
    let h ← s.fetchHash addr len 0
    .ok (s.setRes (verifyE nostrict (s.getR a) (s.getR b) (s.getQ c) h))

/-- ERECOVER (R428). -/
def execErecover (d : PtIdx) (a b : RegIdx) (addr len : BitVec 12) (s : State) : Outcome :=
  complete s do
    let h ← s.fetchHash addr len 0
    require (isSig (s.getR a) (s.getR b)) .range
    require (decide (s.recid.toNat ≤ 1)) .recId
    let ra ← lift (s.getR a) (s.recid.toNat % 2)
    let x := recoverPoint ra (s.getR a) (s.getR b) h
    require (x.z != 0) .point
    .ok (s.setQ d (norm x))

end Sys2Proof.Machine
end

