-- ==== Sys2Proof/Machine/Field.lean ====
section
/-! DEFINITION. The meanings of 41_field: FADD, FSUB, FMUL, FSQR, FNEG, FPOW, FINV, FSQRT, FBINV, FRED (R230 to R241). -/

namespace Sys2Proof.Machine

/-- FADD (R232). -/
def execFadd (d a b : RegIdx) (s : State) : Outcome := complete s (.ok (s.setR d (fAdd (s.getR a) (s.getR b))))

/-- FSUB (R233). -/
def execFsub (d a b : RegIdx) (s : State) : Outcome := complete s (.ok (s.setR d (fSub (s.getR a) (s.getR b))))

/-- FMUL (R234). -/
def execFmul (d a b : RegIdx) (s : State) : Outcome := complete s (.ok (s.setR d (fMul (s.getR a) (s.getR b))))

/-- FSQR (R235). -/
def execFsqr (d a : RegIdx) (s : State) : Outcome := complete s (.ok (s.setR d (fSqr (s.getR a))))

/-- FNEG (R236). -/
def execFneg (d a : RegIdx) (s : State) : Outcome := complete s (.ok (s.setR d (fNeg (s.getR a))))

/-- FPOW (R237): the exponent is the raw value of rB. -/
def execFpow (d a b : RegIdx) (s : State) : Outcome := complete s (.ok (s.setR d (fPow (s.getR a) (s.getR b).toNat)))

/-- FINV (R238): E_NOINV for a value that is 0 mod P. -/
def execFinv (d a : RegIdx) (s : State) : Outcome :=
  complete s do
    let x ← fInvChecked (s.getR a)
    .ok (s.setR d x)

/-- FSQRT (R239): RES says whether the value is a square. -/
def execFsqrt (d a : RegIdx) (s : State) : Outcome :=
  let x := fSqrt (s.getR a)
  complete s (.ok ((s.setR d x).setRes (isRoot x (s.getR a))))

/-- FBINV (R240): all reads first, indices mod 16. -/
def execFbinv (d a : RegIdx) (cnt : BitVec 5) (s : State) : Outcome :=
  complete s do
    checkCount cnt
    .ok (s.setRegs d (batchInv (s.getRegs a cnt.toNat)))

/-- FRED (R241). -/
def execFred (d a : RegIdx) (s : State) : Outcome := complete s (.ok (s.setR d (modP (s.getR a).toNat)))

end Sys2Proof.Machine
end

