-- ==== Sys2Proof/Machine/MoveControl.lean ====
section
/-! DEFINITION. The meanings of 40_move_control: NOP, LDI, LDC, MOV, LD, ST, CSRR, CSRW, RCMP, RODD (R200 to R210). Each follows
its rule's pseudocode; `complete` ends it (60_exceptions R510). -/

namespace Sys2Proof.Machine

/-- NOP (R201). -/
def execNop (s : State) : Outcome := complete s (.ok s)

/-- LDI (R202). -/
def execLdi (d : RegIdx) (imm16 : BitVec 16) (s : State) : Outcome := complete s (.ok (s.setR d (imm16.setWidth 256)))

/-- LDC (R203): E_ILLEGAL for an index above 9. -/
def execLdc (d : RegIdx) (k : BitVec 16) (s : State) : Outcome :=
  complete s (match constant k.toNat with
    | some v => .ok (s.setR d v)
    | none => .error .illegal)

/-- MOV (R204). -/
def execMov (d a : RegIdx) (s : State) : Outcome := complete s (.ok (s.setR d (s.getR a)))

/-- LD (R205). -/
def execLd (d : RegIdx) (addr len : BitVec 12) (s : State) : Outcome :=
  complete s do
    checkMoveLen len
    checkBuf addr.toNat len.toNat
    .ok (s.setR d (wordOf (s.readBuf addr.toNat len.toNat)))

/-- ST (R206): a value that does not fit LEN bytes is refused with E_ENCODING. -/
def execSt (a : RegIdx) (addr len : BitVec 12) (s : State) : Outcome :=
  complete s do
    checkMoveLen len
    checkBuf addr.toNat len.toNat
    require (decide ((s.getR a).toNat < 2 ^ (8 * len.toNat))) .encoding
    .ok (s.writeBuf addr.toNat (beBytes len.toNat (s.getR a).toNat))

/-- CSRR (R207): a command reads STATUS with BUSY = 1. -/
def execCsrr (d : RegIdx) (csr : BitVec 16) (s : State) : Outcome :=
  complete s do
    checkCsr csr
    .ok (s.setR d ((s.csrRead csr.toNat true).setWidth 256))

/-- CSRW (R208): the low 64 bits of rA. -/
def execCsrw (a : RegIdx) (csr : BitVec 16) (s : State) : Outcome :=
  complete s do
    checkCsr csr
    checkCsrWritable csr
    .ok (s.csrWrite csr.toNat ((s.getR a).setWidth 64))

/-- RCMP (R209): equality of all 256 bits. -/
def execRcmp (a b : RegIdx) (s : State) : Outcome := complete s (.ok (s.setRes (s.getR a == s.getR b)))

/-- RODD (R210). -/
def execRodd (a : RegIdx) (s : State) : Outcome := complete s (.ok (s.setRes ((s.getR a).toNat % 2 == 1)))

end Sys2Proof.Machine
end

