-- ==== Sys2Proof/Machine/Scalar.lean ====
section
/-! DEFINITION. The meanings of 43_scalar: NADD, NSUB, NMUL, NNEG, NINV, NRED, NCHK, NSPLIT (R320 to R328) and MUL, MULU, PRECOMP,
CINV (R333 to R336). -/

namespace Sys2Proof.Machine

/-- NADD (R321). -/
def execNadd (d a b : RegIdx) (s : State) : Outcome := complete s (.ok (s.setR d (modN (Nn (s.getR a) + Nn (s.getR b)))))

/-- NSUB (R322), the non-negative representative. -/
def execNsub (d a b : RegIdx) (s : State) : Outcome :=
  complete s (.ok (s.setR d (modN (Nn (s.getR a) + (N - Nn (s.getR b))))))

/-- NMUL (R323). -/
def execNmul (d a b : RegIdx) (s : State) : Outcome := complete s (.ok (s.setR d (modN (Nn (s.getR a) * Nn (s.getR b)))))

/-- NNEG (R324). -/
def execNneg (d a : RegIdx) (s : State) : Outcome := complete s (.ok (s.setR d (modN (N - Nn (s.getR a)))))

/-- NINV (R325): E_NOINV for a value that is 0 mod n. -/
def execNinv (d a : RegIdx) (s : State) : Outcome :=
  complete s do
    require (Nat.gcd (Nn (s.getR a)) N == 1) .noInv
    .ok (s.setR d (modN (nInv (Nn (s.getR a)))))

/-- NRED (R326). -/
def execNred (d a : RegIdx) (s : State) : Outcome := complete s (.ok (s.setR d (modN (s.getR a).toNat)))

/-- NCHK (R327). -/
def execNchk (a : RegIdx) (s : State) : Outcome :=
  complete s do
    checkScalar (s.getR a)
    .ok s

/-- NSPLIT (R328): k1, k2 and the signs k1neg + 2·k2neg. -/
def execNsplit (d a : RegIdx) (s : State) : Outcome :=
  complete s do
    checkScalar (s.getR a)
    let k ← split (s.getR a).toNat
    .ok (s.setRegs d [BitVec.ofNat 256 k.k1, BitVec.ofNat 256 k.k2,
      BitVec.ofNat 256 ((if k.k1neg then 1 else 0) + (if k.k2neg then 2 else 0))])

/-- MUL (R333): the cached table or a transient one (R332), the GLV split, two windowed multiplications, the sum normalised. -/
def execMul (d a : PtIdx) (b : RegIdx) (s : State) : Outcome :=
  complete s do
    checkScalar (s.getR b)
    let tw := lookupTable s.cache (s.getQ a)
    let k ← split (s.getR b).toNat
    .ok (s.setProduct d (s.getQ a) (mulSplit tw.1 tw.2 k))

/-- MULU (R334): plain double-and-add, without the cache. -/
def execMulu (d a : PtIdx) (b : RegIdx) (s : State) : Outcome :=
  complete s do
    checkScalar (s.getR b)
    .ok (s.setProduct d (s.getQ a) (mulPlain (s.getQ a) (s.getR b).toNat))

/-- PRECOMP (R335): the slot is replaced whole. -/
def execPrecomp (a : PtIdx) (s : State) : Outcome :=
  complete s do
    let p ← assertValid (s.getQ a)
    .ok { s with cache := some ⟨s.wlog2, p, cacheTable p s.wlog2⟩ }

/-- CINV (R336). -/
def execCinv (s : State) : Outcome := complete s (.ok { s with cache := none })

end Sys2Proof.Machine
end

