-- ==== Sys2Proof/Machine/Schnorr.lean ====
section
/-! DEFINITION. The meanings of 46_schnorr: SPUB, SSIGN, SVERIFY (R450 to R453). -/

namespace Sys2Proof.Machine

/-- SPUB (R451). -/
def execSpub (d a : RegIdx) (s : State) : Outcome :=
  complete s do
    checkScalar (s.getR a)
    .ok (s.setR d (aff (smul pointG (s.getR a).toNat)).x)

/-- The checks of SSIGN before its draw (R452), giving the message. -/
def ssignInput (a : RegIdx) (addr len : BitVec 12) (auxbuf : Bool) (s : State) : Except Err (List Byte) := do
  checkBuf addr.toNat (len.toNat + (if auxbuf then 32 else 0))
  checkScalar (s.getR a)
  .ok (s.readBuf addr.toNat len.toNat)

/-- The auxiliary randomness of SSIGN (R452): 32 bytes of BUF after the message, or RNG(32); and the state after the draw. -/
def State.auxRand (s : State) (addr len : BitVec 12) (auxbuf : Bool) : List Byte × State :=
  if auxbuf then (s.readBuf (addr.toNat + len.toNat) 32, s) else s.rng 32

/-- SSIGN (R452). An error after the draw leaves the draw consumed (60_exceptions R510). -/
def execSsign (d a : RegIdx) (addr len : BitVec 12) (auxbuf : Bool) (s : State) : Outcome :=
  match ssignInput a addr len auxbuf s with
  | .error e => complete s (.error e)
  | .ok msg =>
    let xs := s.auxRand addr len auxbuf
    complete xs.2 do
      let rs ← schnorrSign (s.getR a) msg xs.1
      .ok (xs.2.setRegs d [rs.1, rs.2])

/-- SVERIFY (R453): no domain failure is an error. -/
def execSverify (a b c : RegIdx) (addr len : BitVec 12) (s : State) : Outcome :=
  complete s do
    checkBuf addr.toNat len.toNat
    .ok (s.setRes (verifyS (s.getR a) (s.getR b) (s.getR c) (s.readBuf addr.toNat len.toNat)))

end Sys2Proof.Machine
end

