-- ==== Sys2Proof/Machine/Dispatch.lean ====
section
/-! DEFINITION. One arm per command: a direct call of its meaning. -/

namespace Sys2Proof.Machine

/-- What a command does in the execute step (70_reset R630): its rule run, its writes committed or its error reported. -/
def exec (i : Instr) (s : State) : Host.Outcome State Fault Refusal :=
  match i with
  | .nop => Sys2Proof.Machine.execNop s
  | .ldi d imm16 => Sys2Proof.Machine.execLdi d imm16 s
  | .ldc d k => Sys2Proof.Machine.execLdc d k s
  | .mov d a => Sys2Proof.Machine.execMov d a s
  | .ld d addr len => Sys2Proof.Machine.execLd d addr len s
  | .st a addr len => Sys2Proof.Machine.execSt a addr len s
  | .csrr d csr => Sys2Proof.Machine.execCsrr d csr s
  | .csrw a csr => Sys2Proof.Machine.execCsrw a csr s
  | .rcmp a b => Sys2Proof.Machine.execRcmp a b s
  | .rodd a => Sys2Proof.Machine.execRodd a s
  | .fadd d a b => Sys2Proof.Machine.execFadd d a b s
  | .fsub d a b => Sys2Proof.Machine.execFsub d a b s
  | .fmul d a b => Sys2Proof.Machine.execFmul d a b s
  | .fsqr d a => Sys2Proof.Machine.execFsqr d a s
  | .fneg d a => Sys2Proof.Machine.execFneg d a s
  | .fpow d a b => Sys2Proof.Machine.execFpow d a b s
  | .finv d a => Sys2Proof.Machine.execFinv d a s
  | .fsqrt d a => Sys2Proof.Machine.execFsqrt d a s
  | .fbinv d a cnt => Sys2Proof.Machine.execFbinv d a cnt s
  | .fred d a => Sys2Proof.Machine.execFred d a s
  | .nadd d a b => Sys2Proof.Machine.execNadd d a b s
  | .nsub d a b => Sys2Proof.Machine.execNsub d a b s
  | .nmul d a b => Sys2Proof.Machine.execNmul d a b s
  | .nneg d a => Sys2Proof.Machine.execNneg d a s
  | .ninv d a => Sys2Proof.Machine.execNinv d a s
  | .nred d a => Sys2Proof.Machine.execNred d a s
  | .nchk a => Sys2Proof.Machine.execNchk a s
  | .nsplit d a => Sys2Proof.Machine.execNsplit d a s
  | .pset d a b => Sys2Proof.Machine.execPset d a b s
  | .psetj d a b c => Sys2Proof.Machine.execPsetj d a b c s
  | .pget d a => Sys2Proof.Machine.execPget d a s
  | .pgetj d a => Sys2Proof.Machine.execPgetj d a s
  | .pldg d => Sys2Proof.Machine.execPldg d s
  | .pzero d => Sys2Proof.Machine.execPzero d s
  | .pmov d a => Sys2Proof.Machine.execPmov d a s
  | .pneg d a => Sys2Proof.Machine.execPneg d a s
  | .pdbl d a => Sys2Proof.Machine.execPdbl d a s
  | .padd d a b => Sys2Proof.Machine.execPadd d a b s
  | .peq a b => Sys2Proof.Machine.execPeq a b s
  | .pchk a => Sys2Proof.Machine.execPchk a s
  | .paff d a => Sys2Proof.Machine.execPaff d a s
  | .paffb d a cnt => Sys2Proof.Machine.execPaffb d a cnt s
  | .pendo d a => Sys2Proof.Machine.execPendo d a s
  | .pwei d a => Sys2Proof.Machine.execPwei d a s
  | .mul d a b => Sys2Proof.Machine.execMul d a b s
  | .mulu d a b => Sys2Proof.Machine.execMulu d a b s
  | .precomp a => Sys2Proof.Machine.execPrecomp a s
  | .cinv => Sys2Proof.Machine.execCinv s
  | .ptenc a addr fmt => Sys2Proof.Machine.execPtenc a addr fmt s
  | .ptdec d addr len => Sys2Proof.Machine.execPtdec d addr len s
  | .sigenc a b addr => Sys2Proof.Machine.execSigenc a b addr s
  | .sigdec d addr len => Sys2Proof.Machine.execSigdec d addr len s
  | .derenc a b addr => Sys2Proof.Machine.execDerenc a b addr s
  | .derdec d addr len => Sys2Proof.Machine.execDerdec d addr len s
  | .rsigenc a b addr => Sys2Proof.Machine.execRsigenc a b addr s
  | .rsigdec d addr len => Sys2Proof.Machine.execRsigdec d addr len s
  | .schenc a b addr => Sys2Proof.Machine.execSchenc a b addr s
  | .schdec d addr len => Sys2Proof.Machine.execSchdec d addr len s
  | .shighs a => Sys2Proof.Machine.execShighs a s
  | .snorm d a flip => Sys2Proof.Machine.execSnorm d a flip s
  | .esign d a addr len nocanon ent => Sys2Proof.Machine.execEsign d a addr len nocanon ent s
  | .everify a b c addr len nostrict => Sys2Proof.Machine.execEverify a b c addr len nostrict s
  | .erecover d a b addr len => Sys2Proof.Machine.execErecover d a b addr len s
  | .spub d a => Sys2Proof.Machine.execSpub d a s
  | .ssign d a addr len auxbuf => Sys2Proof.Machine.execSsign d a addr len auxbuf s
  | .sverify a b c addr len => Sys2Proof.Machine.execSverify a b c addr len s

end Sys2Proof.Machine
end

