-- ==== Sys2Proof/Machine/HostPort.lean ====
section
/-! DEFINITION. The host's accesses to the engine's window, each one atomic step (20_memory R90, R91; 70_reset R620 to R623). -/

namespace Sys2Proof.Machine

/-- The offset of a bus address in the 8 KiB window at ENGINE_BASE, if it lies there (R90). -/
def windowOffset (addr : Nat) : Option Nat :=
  if Config.engineBase ≤ addr ∧ addr < Config.engineBase + 0x2000 then some (addr - Config.engineBase) else none

/-- An access width the window knows (R90). -/
def legalWidth (w : Nat) : Bool := w == 1 || w == 2 || w == 4 || w == 8

/-- What an access at an offset of the window reaches (R90, R91). -/
inductive Target where
  /-- `BUF[off .. off+w-1]`, naturally aligned. -/
  | buf (off : Nat)
  /-- CSR n, n ≤ 8, 8 bytes aligned. -/
  | csr (n : Nat)
  /-- The CMD port, 8 bytes aligned. -/
  | cmd
  /-- A reserved offset, an unassigned CSR slot, or a misaligned or wrong-width access. -/
  | nothing
  deriving DecidableEq, Repr

/-- The window's layout (R90, R91). -/
def target (off w : Nat) : Target :=
  if !legalWidth w || off % w != 0 then .nothing
  else if off < 0x1000 then .buf off
  else if w != 8 then .nothing
  else if off ≤ 0x1040 then .csr ((off - 0x1000) / 8)
  else if off = 0x1080 then .cmd
  else .nothing

/-- The bytes of a w-byte bus datum in address order, by HOST_WORD_ORDER (R91). (log 11) -/
def laneBytes (order : WordOrder) (w : Nat) (data : BitVec 64) : List Byte :=
  match order with
  | .big => beBytes w data.toNat
  | .little => (beBytes w data.toNat).reverse

/-- The bus datum of bytes in address order, by HOST_WORD_ORDER (R91). (log 11) -/
def laneValue (order : WordOrder) (b : List Byte) : BitVec 64 :=
  match order with
  | .big => BitVec.ofNat 64 (be b)
  | .little => BitVec.ofNat 64 (be b.reverse)

/-- What a host read of w bytes at an offset returns (R622, R623): BUF bytes only when BUSY = 0, a CSR with the real BUSY, else 0. -/
def State.hostReadValue (s : State) (off w : Nat) : BitVec 64 :=
  match target off w with
  | .buf a => if s.busy then 0 else laneValue Config.hostWordOrder (s.readBuf a w)
  | .csr n => s.csrRead n s.busy
  | .cmd => 0
  | .nothing => 0

/-- A host read changes no engine state (20_memory R88); the answer is kept for the host. -/
def State.hostRead (s : State) (off w : Nat) : State := { s with reply := some (s.hostReadValue off w) }

/-- A dropped access: STATUS.OVR <- 1 (R623). -/
def State.overrun (s : State) : State := { s with ovr := true }

/-- A host write of w bytes at an offset (R621 to R623). (log 9, log 10) -/
def State.hostWrite (s : State) (off w : Nat) (data : BitVec 64) : State :=
  match target off w with
  | .buf a => if s.busy then s.overrun else s.writeBuf a (laneBytes Config.hostWordOrder w data)
  | .csr n => if n = 1 then s.writeStatus data else if s.busy then s.overrun else s.csrWrite n data
  | .cmd => s.issue data
  | .nothing => s

/-- One move of the host on the rest of its moves' state; `pass` moves nothing. -/
def State.hostMove (s : State) : HostOp → State
  | .read addr w =>
    match windowOffset addr with
    | some off => s.hostRead off w
    | none => s
  | .write addr w data =>
    match windowOffset addr with
    | some off => s.hostWrite off w data
    | none => s
  | .reset => s.resetStep
  | .pass => s

end Sys2Proof.Machine
end

