-- ==== Sys2Proof/Machine/Step.lean ====
section
/-! DEFINITION. One step of the machine: a move of the host, or the engine's turn (20_memory R93, 70_reset R620 to R630). -/

namespace Sys2Proof.Machine

/-- The execute step of the in-flight word (R630): decode (30_encoding R126), run the rule, then BUSY <- 0 and INFLIGHT <- none.
A word that decodes as no row raises E_ILLEGAL. -/
def executeStep (w : Cmd) (s : State) : Outcome :=
  retireOutcome (match Sys2Proof.decode w with
    | .ok i => exec i s
    | .error _ => complete s (.error .illegal))

/-- The engine's turn: the execute step when a command is in flight, else nothing changes (60_exceptions R545). (log 8) -/
def engineTurn (s : State) : Outcome :=
  match s.inflight with
  | some w => executeStep w s
  | none => .next s

/-- One step: the host's next move, or, when the host passes or has no move left, the engine's turn. (log 6) -/
def step (s : State) : Host.Outcome State Fault Refusal :=
  match s.host with
  | [] => engineTurn s
  | .pass :: rest => engineTurn { s with host := rest }
  | op :: rest => .next ({ s with host := rest }.hostMove op)

/-- The state in which the very next step executes the command word w (bits at nbits and above 0): the word is in flight as the
issue step leaves it (R621), and the engine has the next turn. (log 7) -/
def State.withFetchWord (s : State) (nbits w : Nat) : State :=
  { s with inflight := some (BitVec.ofNat 64 (w % 2 ^ nbits)), done := false, host := .pass :: s.host }

end Sys2Proof.Machine
end

