-- ==== Sys2Proof/Safety.lean ====
section
/-! DEFINITION. The terms the claims are stated in: what holds of every state a run reaches, what each command may read of BUF and
write, and what a run is, when it ends and when it is clean (10_state R34, R42 to R53; 70_reset R633, R634). -/

namespace Sys2Proof.Machine

/-! ### Invariants -/

/-- Every coordinate is in [0, P) (10_state R34). -/
abbrev Point.Canonical (p : Point) : Prop := p.x.toNat < P ∧ p.y.toNat < P ∧ p.z.toNat < P

/-- R34's invariant of the point register file. -/
abbrev State.PointsCanonical (s : State) : Prop := ∀ i : PtIdx, (s.getQ i).Canonical

/-- R53, R45: the slot holds a valid point with its whole table, built with the WLOG2 that CTRL still holds. -/
abbrev State.CacheConsistent (s : State) : Prop :=
  ∀ c, s.cache = some c → valid c.cpoint = true ∧ c.twlog2 = s.wlog2 ∧ c.ctable = cacheTable c.cpoint c.twlog2

/-- R43, R44: ERRCODE and ERRCMD hold an error's report exactly while ERR = 1. -/
abbrev State.ErrorReportConsistent (s : State) : Prop :=
  (s.err = true → s.errcode ≠ none) ∧ (s.err = false → s.errcode = none ∧ s.errcmd = 0)

/-- R621: an issued command that has not executed shows DONE = 0. -/
abbrev State.BusyHidesDone (s : State) : Prop := s.busy = true → s.done = false

/-- R47, R49: OLEN is at most 72, DRBGCNT at most 1000. -/
abbrev State.CountersBounded (s : State) : Prop := s.olen.toNat ≤ 72 ∧ s.drbgcnt.toNat ≤ 1000

/-! ### What a command may write, and what it reads of BUF -/

/-- What a command may write beside DONE and the error report (60_exceptions R510): registers, points, a region of BUF (start,
length), flags and special registers, and the free values it may draw; and the region of BUF that it reads (20_memory R86). -/
structure Footprint where
  regs : List RegIdx := []
  pts : List PtIdx := []
  region : Nat × Nat := (0, 0)
  res : Bool := false
  ovr : Bool := false
  ctrl : Bool := false
  recid : Bool := false
  olen : Bool := false
  drbgcnt : Bool := false
  cache : Bool := false
  draws : Bool := false
  reads : Nat × Nat := (0, 0)

/-- The input region of a command whose rule checks k bytes at addr against BUF and then reads the first n of them: nothing, when the
check fails or the rule's format check before the read does. -/
def inputRegion (addr k n : Nat) (format : Bool) : Nat × Nat := if format && decide (addr + k ≤ bufSize) then (addr, n) else (0, 0)

/-- The register indices i, i+1, ..., i+k-1, mod 16 (10_state R33). -/
def indices (i : Fin 16) (k : Nat) : List (Fin 16) := (List.range k).map (fun j => i + Fin.ofNat 16 j)

/-- What each command may write, and what it reads of BUF, as its rule says (10_state R33, R36, R45 to R50, R53; 20_memory R86). PTDEC
with a LEN other than 32, 33 or 65 counts as reading nothing: DESIGN CHOICE, safe (log 20). -/
def footprint (s : State) : Instr → Footprint
  | .nop => {}
  | .ldi d _ => { regs := [d] }
  | .ldc d _ => { regs := [d] }
  | .mov d _ => { regs := [d] }
  | .ld d addr len => { regs := [d], reads := inputRegion addr.toNat len.toNat len.toNat (movesLegal len) }
  | .st _ addr len => { region := (addr.toNat, len.toNat) }
  | .csrr d _ => { regs := [d] }
  | .csrw _ csr =>
    { res := csr == 1, ovr := csr == 1, ctrl := csr == 4, cache := csr == 4, recid := csr == 5 }
  | .rcmp _ _ => { res := true }
  | .rodd _ => { res := true }
  | .fadd d _ _ => { regs := [d] }
  | .fsub d _ _ => { regs := [d] }
  | .fmul d _ _ => { regs := [d] }
  | .fsqr d _ => { regs := [d] }
  | .fneg d _ => { regs := [d] }
  | .fpow d _ _ => { regs := [d] }
  | .finv d _ => { regs := [d] }
  | .fsqrt d _ => { regs := [d], res := true }
  | .fbinv d _ cnt => { regs := indices d cnt.toNat }
  | .fred d _ => { regs := [d] }
  | .nadd d _ _ => { regs := [d] }
  | .nsub d _ _ => { regs := [d] }
  | .nmul d _ _ => { regs := [d] }
  | .nneg d _ => { regs := [d] }
  | .ninv d _ => { regs := [d] }
  | .nred d _ => { regs := [d] }
  | .nchk _ => {}
  | .nsplit d _ => { regs := indices d 3 }
  | .pset d _ _ => { pts := [d] }
  | .psetj d _ _ _ => { pts := [d] }
  | .pget d _ => { regs := indices d 2 }
  | .pgetj d _ => { regs := indices d 3 }
  | .pldg d => { pts := [d] }
  | .pzero d => { pts := [d] }
  | .pmov d _ => { pts := [d] }
  | .pneg d _ => { pts := [d] }
  | .pdbl d _ => { pts := [d] }
  | .padd d _ _ => { pts := [d] }
  | .peq _ _ => { res := true }
  | .pchk _ => {}
  | .paff d _ => { pts := [d] }
  | .paffb d _ cnt => { pts := indices d cnt.toNat }
  | .pendo d _ => { pts := [d] }
  | .pwei d _ => { regs := [d] }
  | .mul d _ _ => { pts := [d], draws := true }
  | .mulu d _ _ => { pts := [d], draws := true }
  | .precomp _ => { cache := true }
  | .cinv => { cache := true }
  | .ptenc a addr fmt => { region := (addr.toNat, (encodePoint (aff (s.getQ a)) fmt).length), olen := true }
  | .ptdec d addr len =>
    { pts := [d], reads := inputRegion addr.toNat len.toNat len.toNat (len == 32 || len == 33 || len == 65) }
  | .sigenc _ _ addr => { region := (addr.toNat, 64) }
  | .sigdec d addr len => { regs := indices d 2, reads := inputRegion addr.toNat len.toNat len.toNat (len == 64) }
  | .derenc a b addr => { region := (addr.toNat, (der (s.getR a) (s.getR b)).length), olen := true }
  | .derdec d addr len => { regs := indices d 2, reads := inputRegion addr.toNat len.toNat len.toNat true }
  | .rsigenc _ _ addr => { region := (addr.toNat, 65) }
  | .rsigdec d addr len =>
    { regs := indices d 2, recid := true, reads := inputRegion addr.toNat len.toNat len.toNat (len == 65) }
  | .schenc _ _ addr => { region := (addr.toNat, 64) }
  | .schdec d addr len => { regs := indices d 2, reads := inputRegion addr.toNat len.toNat len.toNat (len == 64) }
  | .shighs _ => { res := true }
  | .snorm d _ flip => { regs := [d], res := true, recid := flip }
  | .esign d a addr len _ ent =>
    { regs := indices d 2, recid := true, drbgcnt := true, draws := true
      reads := inputRegion addr.toNat (len.toNat + if ent == 1 then 32 else 0)
        (len.toNat + if ent == 1 && inScalarRange (s.getR a) then 32 else 0) (ent != 3 && len != 0) }
  | .everify _ _ _ addr len _ => { res := true, reads := inputRegion addr.toNat len.toNat len.toNat true }
  | .erecover d _ _ addr len => { pts := [d], reads := inputRegion addr.toNat len.toNat len.toNat true }
  | .spub d _ => { regs := [d] }
  | .ssign d a addr len auxbuf =>
    { regs := indices d 2, draws := true
      reads := inputRegion addr.toNat (len.toNat + if auxbuf then 32 else 0)
        (len.toNat + if auxbuf && inScalarRange (s.getR a) then 32 else 0) true }
  | .sverify _ _ _ addr len => { res := true, reads := inputRegion addr.toNat len.toNat len.toNat true }

/-- From s to t, every register, point and BUF byte outside the footprint and every flag and special register that it does not
name is unchanged; so are the in-flight command and what belongs to the host. -/
structure WritesOnly (f : Footprint) (s t : State) : Prop where
  regs : ∀ j, j ∉ f.regs → t.getR j = s.getR j
  pts : ∀ j, j ∉ f.pts → t.getQ j = s.getQ j
  buf : ∀ x, ¬(f.region.1 ≤ x ∧ x < f.region.1 + f.region.2) → t.bufByte x = s.bufByte x
  res : f.res = false → t.res = s.res
  ovr : f.ovr = false → t.ovr = s.ovr
  ctrl : f.ctrl = false → t.ie = s.ie ∧ t.wlog2 = s.wlog2
  recid : f.recid = false → t.recid = s.recid
  olen : f.olen = false → t.olen = s.olen
  drbgcnt : f.drbgcnt = false → t.drbgcnt = s.drbgcnt
  cache : f.cache = false → t.cache = s.cache
  draws : f.draws = false → t.draws = s.draws
  inflight : t.inflight = s.inflight
  outside : t.epoch = s.epoch ∧ t.host = s.host ∧ t.reply = s.reply

/-! ### Byte strings in BUF -/

/-- `BUF[a .. a+n-1]` holds be_n(v): the byte at the lowest address is the most significant (20_memory R81). -/
abbrev State.HoldsBytes (s : State) (a n v : Nat) : Prop :=
  ∀ j < n, (s.bufByte (a + j)).toNat = v / 256 ^ (n - 1 - j) % 256

/-- Every byte outside `BUF[a .. a+n-1]` reads in t as in s (20_memory R87). -/
abbrev State.SameOutside (s t : State) (a n : Nat) : Prop :=
  ∀ x, ¬(a ≤ x ∧ x < a + n) → t.bufByte x = s.bufByte x

/-! ### Schnorr hashes and the verification equation, as 46_schnorr writes them -/

/-- `be(taggedHash(tag, parts))` for the ASCII tag name, the parts concatenated (R450). -/
def taggedDigest (tag : String) (parts : List Byte) : Nat :=
  let t := be32 (Config.sha256 (tag.toList.map (fun c => BitVec.ofNat 8 c.toNat)))
  (Config.sha256 (t ++ t ++ parts)).toNat

/-- The challenge of a signature's r, a key's x and a message: be(taggedHash("BIP0340/challenge", be_32(r), be_32(px), msg)) mod n
(R452 step 5, R453). -/
def challengeOf (r px : Word) (msg : List Byte) : Nat := taggedDigest "BIP0340/challenge" (be32 r ++ be32 px ++ msg) % N

/-- A Schnorr signature is good (R453): r and s in range, px the x of a curve point P, and R' = s·G + (n - e)·P no identity, with an
even y and with x = r. -/
abbrev SchnorrGood (r s px : Word) (msg : List Byte) : Prop :=
  (0 < r.toNat ∧ r.toNat < P ∧ 0 < s.toNat ∧ s.toNat < N) ∧
    ∃ p, lift px 0 = .ok p ∧
      let x := add (smul pointG s.toNat) (smul (fromAff p) (N - challengeOf r px msg))
      x.z ≠ 0 ∧ (aff x).y.toNat % 2 = 0 ∧ (aff x).x = r

/-! ### Runs (70_reset R633, R634)

A run is a launch state with the host's moves in its field `host` (log 6); `s.after n` is the state n steps later. -/

/-- The state one step later. Every step answers one, so the last two cases do not arise. -/
def State.next (s : State) : State :=
  match step s with
  | .next t => t
  | .fault _ => s
  | .refused _ => s

/-- The state n steps later. -/
def State.after (s : State) : Nat → State
  | 0 => s
  | n + 1 => (s.after n).next

/-- The next step is the engine's turn: the host passes or has no move left. -/
def State.enginesTurn (s : State) : Bool :=
  match s.host with
  | [] => true
  | .pass :: _ => true
  | _ :: _ => false

/-- The next step is an execute step (R630). -/
def State.executes (s : State) : Bool := s.enginesTurn && s.busy

/-- The next step is a host write that reaches CMD (R621). -/
def State.writesCmd (s : State) : Bool :=
  match s.host with
  | .write addr w _ :: _ =>
    match windowOffset addr with
    | some off => target off w == .cmd
    | none => false
  | _ => false

/-- Step k of the run was its last CMD write before step n. -/
abbrev State.LastCmdWrite (s : State) (n k : Nat) : Prop :=
  k < n ∧ (s.after k).writesCmd = true ∧ ∀ j, k < j → j < n → (s.after j).writesCmd = false

/-- R633's condition 3 after n steps: the last CMD write was accepted (BUSY was 0, so it left OVR unchanged), its execute step has
happened, and DONE = 1. A run without a CMD write meets it. (log 19) -/
abbrev State.LastCommandDone (s : State) (n : Nat) : Prop :=
  ∀ k, s.LastCmdWrite n k →
    (s.after k).busy = false ∧ (∃ j, k < j ∧ j < n ∧ (s.after j).executes = true) ∧ (s.after n).done = true

/-- R633's three conditions after n steps. -/
abbrev State.Ended (s : State) (n : Nat) : Prop :=
  (s.after n).host = [] ∧ (s.after n).busy = false ∧ s.LastCommandDone n

/-- The run ends after n steps: the first state in which the three conditions hold; `s.after n` is its final state. -/
abbrev State.EndsAt (s : State) (n : Nat) : Prop := s.Ended n ∧ ∀ m < n, ¬s.Ended m

/-- The next step sets ERR, whether ERR was 0 or 1 before it (R42, R510): the same step taken with ERR = 0 ends with ERR = 1. -/
def State.setsErr (s : State) : Bool := ({ s with err := false } : State).next.err

/-- The run that ends after n steps faulted: ERR = 1 in the final state, or a step of the run set ERR, whether it was cleared or not
afterwards. (log 19) -/
abbrev State.Faulted (s : State) (n : Nat) : Prop := (s.after n).err = true ∨ ∃ k < n, (s.after k).setsErr = true

/-- The run that ends after n steps lost work: OVR = 1 in the final state. -/
abbrev State.LostWork (s : State) (n : Nat) : Prop := (s.after n).ovr = true

/-- The run ends after n steps and is clean: it neither faulted nor lost work. -/
abbrev State.EndsClean (s : State) (n : Nat) : Prop := s.EndsAt n ∧ ¬s.Faulted n ∧ ¬s.LostWork n

/-- The BUF bytes that the next step reads: those of the command it executes, or those of a host read of BUF. -/
def State.stepReads (s : State) : Nat × Nat :=
  match s.host with
  | .read addr w :: _ =>
    match windowOffset addr with
    | some off => match target off w with
      | .buf a => if s.busy then (0, 0) else (a, w)
      | .csr _ => (0, 0)
      | .cmd => (0, 0)
      | .nothing => (0, 0)
    | none => (0, 0)
  | _ =>
    match s.enginesTurn, s.inflight.map decode with
    | true, some (.ok i) => (footprint s i).reads
    | _, _ => (0, 0)

/-- The byte at an address is given: it has been written since the last reset (log 1). -/
abbrev State.Given (s : State) (x : Nat) : Prop := (Mem.get? s.buf x).isSome = true

/-- The BUF bytes the run reads are given (R634, R624 duty 1): whenever a step reads a byte, it has been written, before the launch
or by the run. (log 19, log 20) -/
abbrev State.InputsGiven (s : State) : Prop :=
  ∀ n x, (s.after n).stepReads.1 ≤ x → x < (s.after n).stepReads.1 + (s.after n).stepReads.2 → (s.after n).Given x

/-- Clean entry (R634): no command in flight, no error report, OVR = 0, and the BUF bytes the run reads given. -/
abbrev State.CleanEntry (s : State) : Prop :=
  s.inflight = none ∧ s.err = false ∧ s.errcode = none ∧ s.ovr = false ∧ s.InputsGiven

end Sys2Proof.Machine
end

