-- ==== Sys2Proof/Certificates/Slice0/Obligations.lean ====
section
/-! DEFINITION. The statements for the provers. Each formalises rules of spec/; OBLIGATIONS.json names them. Where a statement
names `Config.…`, it holds whatever that constant is. -/

open Sys2Proof Sys2Proof.Machine

/-! ### Encoding (30_encoding) -/

/-- The words that 30_encoding R141 lists decode to the commands it lists, and the word it refuses is refused with E_ILLEGAL. -/
def Obligations.WordsOfTheSpecDecode : Prop :=
  decode 0x0000000000000000 = .ok .nop ∧
  decode 0x0110000000000001 = .ok (.ldi 1 1) ∧
  decode 0x0220000000000001 = .ok (.ldc 2 1) ∧
  decode 0x3410000000000000 = .ok (.pldg 1) ∧
  decode 0x4021100000000000 = .ok (.mul 2 1 1) ∧
  decode 0x5002001000000000 = .ok (.ptenc 2 0x100 0) ∧
  decode 0x0430000200200000 = .ok (.ld 3 0x020 32) ∧
  decode 0x6041000000200000 = .ok (.esign 4 1 0 32 false 0) ∧
  decode 0x6104520000200000 = .ok (.everify 4 5 2 0 32 false) ∧
  decode 0x0600000000000001 = .ok (.csrr 0 1) ∧
  decode 0x7161002000200001 = .ok (.ssign 6 1 0x200 32 true) ∧
  ∀ s, executeStep 0x0010000000000000 s = .next { s.raise .illegal with inflight := none }

/-- Decoding an encoded command gives it back, for every command with every operand at every value its field holds. -/
def Obligations.DecodingAnEncodedCommandGivesItBack : Prop :=
  ∀ i : Instr, decode (encode i) = .ok i

/-- Every word that decodes is the encoding of the command it decodes to: no bit of a legal word is ignored. -/
def Obligations.EveryDecodedWordIsItsCommandsEncoding : Prop :=
  ∀ (w : Cmd) (i : Instr), decode w = .ok i → encode i = w

/-- R128: a reserved opcode byte raises E_ILLEGAL; so does every word that is no legal encoding of a listed command; the word 0
is NOP. -/
def Obligations.WordsThatEncodeNoCommandAreIllegal : Prop :=
  decode 0 = .ok .nop ∧
  (∀ (w : Cmd) (s : State),
    (∃ lo hi, (lo, hi) ∈ [(0x0A, 0x0F), (0x1A, 0x1F), (0x28, 0x2F), (0x44, 0x4F), (0x5C, 0x5F), (0x63, 0x6F), (0x73, 0xFF)] ∧
      lo ≤ (w.extractLsb' 56 8).toNat ∧ (w.extractLsb' 56 8).toNat ≤ hi) →
    executeStep w s = .next { s.raise .illegal with inflight := none }) ∧
  ∀ (w : Cmd) (s : State), (∀ i : Instr, i.WellFormed → encode i ≠ w) →
    executeStep w s = .next { s.raise .illegal with inflight := none }

/-- R125: each reserved value inside a used field raises E_ILLEGAL. -/
def Obligations.ReservedFieldValuesAreIllegal : Prop :=
  ∀ s : State,
    (∀ d k, 9 < k.toNat → exec (.ldc d k) s = .next (s.raise .illegal)) ∧
    (∀ d csr, 8 < csr.toNat → exec (.csrr d csr) s = .next (s.raise .illegal)) ∧
    (∀ a csr, 8 < csr.toNat → exec (.csrw a csr) s = .next (s.raise .illegal)) ∧
    (∀ a csr, csr.toNat ∈ [0, 2, 3, 6, 7, 8] → exec (.csrw a csr) s = .next (s.raise .illegal)) ∧
    (∀ d a cnt, cnt.toNat = 0 ∨ 16 < cnt.toNat → exec (.fbinv d a cnt) s = .next (s.raise .illegal)) ∧
    (∀ d a cnt, cnt.toNat = 0 ∨ 16 < cnt.toNat → exec (.paffb d a cnt) s = .next (s.raise .illegal)) ∧
    (∀ a addr, exec (.ptenc a addr 3) s = .next (s.raise .illegal)) ∧
    (∀ d a addr len nocanon, exec (.esign d a addr len nocanon 3) s = .next (s.raise .illegal)) ∧
    (∀ d addr len, len.toNat = 0 ∨ 32 < len.toNat → exec (.ld d addr len) s = .next (s.raise .illegal)) ∧
    (∀ a addr len, len.toNat = 0 ∨ 32 < len.toNat → exec (.st a addr len) s = .next (s.raise .illegal))

/-! ### Steps and reset (70_reset) -/

/-- R630: when a word that decodes to i is in flight and the engine has the turn (the host passes or has no move left), the step
is exec of i, after which no command is in flight. The state that `withFetchWord` makes is such a state. With no command in flight
the engine's turn changes nothing (60_exceptions R545, log 8). -/
def Obligations.StepRunsTheDecodedCommand : Prop :=
  (∀ s : State, s.host = [] → s.inflight = none → step s = .next s) ∧
  ∀ (s : State) (w : Cmd) (i : Instr) (rest : List HostOp), decode w = .ok i →
    (s.inflight = some w → (s.host = .pass :: rest ∨ s.host = [] ∧ rest = []) →
      step s = match exec i { s with host := rest } with
        | .next t => .next { t with inflight := none }
        | .fault r => .fault r
        | .refused r => .refused r) ∧
    step (s.withFetchWord 64 w.toNat) = match exec i { s with inflight := some w, done := false } with
        | .next t => .next { t with inflight := none }
        | .fault r => .fault r
        | .refused r => .refused r

/-- R600: what reset leaves. BUF is unspecified: each byte is the free value `Config.bufReset` of its address (log 1). R634: reset is a
clean entry, here of the run without a host move; what given bytes are is the model's reading (log 19). -/
def Obligations.ResetLeavesTheValuesOfTheSpec : Prop :=
  (∀ i, State.reset.getR i = 0) ∧ (∀ i, State.reset.getQ i = ⟨0, 1, 0⟩) ∧
  (∀ x, State.reset.bufByte x = Config.bufReset 0 x) ∧
  (List.range 9).map (fun n => State.reset.csrRead n State.reset.busy) = [0x256B0107, 0, 0, 0, 6, 0, 0, 0, 0] ∧
  State.reset.cache = none ∧ State.reset.inflight = none ∧ State.reset.irq = false ∧ State.reset.CleanEntry

/-- R620: a reset step sets every item to its reset value and discards the issued command; BUF is unspecified anew. The epoch, the
draws and what belongs to the host are the model's own fields (log 16). -/
def Obligations.ResetStepSetsEveryItem : Prop :=
  ∀ (s : State) (rest : List HostOp), s.host = .reset :: rest →
    step s = .next { State.reset with epoch := s.epoch + 1, draws := s.draws, host := rest, reply := s.reply } ∧
    ∀ t, step s = .next t → ∀ x, t.bufByte x = Config.bufReset (s.epoch + 1) x

/-! ### Errors and completion (60_exceptions) -/

/-- R510: with the command word w in flight, an error captures its code and w unless ERR is already 1, and sets ERR and DONE;
success sets DONE beside the command's writes. -/
def Obligations.HowACommandEnds : Prop :=
  ∀ (s t : State) (w : Cmd) (e : Err), s.inflight = some w →
    complete s (.ok t) = .next { t with done := true } ∧
    complete s (.error e) = .next { s with
      err := true
      done := true
      errcode := if s.err then s.errcode else some e
      errcmd := if s.err then s.errcmd else w }

/-- R630, R510: every command terminates in a next state with DONE = 1, in every state. -/
def Obligations.EveryCommandEndsWithDone : Prop :=
  ∀ (i : Instr) (s : State), ∃ t, exec i s = .next t ∧ t.done = true

/-- R510: errors are precise. When a command turns ERR from 0 to 1, nothing has changed but ERR, DONE, ERRCODE and ERRCMD, and the
draws it has consumed; ERRCMD is the command word. -/
def Obligations.ErrorsArePrecise : Prop :=
  ∀ (i : Instr) (s t : State) (w : Cmd), s.inflight = some w → s.err = false → exec i s = .next t → t.err = true →
    s.draws ≤ t.draws ∧
    ∃ e : Err, t = { s with err := true, done := true, errcode := some e, errcmd := w, draws := t.draws }

/-- R510, R531: while ERR = 1, every command leaves ERR, ERRCODE and ERRCMD as they are, but a CSRW of STATUS with bit 2 set, which
clears all three. -/
def Obligations.TheFirstErrorIsKept : Prop :=
  ∀ (i : Instr) (s t : State), s.err = true → exec i s = .next t →
    (t.err = true ∧ t.errcode = s.errcode ∧ t.errcmd = s.errcmd) ∨
    ((∃ a, i = .csrw a 1 ∧ (s.getR a).getLsbD 2 = true) ∧ t.err = false ∧ t.errcode = none ∧ t.errcmd = 0)

/-- R520: after every command IRQ is CTRL.IE; the issue of a command drops it; it drives the input ENGINE_IRQ and no other. -/
def Obligations.InterruptSignalsCompletion : Prop :=
  (∀ (i : Instr) (s t : State), exec i s = .next t → t.irq = t.ie) ∧
  (∀ (s : State) (w : Cmd), s.inflight = none → (s.issue w).irq = false) ∧
  ∀ (s : State) (k : Nat), s.irqInput k = true ↔ k = Config.engineIrq ∧ s.ie = true ∧ s.done = true

/-- The frame of every command: it changes only what its footprint (Safety.lean) names, DONE and the error report. -/
def Obligations.CommandsWriteOnlyTheirFootprint : Prop :=
  ∀ (i : Instr) (s t : State), exec i s = .next t → WritesOnly (footprint s i) s t

/-! ### Move, memory, CSR and compare commands (40_move_control) -/

/-- R201, R202, R204, R209, R210: NOP, LDI, MOV, RCMP and RODD, and every NOP word with another bit set is illegal. -/
def Obligations.MovesAndCompares : Prop :=
  (encode .nop = word 0x00 {} ∧ ∀ s, exec .nop s = .next { s with done := true }) ∧
  (∀ (w : Cmd) (s : State), w.extractLsb' 56 8 = 0x00 → w ≠ 0 →
    executeStep w s = .next { s.raise .illegal with inflight := none }) ∧
  (∀ d imm16 s, encode (.ldi d imm16) = word 0x01 { d := d, imm := imm16 } ∧
    exec (.ldi d imm16) s = .next { s with r := s.r.set d (BitVec.ofNat 256 imm16.toNat), done := true }) ∧
  (∀ d a s, encode (.mov d a) = word 0x03 { d := d, a := a } ∧
    exec (.mov d a) s = .next { s with r := s.r.set d (s.getR a), done := true }) ∧
  (∀ a b s, encode (.rcmp a b) = word 0x08 { a := a, b := b } ∧
    exec (.rcmp a b) s = .next { s with res := decide (s.getR a = s.getR b), done := true }) ∧
  (∀ a s, encode (.rodd a) = word 0x09 { a := a } ∧
    exec (.rodd a) s = .next { s with res := decide ((s.getR a).toNat % 2 = 1), done := true })

/-- R203, R48: LDC loads the constant of its index, and an index above 9 is illegal. -/
def Obligations.LdcLoadsTheConstant : Prop :=
  ∀ (d : RegIdx) (k : BitVec 16) (s : State),
    encode (.ldc d k) = word 0x02 { d := d, imm := k } ∧
    (9 < k.toNat → exec (.ldc d k) s = .next (s.raise .illegal)) ∧
    ∀ v : Nat, (k.toNat, v) ∈
      [(0, 2 ^ 256 - 2 ^ 32 - 977),
        (1, 0xFFFFFFFFFFFFFFFFFFFFFFFFFFFFFFFEBAAEDCE6AF48A03BBFD25E8CD0364141),
        (2, 0x79BE667EF9DCBBAC55A06295CE870B07029BFCDB2DCE28D959F2815B16F81798),
        (3, 0x483ADA7726A3C4655DA4FBFC0E1108A8FD17B448A68554199C47D08FFB10D4B8),
        (4, 0x7AE96A2B657C07106E64479EAC3434E99CF0497512F58995C1396C28719501EE),
        (5, 0x5363AD4CC05C30E0A5261C028812645A122E22EA20816678DF02967C1B23BD72),
        (6, 0xFFFFFFFFFFFFFFFFFFFFFFFFFFFFFFFEBAAEDCE6AF48A03BBFD25E8CD0364141 / 2), (7, 7), (8, 0), (9, 1)] →
      exec (.ldc d k) s = .next { s with r := s.r.set d (BitVec.ofNat 256 v), done := true }

/-- R205: LD loads LEN bytes, the byte at the lowest address most significant; a length outside 1..32 is illegal, a region past
byte 4095 is E_BUFRANGE. -/
def Obligations.LdLoadsBigEndian : Prop :=
  ∀ (d : RegIdx) (addr len : BitVec 12) (s : State),
    encode (.ld d addr len) = word 0x04 { d := d, addr := addr, len := len } ∧
    (len.toNat = 0 ∨ 32 < len.toNat → exec (.ld d addr len) s = .next (s.raise .illegal)) ∧
    (1 ≤ len.toNat → len.toNat ≤ 32 → 4096 < addr.toNat + len.toNat →
      exec (.ld d addr len) s = .next (s.raise .bufRange)) ∧
    (1 ≤ len.toNat → len.toNat ≤ 32 → addr.toNat + len.toNat ≤ 4096 →
      ∃ v : Word, exec (.ld d addr len) s = .next { s with r := s.r.set d v, done := true } ∧
        v.toNat < 256 ^ len.toNat ∧ s.HoldsBytes addr.toNat len.toNat v.toNat)

/-- R206: ST writes be_LEN of the register and no other byte; a value that does not fit is E_ENCODING, after the checks of the
length and of the region. -/
def Obligations.StStoresBigEndian : Prop :=
  ∀ (a : RegIdx) (addr len : BitVec 12) (s : State),
    encode (.st a addr len) = word 0x05 { a := a, addr := addr, len := len } ∧
    (len.toNat = 0 ∨ 32 < len.toNat → exec (.st a addr len) s = .next (s.raise .illegal)) ∧
    (1 ≤ len.toNat → len.toNat ≤ 32 → 4096 < addr.toNat + len.toNat →
      exec (.st a addr len) s = .next (s.raise .bufRange)) ∧
    (1 ≤ len.toNat → len.toNat ≤ 32 → addr.toNat + len.toNat ≤ 4096 → 2 ^ (8 * len.toNat) ≤ (s.getR a).toNat →
      exec (.st a addr len) s = .next (s.raise .encoding)) ∧
    (1 ≤ len.toNat → len.toNat ≤ 32 → addr.toNat + len.toNat ≤ 4096 → (s.getR a).toNat < 2 ^ (8 * len.toNat) →
      ∃ t, exec (.st a addr len) s = .next t ∧ t = { s with buf := t.buf, done := true } ∧
        t.HoldsBytes addr.toNat len.toNat (s.getR a).toNat ∧ s.SameOutside t addr.toNat len.toNat)

/-- 20_memory R83: an LD sees exactly the bytes that an ST of another width wrote: the k bytes at a later address inside the
n bytes stored. -/
def Obligations.LoadsSeePartsOfAStore : Prop :=
  ∀ (a d : RegIdx) (addr n addr' k : BitVec 12) (s : State),
    1 ≤ n.toNat → n.toNat ≤ 32 → addr.toNat + n.toNat ≤ 4096 → (s.getR a).toNat < 2 ^ (8 * n.toNat) →
    1 ≤ k.toNat → addr.toNat ≤ addr'.toNat → addr'.toNat + k.toNat ≤ addr.toNat + n.toNat →
    ∃ t, exec (.st a addr n) s = .next t ∧
      exec (.ld d addr' k) t = .next { t with
        r := t.r.set d (BitVec.ofNat 256
          ((s.getR a).toNat / 256 ^ (addr.toNat + n.toNat - (addr'.toNat + k.toNat)) % 256 ^ k.toNat)) }

/-- R207 with 10_state R41 to R50: the value CSRR reads of every CSR, STATUS with BUSY = 1; and R501's codes. -/
def Obligations.CsrrReadsTheRegister : Prop :=
  (∀ (d : RegIdx) (s : State),
    exec (.csrr d 0) s = .next { s with r := s.r.set d 0x256B0107, done := true } ∧
    exec (.csrr d 1) s = .next { s with
      r := s.r.set d (BitVec.ofNat 256 (1 + 2 * s.done.toNat + 4 * s.err.toNat + 8 * s.res.toNat + 16 * s.ovr.toNat))
      done := true } ∧
    exec (.csrr d 2) s = .next { s with r := s.r.set d (BitVec.ofNat 256 (errorCode s.errcode).toNat), done := true } ∧
    exec (.csrr d 3) s = .next { s with r := s.r.set d (BitVec.ofNat 256 s.errcmd.toNat), done := true } ∧
    exec (.csrr d 4) s = .next { s with
      r := s.r.set d (BitVec.ofNat 256 (s.ie.toNat + 2 * s.wlog2.toNat)), done := true } ∧
    exec (.csrr d 5) s = .next { s with r := s.r.set d (BitVec.ofNat 256 s.recid.toNat), done := true } ∧
    exec (.csrr d 6) s = .next { s with r := s.r.set d (BitVec.ofNat 256 s.olen.toNat), done := true } ∧
    exec (.csrr d 7) s = .next { s with r := s.r.set d (BitVec.ofNat 256 s.drbgcnt.toNat), done := true } ∧
    exec (.csrr d 8) s = .next { s with
      r := s.r.set d (BitVec.ofNat 256 (match s.cache with | none => 0 | some c => 1 + 2 * c.twlog2.toNat)), done := true }) ∧
  (∀ (d : RegIdx) (csr : BitVec 16) (s : State),
    encode (.csrr d csr) = word 0x06 { d := d, imm := csr } ∧
    (8 < csr.toNat → exec (.csrr d csr) s = .next (s.raise .illegal))) ∧
  [none, some .illegal, some .bufRange, some .encoding, some .range, some .point, some .recId, some .noInv, some .drbg,
    some .selfCheck, some .nonce0, some .endo].map (fun e => (errorCode e).toNat) = List.range 12

/-- R208: CSRW of STATUS, CTRL and RECID from the bits of rA; every other number is illegal. -/
def Obligations.CsrwWritesTheRegister : Prop :=
  ∀ (a : RegIdx) (csr : BitVec 16) (s : State),
    encode (.csrw a csr) = word 0x07 { a := a, imm := csr } ∧
    (csr = 1 → exec (.csrw a csr) s = .next { s with
      done := true
      err := s.err && !(s.getR a).getLsbD 2
      errcode := if (s.getR a).getLsbD 2 then none else s.errcode
      errcmd := if (s.getR a).getLsbD 2 then 0 else s.errcmd
      ovr := s.ovr && !(s.getR a).getLsbD 4
      res := (s.getR a).getLsbD 3 }) ∧
    (csr = 4 → exec (.csrw a csr) s = .next { s with
      ie := (s.getR a).getLsbD 0
      wlog2 := (s.getR a).extractLsb' 1 2
      cache := if (s.getR a).extractLsb' 1 2 = s.wlog2 then s.cache else none
      done := true }) ∧
    (csr = 5 → exec (.csrw a csr) s = .next { s with recid := (s.getR a).extractLsb' 0 2, done := true }) ∧
    (csr ≠ 1 → csr ≠ 4 → csr ≠ 5 → exec (.csrw a csr) s = .next (s.raise .illegal))

/-! ### Field arithmetic (41_field) -/

/-- R230 to R236, R241, 42_curve R295: FADD, FSUB, FMUL, FSQR, FNEG, FRED and PWEI write the representative in [0, P) of the sum,
difference, product, square, negative, value and x^3 + 7, and only rD. -/
def Obligations.FieldArithmeticModP : Prop :=
  ∀ (d a b : RegIdx) (s : State),
    let x : Int := (s.getR a).toNat
    let y : Int := (s.getR b).toNat
    let writes : Int → Host.Outcome State Fault Refusal :=
      fun v => .next { s with r := s.r.set d (BitVec.ofInt 256 (v % P)), done := true }
    (encode (.fadd d a b) = word 0x10 { d := d, a := a, b := b } ∧ encode (.fsub d a b) = word 0x11 { d := d, a := a, b := b } ∧
      encode (.fmul d a b) = word 0x12 { d := d, a := a, b := b } ∧ encode (.fsqr d a) = word 0x13 { d := d, a := a } ∧
      encode (.fneg d a) = word 0x14 { d := d, a := a } ∧ encode (.fred d a) = word 0x19 { d := d, a := a } ∧
      encode (.pwei d a) = word 0x3F { d := d, a := a }) ∧
    exec (.fadd d a b) s = writes (x + y) ∧ exec (.fsub d a b) s = writes (x - y) ∧
    exec (.fmul d a b) s = writes (x * y) ∧ exec (.fsqr d a) s = writes (x ^ 2) ∧
    exec (.fneg d a) s = writes (0 - x) ∧ exec (.fred d a) s = writes x ∧
    exec (.pwei d a) s = writes (x ^ 3 + 7)

/-- R237: FPOW raises the reduced base to the raw 256-bit exponent; x^0 = 1 for every x. -/
def Obligations.FpowRaisesToTheRawExponent : Prop :=
  ∀ (d a b : RegIdx) (s : State),
    encode (.fpow d a b) = word 0x15 { d := d, a := a, b := b } ∧
    ∃ v : Word, exec (.fpow d a b) s = .next { s with r := s.r.set d v, done := true } ∧
      v.toNat = (s.getR a).toNat ^ (s.getR b).toNat % P

/-- R238, R325: FINV and NINV write the inverse in [1, m) of a value coprime to the modulus m, which is P or n, and raise E_NOINV
for every other value, 0 mod m among them. -/
def Obligations.InversesModPAndN : Prop :=
  ∀ (d a : RegIdx) (s : State),
    (encode (.finv d a) = word 0x16 { d := d, a := a } ∧ encode (.ninv d a) = word 0x24 { d := d, a := a }) ∧
    (Nat.gcd ((s.getR a).toNat % P) P = 1 →
      ∃ v : Word, exec (.finv d a) s = .next { s with r := s.r.set d v, done := true } ∧
        1 ≤ v.toNat ∧ v.toNat < P ∧ (s.getR a).toNat * v.toNat % P = 1) ∧
    (Nat.gcd ((s.getR a).toNat % P) P ≠ 1 → exec (.finv d a) s = .next (s.raise .noInv)) ∧
    ((s.getR a).toNat % P = 0 → exec (.finv d a) s = .next (s.raise .noInv)) ∧
    (Nat.gcd ((s.getR a).toNat % N) N = 1 →
      ∃ v : Word, exec (.ninv d a) s = .next { s with r := s.r.set d v, done := true } ∧
        1 ≤ v.toNat ∧ v.toNat < N ∧ (s.getR a).toNat * v.toNat % N = 1) ∧
    (Nat.gcd ((s.getR a).toNat % N) N ≠ 1 → exec (.ninv d a) s = .next (s.raise .noInv)) ∧
    ((s.getR a).toNat % N = 0 → exec (.ninv d a) s = .next (s.raise .noInv))

/-- R239: FSQRT writes a^((P+1)/4) mod P, and RES says whether it is a root. -/
def Obligations.FsqrtWritesTheRootAndRes : Prop :=
  ∀ (d a : RegIdx) (s : State),
    encode (.fsqrt d a) = word 0x17 { d := d, a := a } ∧
    ∃ v : Word, v.toNat = (s.getR a).toNat ^ ((P + 1) / 4) % P ∧
      exec (.fsqrt d a) s = .next { s with
        r := s.r.set d v
        res := decide (v.toNat * v.toNat % P = (s.getR a).toNat % P)
        done := true }

/-- R240: FBINV reads its cnt sources first and writes to D, D+1, ... mod 16 the inverse of each nonzero element, and 0 for a zero
one. No element but 0 fails to be coprime to P; the statement asks for that instead of the primality of P. -/
def Obligations.FbinvInvertsEachElement : Prop :=
  ∀ (d a : RegIdx) (cnt : BitVec 5) (s : State),
    encode (.fbinv d a cnt) = word 0x18 { d := d, a := a, imm := cnt.setWidth 16 } ∧
    (cnt.toNat = 0 ∨ 16 < cnt.toNat → exec (.fbinv d a cnt) s = .next (s.raise .illegal)) ∧
    (1 ≤ cnt.toNat → cnt.toNat ≤ 16 →
      ∃ t, exec (.fbinv d a cnt) s = .next t ∧ t = { s with r := t.r, done := true } ∧
        (∀ j, j ∉ indices d cnt.toNat → t.getR j = s.getR j) ∧
        ((∀ m < cnt.toNat, (s.getR (a + Fin.ofNat 16 m)).toNat % P = 0 ∨
            Nat.gcd ((s.getR (a + Fin.ofNat 16 m)).toNat % P) P = 1) →
          ∀ m < cnt.toNat,
            ((s.getR (a + Fin.ofNat 16 m)).toNat % P = 0 → t.getR (d + Fin.ofNat 16 m) = 0) ∧
            ((s.getR (a + Fin.ofNat 16 m)).toNat % P ≠ 0 →
              (t.getR (d + Fin.ofNat 16 m)).toNat < P ∧
              (s.getR (a + Fin.ofNat 16 m)).toNat * (t.getR (d + Fin.ofNat 16 m)).toNat % P = 1)))

/-! ### Scalars (43_scalar) -/

/-- R320 to R324, R326: NADD, NSUB, NMUL, NNEG and NRED write the representative in [0, n), and only rD. -/
def Obligations.ScalarArithmeticModN : Prop :=
  ∀ (d a b : RegIdx) (s : State),
    let x : Int := (s.getR a).toNat
    let y : Int := (s.getR b).toNat
    let writes : Int → Host.Outcome State Fault Refusal :=
      fun v => .next { s with r := s.r.set d (BitVec.ofInt 256 (v % N)), done := true }
    (encode (.nadd d a b) = word 0x20 { d := d, a := a, b := b } ∧ encode (.nsub d a b) = word 0x21 { d := d, a := a, b := b } ∧
      encode (.nmul d a b) = word 0x22 { d := d, a := a, b := b } ∧ encode (.nneg d a) = word 0x23 { d := d, a := a } ∧
      encode (.nred d a) = word 0x25 { d := d, a := a }) ∧
    exec (.nadd d a b) s = writes (x + y) ∧ exec (.nsub d a b) s = writes (x - y) ∧
    exec (.nmul d a b) s = writes (x * y) ∧ exec (.nneg d a) s = writes (0 - x) ∧ exec (.nred d a) s = writes x

/-- R327, 44_codec R382, R383: NCHK, SHIGHS and SNORM of a scalar in (0, n), and E_RANGE for every other value. After SNORM the
value is at most HALF_N. -/
def Obligations.ScalarChecksAndLowS : Prop :=
  ∀ (d a : RegIdx) (flip : Bool) (s : State),
    (encode (.nchk a) = word 0x26 { a := a } ∧ encode (.shighs a) = word 0x5A { a := a } ∧
      encode (.snorm d a flip) = word 0x5B { d := d, a := a, imm := if flip then 1 else 0 }) ∧
    ((s.getR a).toNat = 0 ∨ N ≤ (s.getR a).toNat →
      exec (.nchk a) s = .next (s.raise .range) ∧ exec (.shighs a) s = .next (s.raise .range) ∧
      exec (.snorm d a flip) s = .next (s.raise .range)) ∧
    (0 < (s.getR a).toNat → (s.getR a).toNat < N →
      exec (.nchk a) s = .next { s with done := true } ∧
      exec (.shighs a) s = .next { s with res := decide (N / 2 < (s.getR a).toNat), done := true } ∧
      ((s.getR a).toNat ≤ N / 2 →
        exec (.snorm d a flip) s = .next { s with r := s.r.set d (s.getR a), res := false, done := true }) ∧
      (N / 2 < (s.getR a).toNat →
        N - (s.getR a).toNat ≤ N / 2 ∧
        exec (.snorm d a flip) s = .next { s with
          r := s.r.set d (BitVec.ofNat 256 (N - (s.getR a).toNat))
          res := true
          recid := if flip then s.recid ^^^ 1 else s.recid
          done := true }))

/-- R328, R329: NSPLIT of every scalar in (0, n) gives halves below 2^128 with k = s1·k1 + s2·k2·lambda mod n: E_ENDO, which the
spec believes unreachable, is unreachable. -/
def Obligations.NsplitGivesShortHalves : Prop :=
  ∀ (d a : RegIdx) (s : State),
    ((s.getR a).toNat = 0 ∨ N ≤ (s.getR a).toNat → exec (.nsplit d a) s = .next (s.raise .range)) ∧
    (0 < (s.getR a).toNat → (s.getR a).toNat < N →
      ∃ (k1neg k2neg : Bool) (k1 k2 : Nat), k1 < 2 ^ 128 ∧ k2 < 2 ^ 128 ∧
        (N : Int) ∣ (if k1neg then -(k1 : Int) else k1) + (if k2neg then -(k2 : Int) else k2) * lambda.toNat
          - (s.getR a).toNat ∧
        split (s.getR a).toNat = .ok ⟨k1neg, k1, k2neg, k2⟩ ∧
        exec (.nsplit d a) s = .next { s with
          r := ((s.r.set d (BitVec.ofNat 256 k1)).set (d + 1 : RegIdx) (BitVec.ofNat 256 k2)).set (d + 2 : RegIdx)
            (BitVec.ofNat 256 (k1neg.toNat + 2 * k2neg.toNat))
          done := true })

/-! ### Points (42_curve) -/

/-- R280, R281, R283 to R287: PSET, PSETJ, PGETJ, PLDG, PZERO, PMOV and PNEG. -/
def Obligations.PointMoves : Prop :=
  ∀ (d a : PtIdx) (rd x y z : RegIdx) (s : State),
    (P ≤ (s.getR x).toNat ∨ P ≤ (s.getR y).toNat → exec (.pset d x y) s = .next (s.raise .point)) ∧
    ((s.getR x).toNat < P → (s.getR y).toNat < P →
      exec (.pset d x y) s = .next { s with
        q := s.q.set d (if s.getR x = 0 ∧ s.getR y = 0 then ⟨0, 1, 0⟩ else ⟨s.getR x, s.getR y, 1⟩)
        done := true }) ∧
    (P ≤ (s.getR x).toNat ∨ P ≤ (s.getR y).toNat ∨ P ≤ (s.getR z).toNat →
      exec (.psetj d x y z) s = .next (s.raise .point)) ∧
    ((s.getR x).toNat < P → (s.getR y).toNat < P → (s.getR z).toNat < P →
      exec (.psetj d x y z) s = .next { s with q := s.q.set d ⟨s.getR x, s.getR y, s.getR z⟩, done := true }) ∧
    exec (.pgetj rd a) s = .next { s with
      r := ((s.r.set rd (s.getQ a).x).set (rd + 1 : RegIdx) (s.getQ a).y).set (rd + 2 : RegIdx) (s.getQ a).z
      done := true } ∧
    exec (.pldg d) s = .next { s with
      q := s.q.set d ⟨0x79BE667EF9DCBBAC55A06295CE870B07029BFCDB2DCE28D959F2815B16F81798,
        0x483ADA7726A3C4655DA4FBFC0E1108A8FD17B448A68554199C47D08FFB10D4B8, 1⟩
      done := true } ∧
    exec (.pzero d) s = .next { s with q := s.q.set d ⟨0, 1, 0⟩, done := true } ∧
    exec (.pmov d a) s = .next { s with q := s.q.set d (s.getQ a), done := true } ∧
    exec (.pneg d a) s = .next { s with
      q := s.q.set d ⟨(s.getQ a).x, BitVec.ofInt 256 (((P : Int) - (s.getQ a).y.toNat) % P), (s.getQ a).z⟩
      done := true }

/-- R274, R282: PGET writes the affine coordinates: (0, 0) of the identity, else the x and y in [0, P) with x·Z^2 = X and
y·Z^3 = Y mod P. Every Z in (0, P) is coprime to P; the statement asks for that instead of the primality of P. -/
def Obligations.PgetWritesTheAffineCoordinates : Prop :=
  ∀ (d : RegIdx) (a : PtIdx) (s : State), ∃ x y : Word,
    exec (.pget d a) s = .next { s with r := (s.r.set d x).set (d + 1 : RegIdx) y, done := true } ∧
    aff (s.getQ a) = ⟨x, y⟩ ∧
    ((s.getQ a).z = 0 → x = 0 ∧ y = 0) ∧
    (Nat.gcd ((s.getQ a).z.toNat % P) P = 1 →
      x.toNat < P ∧ y.toNat < P ∧
      x.toNat * (s.getQ a).z.toNat ^ 2 % P = (s.getQ a).x.toNat % P ∧
      y.toNat * (s.getQ a).z.toNat ^ 3 % P = (s.getQ a).y.toNat % P)

/-- R271, R288: PDBL writes the triple of the doubling formula, with canonical coordinates, for every triple. -/
def Obligations.PdblWritesTheDoublingFormula : Prop :=
  ∀ (d a : PtIdx) (s : State), ∃ p : Point,
    exec (.pdbl d a) s = .next { s with q := s.q.set d p, done := true } ∧ p.Canonical ∧
    let x1 : ZMod P := (s.getQ a).x.toNat
    let y1 : ZMod P := (s.getQ a).y.toNat
    let z1 : ZMod P := (s.getQ a).z.toNat
    let cA := x1 ^ 2
    let cB := y1 ^ 2
    let cC := cB ^ 2
    let cD := 2 * ((x1 + cB) ^ 2 - cA - cC)
    let cE := 3 * cA
    let x3 := cE ^ 2 - 2 * cD
    (p.x.toNat : ZMod P) = x3 ∧ (p.y.toNat : ZMod P) = cE * (cD - x3) - 8 * cC ∧ (p.z.toNat : ZMod P) = 2 * y1 * z1

/-- R272, R289: PADD: an identity operand gives the other operand as it is; equal points double; opposite points give ZERO_J; else
the triple of the addition formula, with canonical coordinates. -/
def Obligations.PaddWritesTheAdditionFormula : Prop :=
  ∀ (d a b : PtIdx) (s : State), ∃ p : Point,
    exec (.padd d a b) s = .next { s with q := s.q.set d p, done := true } ∧
    ((s.getQ a).z = 0 → p = s.getQ b) ∧
    ((s.getQ a).z ≠ 0 → (s.getQ b).z = 0 → p = s.getQ a) ∧
    ((s.getQ a).z ≠ 0 → (s.getQ b).z ≠ 0 →
      let x1 : ZMod P := (s.getQ a).x.toNat
      let y1 : ZMod P := (s.getQ a).y.toNat
      let z1 : ZMod P := (s.getQ a).z.toNat
      let x2 : ZMod P := (s.getQ b).x.toNat
      let y2 : ZMod P := (s.getQ b).y.toNat
      let z2 : ZMod P := (s.getQ b).z.toNat
      let u1 := x1 * z2 ^ 2
      let s1 := y1 * z2 ^ 3
      let h := x2 * z1 ^ 2 - u1
      let r := y2 * z1 ^ 3 - s1
      let x3 := r ^ 2 - h ^ 3 - 2 * (u1 * h ^ 2)
      (h = 0 → r = 0 → p = dbl (s.getQ a)) ∧
      (h = 0 → r ≠ 0 → p = ⟨0, 1, 0⟩) ∧
      (h ≠ 0 → p.Canonical ∧ (p.x.toNat : ZMod P) = x3 ∧
        (p.y.toNat : ZMod P) = r * (u1 * h ^ 2 - x3) - s1 * h ^ 3 ∧ (p.z.toNat : ZMod P) = z1 * z2 * h))

/-- R273, R275, R290, R291: PEQ compares by cross-multiplication mod P; PCHK succeeds exactly when the affine point has 0 < x, y < P
and y^2 = x^3 + 7 mod P, and raises E_POINT otherwise. -/
def Obligations.PointPredicates : Prop :=
  ∀ (a b : PtIdx) (s : State),
    (encode (.peq a b) = word 0x3A { a := a, b := b } ∧ encode (.pchk a) = word 0x3B { a := a }) ∧
    exec (.peq a b) s = .next { s with
      res := decide (
        (s.getQ a).x.toNat * (s.getQ b).z.toNat ^ 2 % P = (s.getQ b).x.toNat * (s.getQ a).z.toNat ^ 2 % P ∧
        (s.getQ a).y.toNat * (s.getQ b).z.toNat ^ 3 % P = (s.getQ b).y.toNat * (s.getQ a).z.toNat ^ 3 % P)
      done := true } ∧
    exec (.pchk a) s = .next (
      if 0 < (aff (s.getQ a)).x.toNat ∧ (aff (s.getQ a)).x.toNat < P ∧
          0 < (aff (s.getQ a)).y.toNat ∧ (aff (s.getQ a)).y.toNat < P ∧
          (aff (s.getQ a)).y.toNat ^ 2 % P = ((aff (s.getQ a)).x.toNat ^ 3 + 7) % P then
        { s with done := true }
      else s.raise .point)

/-- R270, R292, R293: PAFF writes (x, y, 1), or ZERO_J for the affine value (0, 0); PAFFB writes what PAFF would for each of its cnt
sources, all read first. Every Z in (0, P) is coprime to P; the statement asks for that instead of the primality of P. -/
def Obligations.NormalisationOneByOneAndInBatches : Prop :=
  (∀ (d a : PtIdx) (s : State),
    exec (.paff d a) s = .next { s with
      q := s.q.set d (if aff (s.getQ a) = ⟨0, 0⟩ then ⟨0, 1, 0⟩ else ⟨(aff (s.getQ a)).x, (aff (s.getQ a)).y, 1⟩)
      done := true }) ∧
  ∀ (d a : PtIdx) (cnt : BitVec 5) (s : State),
    (cnt.toNat = 0 ∨ 16 < cnt.toNat → exec (.paffb d a cnt) s = .next (s.raise .illegal)) ∧
    (1 ≤ cnt.toNat → cnt.toNat ≤ 16 →
      ∃ t, exec (.paffb d a cnt) s = .next t ∧ t = { s with q := t.q, done := true } ∧
        (∀ j, j ∉ indices d cnt.toNat → t.getQ j = s.getQ j) ∧
        ((∀ m < cnt.toNat, (s.getQ (a + Fin.ofNat 16 m)).z = 0 ∨
            Nat.gcd ((s.getQ (a + Fin.ofNat 16 m)).z.toNat % P) P = 1) →
          ∀ m < cnt.toNat, exec (.paff (d + Fin.ofNat 16 m) (a + Fin.ofNat 16 m)) s = .next { s with
            q := s.q.set (d + Fin.ofNat 16 m : PtIdx) (t.getQ (d + Fin.ofNat 16 m)), done := true }))

/-- R277, R294: PENDO multiplies X by beta mod P, and three applications give a canonical triple back. -/
def Obligations.PendoHasOrderThree : Prop :=
  ∀ (d a : PtIdx) (s : State),
    encode (.pendo d a) = word 0x3E { d := d, a := a } ∧
    exec (.pendo d a) s = .next { s with
      q := s.q.set d ⟨BitVec.ofNat 256 (beta.toNat * (s.getQ a).x.toNat % P), (s.getQ a).y, (s.getQ a).z⟩
      done := true } ∧
    ((s.getQ a).x.toNat < P →
      ∃ t u, exec (.pendo d a) s = .next t ∧ exec (.pendo d d) t = .next u ∧
        exec (.pendo d d) u = .next { s with q := s.q.set d (s.getQ a), done := true })

/-! ### Scalar multiplication (43_scalar) -/

/-- R331 to R334: MUL and MULU raise E_RANGE for a scalar outside (0, n). Else, of a valid or identity point, MUL writes the normalised
sum of the two windowed products of the GLV split, with the cached table when R332 finds one and else with a transient table of window
1, and MULU the normalised value of R334's loop; of any other triple, some normalised canonical triple (93 I5: any value; log 4). The
windowed product of R331 adds one table entry for each nonzero digit; the digits lie in their range and weighted by their windows sum
to k, so no carry is left. `f` is R334's loop: it is determined by the two equations. -/
def Obligations.MultiplicationsCompleteNormalised : Prop :=
  (∀ (d a : PtIdx) (b : RegIdx) (s : State) (f : Nat → Point → Point → Point),
    (∀ dd acc, f 0 dd acc = acc) →
    (∀ k dd acc, 0 < k → f k dd acc = f (k / 2) (dbl dd) (if k % 2 = 1 then add acc dd else acc)) →
    ((s.getR b).toNat = 0 ∨ N ≤ (s.getR b).toNat →
      exec (.mul d a b) s = .next (s.raise .range) ∧ exec (.mulu d a b) s = .next (s.raise .range)) ∧
    (0 < (s.getR b).toNat → (s.getR b).toNat < N →
      (((s.getQ a).z = 0 ∨ valid (aff (s.getQ a)) = true) →
        (∃ k : Split, split (s.getR b).toNat = .ok k ∧
          ∀ (tab : List Point) (W : Nat),
            (∀ c, s.cache = some c → (s.getQ a).z ≠ 0 → aff (s.getQ a) = c.cpoint → tab = c.ctable ∧ W = 2 ^ c.twlog2.toNat) →
            ((∀ c, s.cache = some c → (s.getQ a).z = 0 ∨ aff (s.getQ a) ≠ c.cpoint) → tab = precompute (s.getQ a) 1 ∧ W = 1) →
            let p1 := (wnaf k.k1 tab W).1
            let p2 := (wnaf k.k2 tab W).1
            exec (.mul d a b) s = .next { s with
              q := s.q.set d (norm (add (if k.k1neg then neg p1 else p1) (endo (if k.k2neg then neg p2 else p2))))
              done := true }) ∧
        exec (.mulu d a b) s = .next { s with
          q := s.q.set d (norm (f (s.getR b).toNat (s.getQ a) ⟨0, 1, 0⟩)), done := true }) ∧
      (∃ t, exec (.mul d a b) s = .next t ∧ t = { s with q := s.q.set d (t.getQ d), draws := t.draws, done := true } ∧
        (t.getQ d).Canonical ∧ ((t.getQ d).z = 1 ∨ t.getQ d = ⟨0, 1, 0⟩)) ∧
      (∃ t, exec (.mulu d a b) s = .next t ∧ t = { s with q := s.q.set d (t.getQ d), draws := t.draws, done := true } ∧
        (t.getQ d).Canonical ∧ ((t.getQ d).z = 1 ∨ t.getQ d = ⟨0, 1, 0⟩)))) ∧
  ∀ (k W half : Nat) (tab : List Point), W ∈ [1, 2, 4, 8] → half = 2 ^ (W - 1) → k < 2 ^ 128 →
    ∃ (digit : Nat → Int) (p : Nat → Point),
      (∀ w ≤ 128 / W, 1 - (half : Int) ≤ digit w ∧ digit w ≤ half) ∧
      (Finset.range (128 / W + 1)).sum (fun w => digit w * 2 ^ (w * W)) = (k : Int) ∧
      p 0 = ⟨0, 1, 0⟩ ∧
      (∀ w ≤ 128 / W,
        let entry := tab.getD (w * half + (digit w).natAbs - 1) zeroJ
        p (w + 1) = if digit w = 0 then p w else add (p w) (if digit w < 0 then neg entry else entry)) ∧
      (wnaf k tab W).1 = p (128 / W + 1)

/-- R333, R334: a multiple of the identity is ZERO_J; 1·T is norm(T), of MUL without a cached table or with any table that the
invariant of R53 allows, and of MULU. R338: smul is ZERO_J for a scalar that is 0 mod n and for the identity, and else what MULU
writes (log 5). -/
def Obligations.MultiplesOfIdentityAndByOne : Prop :=
  ∀ (d a : PtIdx) (b : RegIdx) (s : State),
    (0 < (s.getR b).toNat → (s.getR b).toNat < N → (s.getQ a).z = 0 →
      exec (.mul d a b) s = .next { s with q := s.q.set d ⟨0, 1, 0⟩, done := true } ∧
      exec (.mulu d a b) s = .next { s with q := s.q.set d ⟨0, 1, 0⟩, done := true }) ∧
    (s.getR b = 1 → valid (aff (s.getQ a)) = true →
      (s.cache = none → exec (.mul d a b) s = .next { s with q := s.q.set d (norm (s.getQ a)), done := true }) ∧
      (s.CacheConsistent → exec (.mul d a b) s = .next { s with q := s.q.set d (norm (s.getQ a)), done := true }) ∧
      exec (.mulu d a b) s = .next { s with q := s.q.set d (norm (s.getQ a)), done := true }) ∧
    ∀ k : Nat,
      (k % N = 0 ∨ (s.getQ a).z = 0 → smul (s.getQ a) k = ⟨0, 1, 0⟩) ∧
      (0 < (s.getR b).toNat → k % N = (s.getR b).toNat → valid (aff (s.getQ a)) = true →
        exec (.mulu d a b) s = .next { s with q := s.q.set d (smul (s.getQ a) k), done := true })

/-- R330, R335, R336: PRECOMP of a valid point replaces the slot with the table of (128/W + 1)·2^(W-1) normalised multiples, W =
2^WLOG2, in which each window starts with twice the last multiple of the window before it and adds its first multiple; of any
other point it raises E_POINT. CINV empties the slot. -/
def Obligations.PrecompBuildsTheTable : Prop :=
  (∀ s, exec .cinv s = .next { s with cache := none, done := true }) ∧
  (∀ (a : PtIdx) (s : State),
    (valid (aff (s.getQ a)) = false → exec (.precomp a) s = .next (s.raise .point)) ∧
    (valid (aff (s.getQ a)) = true → ∃ tab : List Point,
      exec (.precomp a) s = .next { s with cache := some ⟨s.wlog2, aff (s.getQ a), tab⟩, done := true } ∧
      tab = (precompute (fromAff (aff (s.getQ a))) (2 ^ s.wlog2.toNat)).map norm ∧
      tab.length = (128 / 2 ^ s.wlog2.toNat + 1) * 2 ^ (2 ^ s.wlog2.toNat - 1) ∧
      ∀ p ∈ tab, p.Canonical ∧ (p.z = 1 ∨ p = ⟨0, 1, 0⟩))) ∧
  ∀ (T : Point) (W half : Nat), W ∈ [1, 2, 4, 8] → half = 2 ^ (W - 1) →
    let e := fun i => (precompute T W).getD i zeroJ
    e 0 = T ∧
    (∀ w ≤ 128 / W, ∀ j, j + 1 < half → e (w * half + j + 1) = add (e (w * half + j)) (e (w * half))) ∧
    (∀ w < 128 / W, e ((w + 1) * half) = dbl (e (w * half + half - 1)))

/-! ### Codecs (44_codec) -/

/-- R372: PTENC writes the 33, 65 or 32 bytes of the key's format, OLEN, and no other byte; an invalid point is E_POINT before the
output region is checked. -/
def Obligations.PtencWritesTheKeyBytes : Prop :=
  ∀ (a : PtIdx) (addr : BitVec 12) (fmt : BitVec 2) (n : Nat) (s : State), (fmt.toNat, n) ∈ [(0, 33), (1, 65), (2, 32)] →
    encode (.ptenc a addr fmt) = word 0x50 { a := a, addr := addr, imm := fmt.setWidth 16 } ∧
    (valid (aff (s.getQ a)) = false → exec (.ptenc a addr fmt) s = .next (s.raise .point)) ∧
    (valid (aff (s.getQ a)) = true → 4096 < addr.toNat + n → exec (.ptenc a addr fmt) s = .next (s.raise .bufRange)) ∧
    (valid (aff (s.getQ a)) = true → addr.toNat + n ≤ 4096 →
      ∃ t, exec (.ptenc a addr fmt) s = .next t ∧
        t = { s with buf := t.buf, olen := BitVec.ofNat 13 n, done := true } ∧ s.SameOutside t addr.toNat n ∧
        (fmt = 0 → t.HoldsBytes addr.toNat 1 (2 + (aff (s.getQ a)).y.toNat % 2) ∧
          t.HoldsBytes (addr.toNat + 1) 32 (aff (s.getQ a)).x.toNat) ∧
        (fmt = 1 → t.HoldsBytes addr.toNat 1 4 ∧ t.HoldsBytes (addr.toNat + 1) 32 (aff (s.getQ a)).x.toNat ∧
          t.HoldsBytes (addr.toNat + 33) 32 (aff (s.getQ a)).y.toNat) ∧
        (fmt = 2 → t.HoldsBytes addr.toNat 32 (aff (s.getQ a)).x.toNat))

/-- R276: lift of an x in (0, P) with parity par, where c = x^3 + 7 and y = c^((P+1)/4): the point (x, y) with the sign of y that
has the parity, when y is a root; else E_POINT, as for an x outside (0, P). `P - y` is taken mod P (log 15). -/
def Obligations.LiftFindsThePointOfAnX : Prop :=
  ∀ (x : Word) (par c y : Nat), par < 2 → c = (x.toNat ^ 3 + 7) % P → y = c ^ ((P + 1) / 4) % P →
    (x.toNat = 0 ∨ P ≤ x.toNat → lift x par = .error .point) ∧
    (0 < x.toNat → x.toNat < P → y ^ 2 % P ≠ c → lift x par = .error .point) ∧
    (0 < x.toNat → x.toNat < P → y ^ 2 % P = c →
      lift x par = .ok ⟨x, BitVec.ofNat 256 (if y % 2 = par then y else (P - y) % P)⟩)

/-- R373: PTDEC of an x-only, compressed or uncompressed key, by LEN; E_BUFRANGE, then E_ENCODING for another length or prefix, then
E_POINT. -/
def Obligations.PtdecReadsTheThreeFormats : Prop :=
  ∀ (d : PtIdx) (addr len : BitVec 12) (s : State),
    let word32 := fun o => BitVec.ofNat 256 (be (s.readBuf (addr.toNat + o) 32))
    let pre := (s.bufByte addr.toNat).toNat
    let lifts : Except Err AffPoint → Host.Outcome State Fault Refusal := fun a => match a with
      | .ok p => .next { s with q := s.q.set d ⟨p.x, p.y, 1⟩, done := true }
      | .error _ => .next (s.raise .point)
    encode (.ptdec d addr len) = word 0x51 { d := d, addr := addr, len := len } ∧
    (4096 < addr.toNat + len.toNat → exec (.ptdec d addr len) s = .next (s.raise .bufRange)) ∧
    (addr.toNat + len.toNat ≤ 4096 →
      (len.toNat ∉ [32, 33, 65] → exec (.ptdec d addr len) s = .next (s.raise .encoding)) ∧
      (len.toNat = 32 → exec (.ptdec d addr len) s = lifts (lift (word32 0) 0)) ∧
      (len.toNat = 33 → pre ≠ 2 → pre ≠ 3 → exec (.ptdec d addr len) s = .next (s.raise .encoding)) ∧
      (len.toNat = 33 → pre = 2 ∨ pre = 3 → exec (.ptdec d addr len) s = lifts (lift (word32 1) (pre - 2))) ∧
      (len.toNat = 65 → pre ≠ 4 → exec (.ptdec d addr len) s = .next (s.raise .encoding)) ∧
      (len.toNat = 65 → pre = 4 → valid ⟨word32 1, word32 33⟩ = false →
        exec (.ptdec d addr len) s = .next (s.raise .point)) ∧
      (len.toNat = 65 → pre = 4 → valid ⟨word32 1, word32 33⟩ = true →
        exec (.ptdec d addr len) s = .next { s with q := s.q.set d ⟨word32 1, word32 33, 1⟩, done := true }))

/-- R374, R378, R380: SIGENC, RSIGENC and SCHENC write be_32(r) and be_32(s), RSIGENC after the byte 31 + RECID, and no other byte;
E_RANGE comes before E_BUFRANGE. -/
def Obligations.CompactEncodersWriteTheirBytes : Prop :=
  ∀ (a b : RegIdx) (addr : BitVec 12) (s : State),
    let r := (s.getR a).toNat
    let v := (s.getR b).toNat
    (encode (.sigenc a b addr) = word 0x52 { a := a, b := b, addr := addr } ∧
      encode (.rsigenc a b addr) = word 0x56 { a := a, b := b, addr := addr } ∧
      encode (.schenc a b addr) = word 0x58 { a := a, b := b, addr := addr }) ∧
    (¬(0 < r ∧ r < N ∧ 0 < v ∧ v < N) →
      exec (.sigenc a b addr) s = .next (s.raise .range) ∧ exec (.rsigenc a b addr) s = .next (s.raise .range)) ∧
    (¬(0 < r ∧ r < P ∧ 0 < v ∧ v < N) → exec (.schenc a b addr) s = .next (s.raise .range)) ∧
    (0 < r → r < N → 0 < v → v < N →
      (4096 < addr.toNat + 64 → exec (.sigenc a b addr) s = .next (s.raise .bufRange)) ∧
      (4096 < addr.toNat + 65 → exec (.rsigenc a b addr) s = .next (s.raise .bufRange)) ∧
      (addr.toNat + 64 ≤ 4096 → ∃ t, exec (.sigenc a b addr) s = .next t ∧ t = { s with buf := t.buf, done := true } ∧
        s.SameOutside t addr.toNat 64 ∧ t.HoldsBytes addr.toNat 32 r ∧ t.HoldsBytes (addr.toNat + 32) 32 v) ∧
      (addr.toNat + 65 ≤ 4096 → ∃ t, exec (.rsigenc a b addr) s = .next t ∧ t = { s with buf := t.buf, done := true } ∧
        s.SameOutside t addr.toNat 65 ∧ t.HoldsBytes addr.toNat 1 (31 + s.recid.toNat) ∧
        t.HoldsBytes (addr.toNat + 1) 32 r ∧ t.HoldsBytes (addr.toNat + 33) 32 v)) ∧
    (0 < r → r < P → 0 < v → v < N →
      (4096 < addr.toNat + 64 → exec (.schenc a b addr) s = .next (s.raise .bufRange)) ∧
      (addr.toNat + 64 ≤ 4096 → ∃ t, exec (.schenc a b addr) s = .next t ∧ t = { s with buf := t.buf, done := true } ∧
        s.SameOutside t addr.toNat 64 ∧ t.HoldsBytes addr.toNat 32 r ∧ t.HoldsBytes (addr.toNat + 32) 32 v))

/-- R375, R379, R381: SIGDEC, RSIGDEC and SCHDEC: E_BUFRANGE, then E_ENCODING for a wrong length or prefix, then E_RANGE, else the
two components to rD and r(D+1), and the recovery id of the prefix to RECID. -/
def Obligations.CompactDecodersReadTheirBytes : Prop :=
  ∀ (d : RegIdx) (addr len : BitVec 12) (s : State),
    let part := fun o => BitVec.ofNat 256 (be (s.readBuf (addr.toNat + o) 32))
    let pre := (s.bufByte addr.toNat).toNat
    (encode (.sigdec d addr len) = word 0x53 { d := d, addr := addr, len := len } ∧
      encode (.rsigdec d addr len) = word 0x57 { d := d, addr := addr, len := len } ∧
      encode (.schdec d addr len) = word 0x59 { d := d, addr := addr, len := len }) ∧
    (4096 < addr.toNat + len.toNat →
      exec (.sigdec d addr len) s = .next (s.raise .bufRange) ∧ exec (.rsigdec d addr len) s = .next (s.raise .bufRange) ∧
      exec (.schdec d addr len) s = .next (s.raise .bufRange)) ∧
    (addr.toNat + len.toNat ≤ 4096 →
      (len.toNat ≠ 64 →
        exec (.sigdec d addr len) s = .next (s.raise .encoding) ∧ exec (.schdec d addr len) s = .next (s.raise .encoding)) ∧
      (len.toNat ≠ 65 ∨ pre < 31 ∨ 34 < pre → exec (.rsigdec d addr len) s = .next (s.raise .encoding)) ∧
      (len.toNat = 64 →
        exec (.sigdec d addr len) s = .next (
          if 0 < (part 0).toNat ∧ (part 0).toNat < N ∧ 0 < (part 32).toNat ∧ (part 32).toNat < N then
            { s with r := (s.r.set d (part 0)).set (d + 1 : RegIdx) (part 32), done := true }
          else s.raise .range) ∧
        exec (.schdec d addr len) s = .next (
          if 0 < (part 0).toNat ∧ (part 0).toNat < P ∧ 0 < (part 32).toNat ∧ (part 32).toNat < N then
            { s with r := (s.r.set d (part 0)).set (d + 1 : RegIdx) (part 32), done := true }
          else s.raise .range)) ∧
      (len.toNat = 65 → 31 ≤ pre → pre ≤ 34 →
        exec (.rsigdec d addr len) s = .next (
          if 0 < (part 1).toNat ∧ (part 1).toNat < N ∧ 0 < (part 33).toNat ∧ (part 33).toNat < N then
            { s with
              r := (s.r.set d (part 1)).set (d + 1 : RegIdx) (part 33)
              recid := BitVec.ofNat 2 (pre - 31)
              done := true }
          else s.raise .range)))

/-- Compact, recoverable and Schnorr round trips: the decoder on the bytes the encoder has written gives the components back, and
RECID (R374, R375, R378 to R381). -/
def Obligations.CompactSignaturesRoundTrip : Prop :=
  ∀ (a b d : RegIdx) (addr : BitVec 12) (s : State),
    let r := s.getR a
    let v := s.getR b
    (0 < r.toNat → r.toNat < N → 0 < v.toNat → v.toNat < N →
      (addr.toNat + 64 ≤ 4096 → ∃ t, exec (.sigenc a b addr) s = .next t ∧
        exec (.sigdec d addr 64) t = .next { t with r := (s.r.set d r).set (d + 1 : RegIdx) v }) ∧
      (addr.toNat + 65 ≤ 4096 → ∃ t, exec (.rsigenc a b addr) s = .next t ∧ ∀ id : BitVec 2,
        exec (.rsigdec d addr 65) { t with recid := id } = .next { t with
          r := (s.r.set d r).set (d + 1 : RegIdx) v, recid := s.recid })) ∧
    (0 < r.toNat → r.toNat < P → 0 < v.toNat → v.toNat < N → addr.toNat + 64 ≤ 4096 →
      ∃ t, exec (.schenc a b addr) s = .next t ∧
        exec (.schdec d addr 64) t = .next { t with r := (s.r.set d r).set (d + 1 : RegIdx) v })

/-- R376, R377: DERENC writes der(r, s), 8 to 72 bytes, its length to OLEN, and no other byte; DERDEC writes what underive gives of
its LEN bytes; the check orders; and the byte strings that R377 names with what each gives. -/
def Obligations.DerCommands : Prop :=
  (∀ (a b : RegIdx) (addr : BitVec 12) (s : State),
    let out := der (s.getR a) (s.getR b)
    (isSig (s.getR a) (s.getR b) = false → exec (.derenc a b addr) s = .next (s.raise .range)) ∧
    (isSig (s.getR a) (s.getR b) = true →
      8 ≤ out.length ∧ out.length ≤ 72 ∧
      (4096 < addr.toNat + out.length → exec (.derenc a b addr) s = .next (s.raise .bufRange)) ∧
      (addr.toNat + out.length ≤ 4096 → ∃ t, exec (.derenc a b addr) s = .next t ∧
        t = { s with buf := t.buf, olen := BitVec.ofNat 13 out.length, done := true } ∧
        t.readBuf addr.toNat out.length = out ∧ s.SameOutside t addr.toNat out.length))) ∧
  (∀ (d : RegIdx) (addr len : BitVec 12) (s : State),
    (4096 < addr.toNat + len.toNat → exec (.derdec d addr len) s = .next (s.raise .bufRange)) ∧
    (addr.toNat + len.toNat ≤ 4096 →
      exec (.derdec d addr len) s = .next (match underive (s.readBuf addr.toNat len.toNat) with
        | .ok (r, v) => { s with r := (s.r.set d r).set (d + 1 : RegIdx) v, done := true }
        | .error e => s.raise e))) ∧
  underive [0x30, 0x06, 0x02, 0x01, 0x01, 0x02, 0x01, 0x01] = .ok (1, 1) ∧
  underive [0x30, 0x06, 0x02, 0x01, 0x01, 0x02, 0x01, 0x01, 0x00] = .error .encoding ∧
  underive [0x30, 0x07, 0x02, 0x02, 0x00, 0x01, 0x02, 0x01, 0x01] = .error .encoding ∧
  underive [0x30, 0x06, 0x02, 0x01, 0x00, 0x02, 0x01, 0x01] = .error .range

/-- R371: underive(der(r, s)) = (r, s) for every Sig(r, s), and so DERDEC gives back what DERENC has written. -/
def Obligations.DerRoundTrip : Prop :=
  (∀ r v : Word, isSig r v = true → underive (der r v) = .ok (r, v)) ∧
  ∀ (a b d : RegIdx) (addr len : BitVec 12) (s : State), isSig (s.getR a) (s.getR b) = true →
    len.toNat = (der (s.getR a) (s.getR b)).length → addr.toNat + len.toNat ≤ 4096 →
    ∃ t, exec (.derenc a b addr) s = .next t ∧
      exec (.derdec d addr len) t = .next { t with r := (s.r.set d (s.getR a)).set (d + 1 : RegIdx) (s.getR b) }

/-- R371: the decoder accepts exactly the outputs of der: it gives (r, s) for a byte string exactly when Sig(r, s) holds and the string
is der(r, s), and what it refuses it refuses with E_ENCODING or E_RANGE. -/
def Obligations.DerDecoderAcceptsOnlyDer : Prop :=
  ∀ b : List Byte,
    (∀ r v : Word, underive b = .ok (r, v) ↔ isSig r v = true ∧ b = der r v) ∧
    ∀ e : Err, underive b = .error e → e = .encoding ∨ e = .range

/-! ### ECDSA (45_ecdsa) and Schnorr (46_schnorr) -/

/-- R426: the checks of ESIGN in their order. When they pass, with the entropy that ENT selects (for ENT = 2 the RNG bytes drawn next,
log 3), ESIGN writes r, s, RECID and DRBGCNT of its signing loop, where r and s are in (0, n), the count is 1 to 1000, and s ≤ HALF_N
unless NOCANON; or it raises E_DRBG. Which of the two depends on HMAC_SHA256 alone (log 2).
R421: the message scalar is the leftmost 32 bytes mod n. R422 to R424: `K j`, `V j` are the instance after the seed be_32(d) || be_32(m)
|| entropy and j retries, all of HMAC_SHA256's inputs written out; the loop takes the first of 1000 candidates that kmdToSig accepts. -/
def Obligations.EsignSigns : Prop :=
  (∀ (d a : RegIdx) (addr len : BitVec 12) (nocanon : Bool) (ent : BitVec 2) (s : State),
    let need := addr.toNat + len.toNat + (if ent = 1 then 32 else 0)
    let key := (s.getR a).toNat
    let drawn := if ent = 2 then { s with draws := s.draws + 32 } else s
    let entropy :=
      if ent = 1 then s.readBuf (addr.toNat + len.toNat) 32
      else if ent = 2 then (List.range 32).map (fun j => Config.rngByte (s.draws + j)) else []
    (ent = 3 → exec (.esign d a addr len nocanon ent) s = .next (s.raise .illegal)) ∧
    (ent ≠ 3 → 4096 < need → exec (.esign d a addr len nocanon ent) s = .next (s.raise .bufRange)) ∧
    (ent ≠ 3 → need ≤ 4096 → len.toNat = 0 → exec (.esign d a addr len nocanon ent) s = .next (s.raise .encoding)) ∧
    (ent ≠ 3 → need ≤ 4096 → len.toNat ≠ 0 → key = 0 ∨ N ≤ key →
      exec (.esign d a addr len nocanon ent) s = .next (s.raise .range)) ∧
    (ent ≠ 3 → need ≤ 4096 → len.toNat ≠ 0 → 0 < key → key < N →
      match esignRun nocanon key (msgScalar (s.readBuf addr.toNat len.toNat)) entropy with
      | .ok (sig, cnt) =>
        0 < sig.r ∧ sig.r < N ∧ 0 < sig.s ∧ sig.s < N ∧ (nocanon = false → sig.s ≤ N / 2) ∧ 1 ≤ cnt ∧ cnt ≤ 1000 ∧
        exec (.esign d a addr len nocanon ent) s = .next { drawn with
          r := (s.r.set d (BitVec.ofNat 256 sig.r)).set (d + 1 : RegIdx) (BitVec.ofNat 256 sig.s)
          recid := sig.recid
          drbgcnt := BitVec.ofNat 11 cnt
          done := true }
      | .error _ => exec (.esign d a addr len nocanon ent) s = .next (drawn.raise .drbg))) ∧
  (∀ h : List Byte, msgScalar h = be (h.take 32) % N) ∧
  ∀ (nocanon : Bool) (key m : Nat) (entropy : List Byte) (K V : Nat → List Byte),
    let hmac : List Byte → List Byte → List Byte := fun k msg => be32 (Config.hmacSha256 k msg)
    let k0 : List Byte := List.replicate 32 0x00
    let v0 : List Byte := List.replicate 32 0x01
    let seed := beBytes 32 key ++ beBytes 32 m ++ entropy
    let k1 := hmac k0 (v0 ++ [0x00] ++ seed)
    let v1 := hmac k1 v0
    let candidate := fun j => be (hmac (K j) (V j))
    K 0 = hmac k1 (v1 ++ [0x01] ++ seed) → V 0 = hmac (K 0) v1 →
    (∀ j, K (j + 1) = hmac (K j) (hmac (K j) (V j) ++ [0x00])) → (∀ j, V (j + 1) = hmac (K (j + 1)) (hmac (K j) (V j))) →
    ((∀ j < 1000, kmdToSig (candidate j) m key = none) → esignRun nocanon key m entropy = .error .drbg) ∧
    ∀ (j : Nat) (sig : EcdsaSig), j < 1000 → (∀ i < j, kmdToSig (candidate i) m key = none) →
      kmdToSig (candidate j) m key = some sig →
      esignRun nocanon key m entropy =
        .ok (if nocanon = false ∧ N / 2 < sig.s then ⟨sig.r, N - sig.s, sig.recid ^^^ 1⟩ else sig, j + 1)

/-- R425: kmdToSig fails for a candidate outside (0, n), for r = 0 and for s = 0; else r = x(k·G) mod n, k·s = m + d·r mod n, and the
recovery id is (Rx = r ? 0 : 2) | (Ry mod 2). Every k in (0, n) is coprime to n; the statement asks for that instead of the
primality of n. -/
def Obligations.OneSigningAttempt : Prop :=
  ∀ k m key : Nat,
    (k = 0 ∨ N ≤ k → kmdToSig k m key = none) ∧
    (0 < k → k < N → Nat.gcd k N = 1 →
      let a := aff (smul pointG k)
      let r := a.x.toNat % N
      ∃ v < N, k * v % N = (m + key * r) % N ∧
        kmdToSig k m key = if r = 0 ∨ v = 0 then none else
          some ⟨r, v, (if a.x.toNat = r then 0 else 2) ||| BitVec.ofNat 2 (a.y.toNat % 2)⟩)

/-- R427, R453: EVERIFY and SVERIFY write RES and nothing else, and raise only E_BUFRANGE and (EVERIFY) E_ENCODING. For EVERIFY, RES
= 0 whenever r or s is out of range, s is high without NOSTRICT, or the key is not valid; and, for w the inverse of s, RES = 1 exactly
when none of these holds and X = u1·G + u2·Q is no identity and has x mod n = r. For SVERIFY, RES = 1 exactly when r and s are in
range, px is the x of a curve point, and R' = s·G - e·P is no identity, has an even y and has x = r, where the challenge e is written
out in Safety.lean. -/
def Obligations.VerifyCommandsWriteRes : Prop :=
  ∀ (a b : RegIdx) (c : PtIdx) (px : RegIdx) (addr len : BitVec 12) (nostrict : Bool) (s : State),
    let r := s.getR a
    let v := s.getR b
    let msg := s.readBuf addr.toNat len.toNat
    (4096 < addr.toNat + len.toNat →
      exec (.everify a b c addr len nostrict) s = .next (s.raise .bufRange) ∧
      exec (.sverify a b px addr len) s = .next (s.raise .bufRange)) ∧
    (addr.toNat + len.toNat ≤ 4096 → len.toNat = 0 →
      exec (.everify a b c addr len nostrict) s = .next (s.raise .encoding)) ∧
    (addr.toNat + len.toNat ≤ 4096 → len.toNat ≠ 0 →
      ∃ res : Bool, exec (.everify a b c addr len nostrict) s = .next { s with res := res, done := true } ∧
        (¬(0 < r.toNat ∧ r.toNat < N ∧ 0 < v.toNat ∧ v.toNat < N) → res = false) ∧
        (nostrict = false → N / 2 < v.toNat → res = false) ∧
        (valid (aff (s.getQ c)) = false → res = false) ∧
        ∀ w : Nat, w < N → v.toNat * w % N = 1 →
          let x := add (smul pointG (msgScalar msg * w % N)) (smul (fromAff (aff (s.getQ c))) (r.toNat * w % N))
          (res = true ↔ (0 < r.toNat ∧ r.toNat < N ∧ 0 < v.toNat ∧ v.toNat < N) ∧
            (nostrict = true ∨ v.toNat ≤ N / 2) ∧ valid (aff (s.getQ c)) = true ∧
            x.z ≠ 0 ∧ (aff x).x.toNat % N = r.toNat)) ∧
    (addr.toNat + len.toNat ≤ 4096 →
      ∃ res : Bool, exec (.sverify a b px addr len) s = .next { s with res := res, done := true } ∧
        (res = true ↔ SchnorrGood r v (s.getR px) msg))

/-- R428: the checks of ERECOVER in their order; when they pass, the recovered point X = u1·G + u2·R, with w the inverse of r, u1 =
-m·w mod n and u2 = s·w mod n, is written normalised, or E_POINT is raised when it is the identity. Every r in (0, n) is coprime to n;
the statement asks for that instead of the primality of n. -/
def Obligations.ErecoverWritesTheKey : Prop :=
  ∀ (d : PtIdx) (a b : RegIdx) (addr len : BitVec 12) (s : State),
    let go := exec (.erecover d a b addr len) s
    let m := msgScalar (s.readBuf addr.toNat len.toNat)
    let r := (s.getR a).toNat
    (4096 < addr.toNat + len.toNat → go = .next (s.raise .bufRange)) ∧
    (addr.toNat + len.toNat ≤ 4096 → len.toNat = 0 → go = .next (s.raise .encoding)) ∧
    (addr.toNat + len.toNat ≤ 4096 → len.toNat ≠ 0 →
      (isSig (s.getR a) (s.getR b) = false → go = .next (s.raise .range)) ∧
      (isSig (s.getR a) (s.getR b) = true → s.recid = 2 ∨ s.recid = 3 → go = .next (s.raise .recId)) ∧
      (isSig (s.getR a) (s.getR b) = true → s.recid = 0 ∨ s.recid = 1 →
        match lift (s.getR a) s.recid.toNat with
        | .error _ => go = .next (s.raise .point)
        | .ok ra =>
          ∃ w : Nat, w < N ∧ (Nat.gcd r N = 1 → r * w % N = 1) ∧
            let u1 : Int := -(m * w : Nat) % N
            let x := add (smul pointG u1.toNat) (smul (fromAff ra) ((s.getR b).toNat * w % N))
            (x.z = 0 → go = .next (s.raise .point)) ∧
            (x.z ≠ 0 → go = .next { s with q := s.q.set d (norm x), done := true })))

/-- R451, R452: SPUB writes the x of d·G, which is what PGET reads of MULU's product (log 5). SSIGN's checks in their order, then, with
the aux bytes of BUF or those the RNG draws next (log 3), steps 1 to 7 with the hash inputs written out (taggedDigest, challengeOf and
SchnorrGood in Safety.lean): E_NONCE0 for k0 = 0, E_SELFCHECK when the signature does not verify, else the signature. Which of these
depends on SHA256 alone (log 2). -/
def Obligations.SchnorrKeysAndSigning : Prop :=
  ∀ (d a : RegIdx) (addr len : BitVec 12) (auxbuf : Bool) (s : State),
    let key := (s.getR a).toNat
    let need := addr.toNat + len.toNat + (if auxbuf then 32 else 0)
    let msg := s.readBuf addr.toNat len.toNat
    let drawn := if auxbuf then s else { s with draws := s.draws + 32 }
    let aux :=
      if auxbuf then s.readBuf (addr.toNat + len.toNat) 32
      else (List.range 32).map (fun j => Config.rngByte (s.draws + j))
    let p := aff (smul pointG key)
    let go := exec (.ssign d a addr len auxbuf) s
    (key = 0 ∨ N ≤ key → exec (.spub d a) s = .next (s.raise .range)) ∧
    (0 < key → key < N → exec (.spub d a) s = .next { s with r := s.r.set d p.x, done := true } ∧
      ∀ q : PtIdx, s.getQ q = pointG → ∃ t u, exec (.mulu q q a) s = .next t ∧ exec (.pget d q) t = .next u ∧ u.getR d = p.x) ∧
    (4096 < need → go = .next (s.raise .bufRange)) ∧
    (need ≤ 4096 → key = 0 ∨ N ≤ key → go = .next (s.raise .range)) ∧
    (need ≤ 4096 → 0 < key → key < N →
      let dk := if p.y.toNat % 2 = 1 then N - key else key
      let t := BitVec.ofNat 256 dk ^^^ BitVec.ofNat 256 (taggedDigest "BIP0340/aux" aux)
      let k0 := taggedDigest "BIP0340/nonce" (be32 t ++ be32 p.x ++ msg) % N
      let R := aff (smul pointG k0)
      let k := if R.y.toNat % 2 = 1 then N - k0 else k0
      let v := BitVec.ofNat 256 ((k + challengeOf R.x p.x msg * dk) % N)
      (k0 = 0 → go = .next (drawn.raise .nonce0)) ∧
      (k0 ≠ 0 → ¬SchnorrGood R.x v p.x msg → go = .next (drawn.raise .selfCheck)) ∧
      (k0 ≠ 0 → SchnorrGood R.x v p.x msg → go = .next { drawn with
        r := (s.r.set d R.x).set (d + 1 : RegIdx) v, done := true }))

/-! ### The host's side (20_memory, 70_reset) -/

/-- R621: an 8-byte write of w to CMD puts w in flight and clears DONE when BUSY = 0, and is dropped with OVR = 1 when BUSY = 1. -/
def Obligations.CmdWriteIssuesTheWord : Prop :=
  ∀ (s : State) (w : Cmd) (rest : List HostOp), s.host = .write (Config.engineBase + 0x1080) 8 w :: rest →
    (s.busy = false → step s = .next { s with host := rest, inflight := some w, done := false }) ∧
    (s.busy = true → step s = .next { s with host := rest, ovr := true })

/-- R622, 20_memory R90, R91, R93: an aligned write of 1, 2, 4 or 8 bytes of BUF when BUSY = 0 stores the bytes of the datum, by
HOST_WORD_ORDER the most or the least significant one at the lowest address (log 11), and changes no other byte; a read of the same
bytes then returns the written datum. The read changes nothing but the host's answer. -/
def Obligations.HostReadsBackWhatItWrote : Prop :=
  ∀ (s : State) (off w : Nat) (data : BitVec 64) (rest : List HostOp), w ∈ [1, 2, 4, 8] → off % w = 0 → off < 4096 →
    s.inflight = none →
    s.host = .write (Config.engineBase + off) w data :: .read (Config.engineBase + off) w :: rest →
    ∃ t, step s = .next t ∧
      t = { s with buf := t.buf, host := .read (Config.engineBase + off) w :: rest } ∧ s.SameOutside t off w ∧
      (Config.hostWordOrder = .big → ∀ j < w, (t.bufByte (off + j)).toNat = data.toNat / 256 ^ (w - 1 - j) % 256) ∧
      (Config.hostWordOrder = .little → ∀ j < w, (t.bufByte (off + j)).toNat = data.toNat / 256 ^ j % 256) ∧
      step t = .next { t with host := rest, reply := some (BitVec.ofNat 64 (data.toNat % 256 ^ w)) }

/-- R622, R623, R51: the host reads every CSR with the real BUSY at any time; it may write STATUS at any time, CTRL and RECID when
BUSY = 0; a write of a read-only CSR is ignored when BUSY = 0; a write of any CSR but STATUS is dropped with OVR = 1 when BUSY = 1; a
reserved offset reads 0 and ignores a write (while BUSY = 1 this is the model's reading, log 10). -/
def Obligations.HostAccessesToCsrs : Prop :=
  ∀ (s : State) (n : Nat) (v : BitVec 64) (rest : List HostOp),
    let after := { s with host := rest }
    (n ≤ 8 → s.host = .read (Config.engineBase + 0x1000 + 8 * n) 8 :: rest →
      step s = .next { after with reply := some (s.csrRead n s.busy) }) ∧
    (9 ≤ n → n < 512 → s.host = .read (Config.engineBase + 0x1000 + 8 * n) 8 :: rest →
      step s = .next { after with reply := some 0 }) ∧
    (n ≤ 8 → s.host = .write (Config.engineBase + 0x1000 + 8 * n) 8 v :: rest →
      (n = 1 → step s = .next { after with
        done := s.done && !v.getLsbD 1
        err := s.err && !v.getLsbD 2
        errcode := if v.getLsbD 2 then none else s.errcode
        errcmd := if v.getLsbD 2 then 0 else s.errcmd
        ovr := s.ovr && !v.getLsbD 4
        res := v.getLsbD 3 }) ∧
      (n ≠ 1 → s.busy = true → step s = .next { after with ovr := true }) ∧
      (n = 4 → s.busy = false → step s = .next { after with
        ie := v.getLsbD 0
        wlog2 := v.extractLsb' 1 2
        cache := if v.extractLsb' 1 2 = s.wlog2 then s.cache else none }) ∧
      (n = 5 → s.busy = false → step s = .next { after with recid := v.extractLsb' 0 2 }) ∧
      (n ∈ [0, 2, 3, 6, 7, 8] → s.busy = false → step s = .next after)) ∧
    (9 ≤ n → n < 512 → n ≠ 16 → s.host = .write (Config.engineBase + 0x1000 + 8 * n) 8 v :: rest → step s = .next after)

/-- R623: between the issue step and the execute step no host access changes the command, its inputs or its outputs: only reset
does. With BUSY = 1 a write of BUF is dropped with OVR = 1 and a read of BUF answers 0. 20_memory R91, R622: a misaligned or wrong-width
access is ignored or answers 0, also with BUSY = 1 (the model's reading, log 9). -/
def Obligations.AnInFlightCommandIsSafeFromTheHost : Prop :=
  (∀ (s : State) (w : Cmd) (op : HostOp) (rest : List HostOp), s.inflight = some w → s.host = op :: rest →
    op ≠ .pass → op ≠ .reset →
    ∃ t, step s = .next t ∧ t.inflight = some w ∧ t.r = s.r ∧ t.q = s.q ∧ t.buf = s.buf ∧ t.cache = s.cache ∧ t.ie = s.ie ∧
      t.wlog2 = s.wlog2 ∧ t.recid = s.recid ∧ t.olen = s.olen ∧ t.drbgcnt = s.drbgcnt ∧ t.draws = s.draws ∧ t.epoch = s.epoch) ∧
  ∀ (s : State) (off w : Nat) (data : BitVec 64) (rest : List HostOp),
    (s.busy = true → w ∈ [1, 2, 4, 8] → off % w = 0 → off < 4096 →
      (s.host = .write (Config.engineBase + off) w data :: rest → step s = .next { s with host := rest, ovr := true }) ∧
      (s.host = .read (Config.engineBase + off) w :: rest → step s = .next { s with host := rest, reply := some 0 })) ∧
    (off < 0x2000 → w ∉ [1, 2, 4, 8] ∨ off % w ≠ 0 ∨ (4096 ≤ off ∧ w ≠ 8) →
      (s.host = .write (Config.engineBase + off) w data :: rest → step s = .next { s with host := rest }) ∧
      (s.host = .read (Config.engineBase + off) w :: rest → step s = .next { s with host := rest, reply := some 0 }))

/-! ### Invariants of every step -/

/-- 20_memory R80, 10_state R34: every step keeps the canonical form of BUF's written bytes, and every coordinate of the point
register file in [0, P). -/
def Obligations.StepsKeepMemoryAndPointsCanonical : Prop :=
  ∀ s t : State, step s = .next t → (Mem.wf s.buf → Mem.wf t.buf) ∧ (s.PointsCanonical → t.PointsCanonical)

/-- 10_state R43 to R49, R53, 70_reset R621: every step keeps the cache's table the table of its point for the current WLOG2,
ERRCODE and ERRCMD the report of an error exactly while ERR = 1, DONE = 0 while BUSY = 1, and the ranges of OLEN and DRBGCNT. -/
def Obligations.StepsKeepTheControlStateConsistent : Prop :=
  ∀ s t : State, step s = .next t →
    (s.CacheConsistent → t.CacheConsistent) ∧ (s.ErrorReportConsistent → t.ErrorReportConsistent) ∧
    (s.BusyHidesDone → t.BusyHidesDone) ∧ (s.CountersBounded → t.CountersBounded)

/-- The reset state meets every invariant. R634: reset gives clean entry to every run whose BUF bytes are given, and so does the final
state of a clean run (R633) to the next one; how the two rules are read is log 19 and log 20, a run as a list of host moves log 6.
R630: the execute step is not kept waiting: once the host's moves are over, one more step leaves no command in flight. -/
def Obligations.ResetMeetsEveryInvariant : Prop :=
  (Mem.wf State.reset.buf ∧ State.reset.PointsCanonical ∧ State.reset.CacheConsistent ∧ State.reset.ErrorReportConsistent ∧
    State.reset.BusyHidesDone ∧ State.reset.CountersBounded) ∧
  (∀ ops : List HostOp, ({ State.reset with host := ops } : State).InputsGiven →
    ({ State.reset with host := ops } : State).CleanEntry) ∧
  (∀ (s : State) (n : Nat) (ops : List HostOp), s.ErrorReportConsistent → s.EndsClean n →
    ({ s.after n with host := ops } : State).InputsGiven → ({ s.after n with host := ops } : State).CleanEntry) ∧
  ∀ s : State, (s.after (s.host.length + 1)).host = [] ∧ (s.after (s.host.length + 1)).busy = false
end

