-- ==== Sys2Proof/Laws/State.lean ====
section
/-! SUPPORT. The fields of a state after each update: one lemma per field and update, so that no proof unfolds a record update. -/

namespace Sys2Proof.Machine

variable (s : State)

@[simp] theorem State.setR_r (i : RegIdx) (v : Word) : (s.setR i v).r = s.r.set i v := rfl
@[simp] theorem State.setR_q (i : RegIdx) (v : Word) : (s.setR i v).q = s.q := rfl
@[simp] theorem State.setR_buf (i : RegIdx) (v : Word) : (s.setR i v).buf = s.buf := rfl
@[simp] theorem State.setR_done (i : RegIdx) (v : Word) : (s.setR i v).done = s.done := rfl
@[simp] theorem State.setR_err (i : RegIdx) (v : Word) : (s.setR i v).err = s.err := rfl
@[simp] theorem State.setR_res (i : RegIdx) (v : Word) : (s.setR i v).res = s.res := rfl
@[simp] theorem State.setR_ovr (i : RegIdx) (v : Word) : (s.setR i v).ovr = s.ovr := rfl
@[simp] theorem State.setR_errcode (i : RegIdx) (v : Word) : (s.setR i v).errcode = s.errcode := rfl
@[simp] theorem State.setR_errcmd (i : RegIdx) (v : Word) : (s.setR i v).errcmd = s.errcmd := rfl
@[simp] theorem State.setR_ie (i : RegIdx) (v : Word) : (s.setR i v).ie = s.ie := rfl
@[simp] theorem State.setR_wlog2 (i : RegIdx) (v : Word) : (s.setR i v).wlog2 = s.wlog2 := rfl
@[simp] theorem State.setR_recid (i : RegIdx) (v : Word) : (s.setR i v).recid = s.recid := rfl
@[simp] theorem State.setR_olen (i : RegIdx) (v : Word) : (s.setR i v).olen = s.olen := rfl
@[simp] theorem State.setR_drbgcnt (i : RegIdx) (v : Word) : (s.setR i v).drbgcnt = s.drbgcnt := rfl
@[simp] theorem State.setR_cache (i : RegIdx) (v : Word) : (s.setR i v).cache = s.cache := rfl
@[simp] theorem State.setR_inflight (i : RegIdx) (v : Word) : (s.setR i v).inflight = s.inflight := rfl
@[simp] theorem State.setR_epoch (i : RegIdx) (v : Word) : (s.setR i v).epoch = s.epoch := rfl
@[simp] theorem State.setR_draws (i : RegIdx) (v : Word) : (s.setR i v).draws = s.draws := rfl
@[simp] theorem State.setR_host (i : RegIdx) (v : Word) : (s.setR i v).host = s.host := rfl
@[simp] theorem State.setR_reply (i : RegIdx) (v : Word) : (s.setR i v).reply = s.reply := rfl

@[simp] theorem State.setQ_r (i : PtIdx) (p : Point) : (s.setQ i p).r = s.r := rfl
@[simp] theorem State.setQ_q (i : PtIdx) (p : Point) : (s.setQ i p).q = s.q.set i p := rfl
@[simp] theorem State.setQ_buf (i : PtIdx) (p : Point) : (s.setQ i p).buf = s.buf := rfl
@[simp] theorem State.setQ_done (i : PtIdx) (p : Point) : (s.setQ i p).done = s.done := rfl
@[simp] theorem State.setQ_err (i : PtIdx) (p : Point) : (s.setQ i p).err = s.err := rfl
@[simp] theorem State.setQ_res (i : PtIdx) (p : Point) : (s.setQ i p).res = s.res := rfl
@[simp] theorem State.setQ_ovr (i : PtIdx) (p : Point) : (s.setQ i p).ovr = s.ovr := rfl
@[simp] theorem State.setQ_errcode (i : PtIdx) (p : Point) : (s.setQ i p).errcode = s.errcode := rfl
@[simp] theorem State.setQ_errcmd (i : PtIdx) (p : Point) : (s.setQ i p).errcmd = s.errcmd := rfl
@[simp] theorem State.setQ_ie (i : PtIdx) (p : Point) : (s.setQ i p).ie = s.ie := rfl
@[simp] theorem State.setQ_wlog2 (i : PtIdx) (p : Point) : (s.setQ i p).wlog2 = s.wlog2 := rfl
@[simp] theorem State.setQ_recid (i : PtIdx) (p : Point) : (s.setQ i p).recid = s.recid := rfl
@[simp] theorem State.setQ_olen (i : PtIdx) (p : Point) : (s.setQ i p).olen = s.olen := rfl
@[simp] theorem State.setQ_drbgcnt (i : PtIdx) (p : Point) : (s.setQ i p).drbgcnt = s.drbgcnt := rfl
@[simp] theorem State.setQ_cache (i : PtIdx) (p : Point) : (s.setQ i p).cache = s.cache := rfl
@[simp] theorem State.setQ_inflight (i : PtIdx) (p : Point) : (s.setQ i p).inflight = s.inflight := rfl
@[simp] theorem State.setQ_epoch (i : PtIdx) (p : Point) : (s.setQ i p).epoch = s.epoch := rfl
@[simp] theorem State.setQ_draws (i : PtIdx) (p : Point) : (s.setQ i p).draws = s.draws := rfl
@[simp] theorem State.setQ_host (i : PtIdx) (p : Point) : (s.setQ i p).host = s.host := rfl
@[simp] theorem State.setQ_reply (i : PtIdx) (p : Point) : (s.setQ i p).reply = s.reply := rfl

@[simp] theorem State.setRes_r (c : Bool) : (s.setRes c).r = s.r := rfl
@[simp] theorem State.setRes_q (c : Bool) : (s.setRes c).q = s.q := rfl
@[simp] theorem State.setRes_buf (c : Bool) : (s.setRes c).buf = s.buf := rfl
@[simp] theorem State.setRes_done (c : Bool) : (s.setRes c).done = s.done := rfl
@[simp] theorem State.setRes_err (c : Bool) : (s.setRes c).err = s.err := rfl
@[simp] theorem State.setRes_res (c : Bool) : (s.setRes c).res = c := rfl
@[simp] theorem State.setRes_ovr (c : Bool) : (s.setRes c).ovr = s.ovr := rfl
@[simp] theorem State.setRes_errcode (c : Bool) : (s.setRes c).errcode = s.errcode := rfl
@[simp] theorem State.setRes_errcmd (c : Bool) : (s.setRes c).errcmd = s.errcmd := rfl
@[simp] theorem State.setRes_ie (c : Bool) : (s.setRes c).ie = s.ie := rfl
@[simp] theorem State.setRes_wlog2 (c : Bool) : (s.setRes c).wlog2 = s.wlog2 := rfl
@[simp] theorem State.setRes_recid (c : Bool) : (s.setRes c).recid = s.recid := rfl
@[simp] theorem State.setRes_olen (c : Bool) : (s.setRes c).olen = s.olen := rfl
@[simp] theorem State.setRes_drbgcnt (c : Bool) : (s.setRes c).drbgcnt = s.drbgcnt := rfl
@[simp] theorem State.setRes_cache (c : Bool) : (s.setRes c).cache = s.cache := rfl
@[simp] theorem State.setRes_inflight (c : Bool) : (s.setRes c).inflight = s.inflight := rfl
@[simp] theorem State.setRes_epoch (c : Bool) : (s.setRes c).epoch = s.epoch := rfl
@[simp] theorem State.setRes_draws (c : Bool) : (s.setRes c).draws = s.draws := rfl
@[simp] theorem State.setRes_host (c : Bool) : (s.setRes c).host = s.host := rfl
@[simp] theorem State.setRes_reply (c : Bool) : (s.setRes c).reply = s.reply := rfl

@[simp] theorem State.writeBuf_r (a : Nat) (b : List Byte) : (s.writeBuf a b).r = s.r := rfl
@[simp] theorem State.writeBuf_q (a : Nat) (b : List Byte) : (s.writeBuf a b).q = s.q := rfl
@[simp] theorem State.writeBuf_buf (a : Nat) (b : List Byte) : (s.writeBuf a b).buf = Mem.setBytes s.buf a b := rfl
@[simp] theorem State.writeBuf_done (a : Nat) (b : List Byte) : (s.writeBuf a b).done = s.done := rfl
@[simp] theorem State.writeBuf_err (a : Nat) (b : List Byte) : (s.writeBuf a b).err = s.err := rfl
@[simp] theorem State.writeBuf_res (a : Nat) (b : List Byte) : (s.writeBuf a b).res = s.res := rfl
@[simp] theorem State.writeBuf_ovr (a : Nat) (b : List Byte) : (s.writeBuf a b).ovr = s.ovr := rfl
@[simp] theorem State.writeBuf_errcode (a : Nat) (b : List Byte) : (s.writeBuf a b).errcode = s.errcode := rfl
@[simp] theorem State.writeBuf_errcmd (a : Nat) (b : List Byte) : (s.writeBuf a b).errcmd = s.errcmd := rfl
@[simp] theorem State.writeBuf_ie (a : Nat) (b : List Byte) : (s.writeBuf a b).ie = s.ie := rfl
@[simp] theorem State.writeBuf_wlog2 (a : Nat) (b : List Byte) : (s.writeBuf a b).wlog2 = s.wlog2 := rfl
@[simp] theorem State.writeBuf_recid (a : Nat) (b : List Byte) : (s.writeBuf a b).recid = s.recid := rfl
@[simp] theorem State.writeBuf_olen (a : Nat) (b : List Byte) : (s.writeBuf a b).olen = s.olen := rfl
@[simp] theorem State.writeBuf_drbgcnt (a : Nat) (b : List Byte) : (s.writeBuf a b).drbgcnt = s.drbgcnt := rfl
@[simp] theorem State.writeBuf_cache (a : Nat) (b : List Byte) : (s.writeBuf a b).cache = s.cache := rfl
@[simp] theorem State.writeBuf_inflight (a : Nat) (b : List Byte) : (s.writeBuf a b).inflight = s.inflight := rfl
@[simp] theorem State.writeBuf_epoch (a : Nat) (b : List Byte) : (s.writeBuf a b).epoch = s.epoch := rfl
@[simp] theorem State.writeBuf_draws (a : Nat) (b : List Byte) : (s.writeBuf a b).draws = s.draws := rfl
@[simp] theorem State.writeBuf_host (a : Nat) (b : List Byte) : (s.writeBuf a b).host = s.host := rfl
@[simp] theorem State.writeBuf_reply (a : Nat) (b : List Byte) : (s.writeBuf a b).reply = s.reply := rfl

@[simp] theorem State.markDone_r : (s.markDone).r = s.r := rfl
@[simp] theorem State.markDone_q : (s.markDone).q = s.q := rfl
@[simp] theorem State.markDone_buf : (s.markDone).buf = s.buf := rfl
@[simp] theorem State.markDone_done : (s.markDone).done = true := rfl
@[simp] theorem State.markDone_err : (s.markDone).err = s.err := rfl
@[simp] theorem State.markDone_res : (s.markDone).res = s.res := rfl
@[simp] theorem State.markDone_ovr : (s.markDone).ovr = s.ovr := rfl
@[simp] theorem State.markDone_errcode : (s.markDone).errcode = s.errcode := rfl
@[simp] theorem State.markDone_errcmd : (s.markDone).errcmd = s.errcmd := rfl
@[simp] theorem State.markDone_ie : (s.markDone).ie = s.ie := rfl
@[simp] theorem State.markDone_wlog2 : (s.markDone).wlog2 = s.wlog2 := rfl
@[simp] theorem State.markDone_recid : (s.markDone).recid = s.recid := rfl
@[simp] theorem State.markDone_olen : (s.markDone).olen = s.olen := rfl
@[simp] theorem State.markDone_drbgcnt : (s.markDone).drbgcnt = s.drbgcnt := rfl
@[simp] theorem State.markDone_cache : (s.markDone).cache = s.cache := rfl
@[simp] theorem State.markDone_inflight : (s.markDone).inflight = s.inflight := rfl
@[simp] theorem State.markDone_epoch : (s.markDone).epoch = s.epoch := rfl
@[simp] theorem State.markDone_draws : (s.markDone).draws = s.draws := rfl
@[simp] theorem State.markDone_host : (s.markDone).host = s.host := rfl
@[simp] theorem State.markDone_reply : (s.markDone).reply = s.reply := rfl

@[simp] theorem State.retire_r : (s.retire).r = s.r := rfl
@[simp] theorem State.retire_q : (s.retire).q = s.q := rfl
@[simp] theorem State.retire_buf : (s.retire).buf = s.buf := rfl
@[simp] theorem State.retire_done : (s.retire).done = s.done := rfl
@[simp] theorem State.retire_err : (s.retire).err = s.err := rfl
@[simp] theorem State.retire_res : (s.retire).res = s.res := rfl
@[simp] theorem State.retire_ovr : (s.retire).ovr = s.ovr := rfl
@[simp] theorem State.retire_errcode : (s.retire).errcode = s.errcode := rfl
@[simp] theorem State.retire_errcmd : (s.retire).errcmd = s.errcmd := rfl
@[simp] theorem State.retire_ie : (s.retire).ie = s.ie := rfl
@[simp] theorem State.retire_wlog2 : (s.retire).wlog2 = s.wlog2 := rfl
@[simp] theorem State.retire_recid : (s.retire).recid = s.recid := rfl
@[simp] theorem State.retire_olen : (s.retire).olen = s.olen := rfl
@[simp] theorem State.retire_drbgcnt : (s.retire).drbgcnt = s.drbgcnt := rfl
@[simp] theorem State.retire_cache : (s.retire).cache = s.cache := rfl
@[simp] theorem State.retire_inflight : (s.retire).inflight = none := rfl
@[simp] theorem State.retire_epoch : (s.retire).epoch = s.epoch := rfl
@[simp] theorem State.retire_draws : (s.retire).draws = s.draws := rfl
@[simp] theorem State.retire_host : (s.retire).host = s.host := rfl
@[simp] theorem State.retire_reply : (s.retire).reply = s.reply := rfl

@[simp] theorem State.raise_r (e : Err) : (s.raise e).r = s.r := rfl
@[simp] theorem State.raise_q (e : Err) : (s.raise e).q = s.q := rfl
@[simp] theorem State.raise_buf (e : Err) : (s.raise e).buf = s.buf := rfl
@[simp] theorem State.raise_done (e : Err) : (s.raise e).done = true := rfl
@[simp] theorem State.raise_err (e : Err) : (s.raise e).err = true := rfl
@[simp] theorem State.raise_res (e : Err) : (s.raise e).res = s.res := rfl
@[simp] theorem State.raise_ovr (e : Err) : (s.raise e).ovr = s.ovr := rfl
@[simp] theorem State.raise_errcode (e : Err) : (s.raise e).errcode = if s.err then s.errcode else some e := rfl
@[simp] theorem State.raise_errcmd (e : Err) : (s.raise e).errcmd = if s.err then s.errcmd else s.inflight.getD s.errcmd := rfl
@[simp] theorem State.raise_ie (e : Err) : (s.raise e).ie = s.ie := rfl
@[simp] theorem State.raise_wlog2 (e : Err) : (s.raise e).wlog2 = s.wlog2 := rfl
@[simp] theorem State.raise_recid (e : Err) : (s.raise e).recid = s.recid := rfl
@[simp] theorem State.raise_olen (e : Err) : (s.raise e).olen = s.olen := rfl
@[simp] theorem State.raise_drbgcnt (e : Err) : (s.raise e).drbgcnt = s.drbgcnt := rfl
@[simp] theorem State.raise_cache (e : Err) : (s.raise e).cache = s.cache := rfl
@[simp] theorem State.raise_inflight (e : Err) : (s.raise e).inflight = s.inflight := rfl
@[simp] theorem State.raise_epoch (e : Err) : (s.raise e).epoch = s.epoch := rfl
@[simp] theorem State.raise_draws (e : Err) : (s.raise e).draws = s.draws := rfl
@[simp] theorem State.raise_host (e : Err) : (s.raise e).host = s.host := rfl
@[simp] theorem State.raise_reply (e : Err) : (s.raise e).reply = s.reply := rfl

@[simp] theorem State.writeStatus_r (v : Cmd) : (s.writeStatus v).r = s.r := rfl
@[simp] theorem State.writeStatus_q (v : Cmd) : (s.writeStatus v).q = s.q := rfl
@[simp] theorem State.writeStatus_buf (v : Cmd) : (s.writeStatus v).buf = s.buf := rfl
@[simp] theorem State.writeStatus_done (v : Cmd) : (s.writeStatus v).done = (s.done && !v.getLsbD 1) := rfl
@[simp] theorem State.writeStatus_err (v : Cmd) : (s.writeStatus v).err = (s.err && !v.getLsbD 2) := rfl
@[simp] theorem State.writeStatus_res (v : Cmd) : (s.writeStatus v).res = v.getLsbD 3 := rfl
@[simp] theorem State.writeStatus_ovr (v : Cmd) : (s.writeStatus v).ovr = (s.ovr && !v.getLsbD 4) := rfl
@[simp] theorem State.writeStatus_errcode (v : Cmd) : (s.writeStatus v).errcode = if v.getLsbD 2 then none else s.errcode := rfl
@[simp] theorem State.writeStatus_errcmd (v : Cmd) : (s.writeStatus v).errcmd = if v.getLsbD 2 then 0 else s.errcmd := rfl
@[simp] theorem State.writeStatus_ie (v : Cmd) : (s.writeStatus v).ie = s.ie := rfl
@[simp] theorem State.writeStatus_wlog2 (v : Cmd) : (s.writeStatus v).wlog2 = s.wlog2 := rfl
@[simp] theorem State.writeStatus_recid (v : Cmd) : (s.writeStatus v).recid = s.recid := rfl
@[simp] theorem State.writeStatus_olen (v : Cmd) : (s.writeStatus v).olen = s.olen := rfl
@[simp] theorem State.writeStatus_drbgcnt (v : Cmd) : (s.writeStatus v).drbgcnt = s.drbgcnt := rfl
@[simp] theorem State.writeStatus_cache (v : Cmd) : (s.writeStatus v).cache = s.cache := rfl
@[simp] theorem State.writeStatus_inflight (v : Cmd) : (s.writeStatus v).inflight = s.inflight := rfl
@[simp] theorem State.writeStatus_epoch (v : Cmd) : (s.writeStatus v).epoch = s.epoch := rfl
@[simp] theorem State.writeStatus_draws (v : Cmd) : (s.writeStatus v).draws = s.draws := rfl
@[simp] theorem State.writeStatus_host (v : Cmd) : (s.writeStatus v).host = s.host := rfl
@[simp] theorem State.writeStatus_reply (v : Cmd) : (s.writeStatus v).reply = s.reply := rfl

@[simp] theorem State.writeCtrl_r (v : Cmd) : (s.writeCtrl v).r = s.r := rfl
@[simp] theorem State.writeCtrl_q (v : Cmd) : (s.writeCtrl v).q = s.q := rfl
@[simp] theorem State.writeCtrl_buf (v : Cmd) : (s.writeCtrl v).buf = s.buf := rfl
@[simp] theorem State.writeCtrl_done (v : Cmd) : (s.writeCtrl v).done = s.done := rfl
@[simp] theorem State.writeCtrl_err (v : Cmd) : (s.writeCtrl v).err = s.err := rfl
@[simp] theorem State.writeCtrl_res (v : Cmd) : (s.writeCtrl v).res = s.res := rfl
@[simp] theorem State.writeCtrl_ovr (v : Cmd) : (s.writeCtrl v).ovr = s.ovr := rfl
@[simp] theorem State.writeCtrl_errcode (v : Cmd) : (s.writeCtrl v).errcode = s.errcode := rfl
@[simp] theorem State.writeCtrl_errcmd (v : Cmd) : (s.writeCtrl v).errcmd = s.errcmd := rfl
@[simp] theorem State.writeCtrl_ie (v : Cmd) : (s.writeCtrl v).ie = v.getLsbD 0 := rfl
@[simp] theorem State.writeCtrl_wlog2 (v : Cmd) : (s.writeCtrl v).wlog2 = v.extractLsb' 1 2 := rfl
@[simp] theorem State.writeCtrl_recid (v : Cmd) : (s.writeCtrl v).recid = s.recid := rfl
@[simp] theorem State.writeCtrl_olen (v : Cmd) : (s.writeCtrl v).olen = s.olen := rfl
@[simp] theorem State.writeCtrl_drbgcnt (v : Cmd) : (s.writeCtrl v).drbgcnt = s.drbgcnt := rfl
@[simp] theorem State.writeCtrl_cache (v : Cmd) : (s.writeCtrl v).cache = if v.extractLsb' 1 2 = s.wlog2 then s.cache else none := rfl
@[simp] theorem State.writeCtrl_inflight (v : Cmd) : (s.writeCtrl v).inflight = s.inflight := rfl
@[simp] theorem State.writeCtrl_epoch (v : Cmd) : (s.writeCtrl v).epoch = s.epoch := rfl
@[simp] theorem State.writeCtrl_draws (v : Cmd) : (s.writeCtrl v).draws = s.draws := rfl
@[simp] theorem State.writeCtrl_host (v : Cmd) : (s.writeCtrl v).host = s.host := rfl
@[simp] theorem State.writeCtrl_reply (v : Cmd) : (s.writeCtrl v).reply = s.reply := rfl

@[simp] theorem State.writeRecid_r (v : Cmd) : (s.writeRecid v).r = s.r := rfl
@[simp] theorem State.writeRecid_q (v : Cmd) : (s.writeRecid v).q = s.q := rfl
@[simp] theorem State.writeRecid_buf (v : Cmd) : (s.writeRecid v).buf = s.buf := rfl
@[simp] theorem State.writeRecid_done (v : Cmd) : (s.writeRecid v).done = s.done := rfl
@[simp] theorem State.writeRecid_err (v : Cmd) : (s.writeRecid v).err = s.err := rfl
@[simp] theorem State.writeRecid_res (v : Cmd) : (s.writeRecid v).res = s.res := rfl
@[simp] theorem State.writeRecid_ovr (v : Cmd) : (s.writeRecid v).ovr = s.ovr := rfl
@[simp] theorem State.writeRecid_errcode (v : Cmd) : (s.writeRecid v).errcode = s.errcode := rfl
@[simp] theorem State.writeRecid_errcmd (v : Cmd) : (s.writeRecid v).errcmd = s.errcmd := rfl
@[simp] theorem State.writeRecid_ie (v : Cmd) : (s.writeRecid v).ie = s.ie := rfl
@[simp] theorem State.writeRecid_wlog2 (v : Cmd) : (s.writeRecid v).wlog2 = s.wlog2 := rfl
@[simp] theorem State.writeRecid_recid (v : Cmd) : (s.writeRecid v).recid = v.extractLsb' 0 2 := rfl
@[simp] theorem State.writeRecid_olen (v : Cmd) : (s.writeRecid v).olen = s.olen := rfl
@[simp] theorem State.writeRecid_drbgcnt (v : Cmd) : (s.writeRecid v).drbgcnt = s.drbgcnt := rfl
@[simp] theorem State.writeRecid_cache (v : Cmd) : (s.writeRecid v).cache = s.cache := rfl
@[simp] theorem State.writeRecid_inflight (v : Cmd) : (s.writeRecid v).inflight = s.inflight := rfl
@[simp] theorem State.writeRecid_epoch (v : Cmd) : (s.writeRecid v).epoch = s.epoch := rfl
@[simp] theorem State.writeRecid_draws (v : Cmd) : (s.writeRecid v).draws = s.draws := rfl
@[simp] theorem State.writeRecid_host (v : Cmd) : (s.writeRecid v).host = s.host := rfl
@[simp] theorem State.writeRecid_reply (v : Cmd) : (s.writeRecid v).reply = s.reply := rfl

@[simp] theorem State.overrun_r : (s.overrun).r = s.r := rfl
@[simp] theorem State.overrun_q : (s.overrun).q = s.q := rfl
@[simp] theorem State.overrun_buf : (s.overrun).buf = s.buf := rfl
@[simp] theorem State.overrun_done : (s.overrun).done = s.done := rfl
@[simp] theorem State.overrun_err : (s.overrun).err = s.err := rfl
@[simp] theorem State.overrun_res : (s.overrun).res = s.res := rfl
@[simp] theorem State.overrun_ovr : (s.overrun).ovr = true := rfl
@[simp] theorem State.overrun_errcode : (s.overrun).errcode = s.errcode := rfl
@[simp] theorem State.overrun_errcmd : (s.overrun).errcmd = s.errcmd := rfl
@[simp] theorem State.overrun_ie : (s.overrun).ie = s.ie := rfl
@[simp] theorem State.overrun_wlog2 : (s.overrun).wlog2 = s.wlog2 := rfl
@[simp] theorem State.overrun_recid : (s.overrun).recid = s.recid := rfl
@[simp] theorem State.overrun_olen : (s.overrun).olen = s.olen := rfl
@[simp] theorem State.overrun_drbgcnt : (s.overrun).drbgcnt = s.drbgcnt := rfl
@[simp] theorem State.overrun_cache : (s.overrun).cache = s.cache := rfl
@[simp] theorem State.overrun_inflight : (s.overrun).inflight = s.inflight := rfl
@[simp] theorem State.overrun_epoch : (s.overrun).epoch = s.epoch := rfl
@[simp] theorem State.overrun_draws : (s.overrun).draws = s.draws := rfl
@[simp] theorem State.overrun_host : (s.overrun).host = s.host := rfl
@[simp] theorem State.overrun_reply : (s.overrun).reply = s.reply := rfl

/-- `setRegs` changes nothing but `r`. -/
theorem State.setRegs_frame (i : RegIdx) (vs : List Word) : s.setRegs i vs = { s with r := (s.setRegs i vs).r } := by
  induction vs generalizing i s with
  | nil => rfl
  | cons x xs ih => rw [State.setRegs, ih]; rfl

@[simp] theorem State.setRegs_q (i : RegIdx) (vs : List Word) : (s.setRegs i vs).q = s.q := by rw [State.setRegs_frame]
@[simp] theorem State.setRegs_buf (i : RegIdx) (vs : List Word) : (s.setRegs i vs).buf = s.buf := by rw [State.setRegs_frame]
@[simp] theorem State.setRegs_done (i : RegIdx) (vs : List Word) : (s.setRegs i vs).done = s.done := by rw [State.setRegs_frame]
@[simp] theorem State.setRegs_err (i : RegIdx) (vs : List Word) : (s.setRegs i vs).err = s.err := by rw [State.setRegs_frame]
@[simp] theorem State.setRegs_res (i : RegIdx) (vs : List Word) : (s.setRegs i vs).res = s.res := by rw [State.setRegs_frame]
@[simp] theorem State.setRegs_ovr (i : RegIdx) (vs : List Word) : (s.setRegs i vs).ovr = s.ovr := by rw [State.setRegs_frame]
@[simp] theorem State.setRegs_errcode (i : RegIdx) (vs : List Word) : (s.setRegs i vs).errcode = s.errcode := by rw [State.setRegs_frame]
@[simp] theorem State.setRegs_errcmd (i : RegIdx) (vs : List Word) : (s.setRegs i vs).errcmd = s.errcmd := by rw [State.setRegs_frame]
@[simp] theorem State.setRegs_ie (i : RegIdx) (vs : List Word) : (s.setRegs i vs).ie = s.ie := by rw [State.setRegs_frame]
@[simp] theorem State.setRegs_wlog2 (i : RegIdx) (vs : List Word) : (s.setRegs i vs).wlog2 = s.wlog2 := by rw [State.setRegs_frame]
@[simp] theorem State.setRegs_recid (i : RegIdx) (vs : List Word) : (s.setRegs i vs).recid = s.recid := by rw [State.setRegs_frame]
@[simp] theorem State.setRegs_olen (i : RegIdx) (vs : List Word) : (s.setRegs i vs).olen = s.olen := by rw [State.setRegs_frame]
@[simp] theorem State.setRegs_drbgcnt (i : RegIdx) (vs : List Word) : (s.setRegs i vs).drbgcnt = s.drbgcnt := by rw [State.setRegs_frame]
@[simp] theorem State.setRegs_cache (i : RegIdx) (vs : List Word) : (s.setRegs i vs).cache = s.cache := by rw [State.setRegs_frame]
@[simp] theorem State.setRegs_inflight (i : RegIdx) (vs : List Word) : (s.setRegs i vs).inflight = s.inflight := by rw [State.setRegs_frame]
@[simp] theorem State.setRegs_epoch (i : RegIdx) (vs : List Word) : (s.setRegs i vs).epoch = s.epoch := by rw [State.setRegs_frame]
@[simp] theorem State.setRegs_draws (i : RegIdx) (vs : List Word) : (s.setRegs i vs).draws = s.draws := by rw [State.setRegs_frame]
@[simp] theorem State.setRegs_host (i : RegIdx) (vs : List Word) : (s.setRegs i vs).host = s.host := by rw [State.setRegs_frame]
@[simp] theorem State.setRegs_reply (i : RegIdx) (vs : List Word) : (s.setRegs i vs).reply = s.reply := by rw [State.setRegs_frame]

/-- `setPts` changes nothing but `q`. -/
theorem State.setPts_frame (i : PtIdx) (ps : List Point) : s.setPts i ps = { s with q := (s.setPts i ps).q } := by
  induction ps generalizing i s with
  | nil => rfl
  | cons x xs ih => rw [State.setPts, ih]; rfl

@[simp] theorem State.setPts_r (i : PtIdx) (ps : List Point) : (s.setPts i ps).r = s.r := by rw [State.setPts_frame]
@[simp] theorem State.setPts_buf (i : PtIdx) (ps : List Point) : (s.setPts i ps).buf = s.buf := by rw [State.setPts_frame]
@[simp] theorem State.setPts_done (i : PtIdx) (ps : List Point) : (s.setPts i ps).done = s.done := by rw [State.setPts_frame]
@[simp] theorem State.setPts_err (i : PtIdx) (ps : List Point) : (s.setPts i ps).err = s.err := by rw [State.setPts_frame]
@[simp] theorem State.setPts_res (i : PtIdx) (ps : List Point) : (s.setPts i ps).res = s.res := by rw [State.setPts_frame]
@[simp] theorem State.setPts_ovr (i : PtIdx) (ps : List Point) : (s.setPts i ps).ovr = s.ovr := by rw [State.setPts_frame]
@[simp] theorem State.setPts_errcode (i : PtIdx) (ps : List Point) : (s.setPts i ps).errcode = s.errcode := by rw [State.setPts_frame]
@[simp] theorem State.setPts_errcmd (i : PtIdx) (ps : List Point) : (s.setPts i ps).errcmd = s.errcmd := by rw [State.setPts_frame]
@[simp] theorem State.setPts_ie (i : PtIdx) (ps : List Point) : (s.setPts i ps).ie = s.ie := by rw [State.setPts_frame]
@[simp] theorem State.setPts_wlog2 (i : PtIdx) (ps : List Point) : (s.setPts i ps).wlog2 = s.wlog2 := by rw [State.setPts_frame]
@[simp] theorem State.setPts_recid (i : PtIdx) (ps : List Point) : (s.setPts i ps).recid = s.recid := by rw [State.setPts_frame]
@[simp] theorem State.setPts_olen (i : PtIdx) (ps : List Point) : (s.setPts i ps).olen = s.olen := by rw [State.setPts_frame]
@[simp] theorem State.setPts_drbgcnt (i : PtIdx) (ps : List Point) : (s.setPts i ps).drbgcnt = s.drbgcnt := by rw [State.setPts_frame]
@[simp] theorem State.setPts_cache (i : PtIdx) (ps : List Point) : (s.setPts i ps).cache = s.cache := by rw [State.setPts_frame]
@[simp] theorem State.setPts_inflight (i : PtIdx) (ps : List Point) : (s.setPts i ps).inflight = s.inflight := by rw [State.setPts_frame]
@[simp] theorem State.setPts_epoch (i : PtIdx) (ps : List Point) : (s.setPts i ps).epoch = s.epoch := by rw [State.setPts_frame]
@[simp] theorem State.setPts_draws (i : PtIdx) (ps : List Point) : (s.setPts i ps).draws = s.draws := by rw [State.setPts_frame]
@[simp] theorem State.setPts_host (i : PtIdx) (ps : List Point) : (s.setPts i ps).host = s.host := by rw [State.setPts_frame]
@[simp] theorem State.setPts_reply (i : PtIdx) (ps : List Point) : (s.setPts i ps).reply = s.reply := by rw [State.setPts_frame]

end Sys2Proof.Machine
end

