-- ==== Sys2Proof/Laws/Memory.lean ====
section
/-! SUPPORT. BUF: a read after a write, and the canonical form of the list of written bytes. -/

namespace Sys2Proof.Machine

/-- A read of one byte after a write of one byte (20_memory R93). -/
theorem Mem.get?_set (m : Mem) (a : Nat) (b : Byte) (x : Nat) :
    Mem.get? (Mem.set m a b) x = if x = a then some b else Mem.get? m x := by
  induction m with
  | nil => simp only [Mem.set, Mem.get?]; split <;> simp_all [eq_comm]
  | cons c m ih =>
    obtain ⟨y, v⟩ := c
    simp only [Mem.set]
    split
    · simp only [Mem.get?]; by_cases hx : a = x <;> simp [hx, eq_comm]
    · split
      · rename_i hay; subst hay
        simp only [Mem.get?]; by_cases hx : a = x <;> simp [hx, eq_comm]
      · simp only [Mem.get?, ih]
        by_cases hy : y = x
        · subst hy; simp; omega
        · simp [hy]

/-- Every listed address after a write was listed before or is the one written. -/
theorem Mem.mem_set {m : Mem} {a : Nat} {b : Byte} {c : Host.Cell} (h : c ∈ Mem.set m a b) : c = (a, b) ∨ c ∈ m := by
  induction m with
  | nil => simpa [Mem.set] using h
  | cons d m ih =>
    obtain ⟨y, v⟩ := d
    simp only [Mem.set] at h
    split at h
    · simpa using h
    · split at h
      · rcases List.mem_cons.mp h with h | h
        · exact .inl h
        · exact .inr (List.mem_cons_of_mem _ h)
      · rcases List.mem_cons.mp h with h | h
        · exact .inr (h ▸ List.mem_cons_self)
        · exact (ih h).imp id (List.mem_cons_of_mem _)

/-- A write keeps the addresses strictly rising. -/
theorem Mem.set_pairwise (m : Mem) (a : Nat) (b : Byte) (h : m.Pairwise (fun c c' => c.1 < c'.1)) :
    (Mem.set m a b).Pairwise (fun c c' => c.1 < c'.1) := by
  induction m with
  | nil => simp [Mem.set]
  | cons d m ih =>
    obtain ⟨y, v⟩ := d
    have h' := List.pairwise_cons.mp h
    simp only [Mem.set]
    split
    · rename_i hay
      refine List.pairwise_cons.mpr ⟨fun c hc => ?_, h⟩
      rcases List.mem_cons.mp hc with rfl | hc
      · exact hay
      · exact lt_trans hay (h'.1 c hc)
    · split
      · rename_i hay; subst hay
        exact List.pairwise_cons.mpr ⟨fun c hc => h'.1 c hc, h'.2⟩
      · refine List.pairwise_cons.mpr ⟨fun c hc => ?_, ih h'.2⟩
        rcases Mem.mem_set hc with rfl | hc
        · show y < a; omega
        · exact h'.1 c hc

/-- A write inside BUF keeps the canonical form. -/
theorem Mem.wf_set {m : Mem} (h : Mem.wf m) {a : Nat} (ha : a < 4096) (b : Byte) : Mem.wf (Mem.set m a b) :=
  ⟨Mem.set_pairwise m a b h.1, fun c hc => (Mem.mem_set hc).elim (fun e => by rw [e]; exact ha) (h.2 c)⟩

/-- A write of a byte string inside BUF keeps the canonical form (20_memory R84). -/
theorem Mem.wf_setBytes {m : Mem} (h : Mem.wf m) (a : Nat) (b : List Byte) (ha : a + b.length ≤ 4096) :
    Mem.wf (Mem.setBytes m a b) := by
  induction b generalizing m a with
  | nil => exact h
  | cons x xs ih =>
    simp only [List.length_cons] at ha
    exact ih (Mem.wf_set h (by omega) x) (a + 1) (by omega)

/-- A write of a byte string keeps the addresses strictly rising. -/
theorem Mem.setBytes_pairwise (m : Mem) (a : Nat) (b : List Byte) (h : m.Pairwise (fun c c' => c.1 < c'.1)) :
    (Mem.setBytes m a b).Pairwise (fun c c' => c.1 < c'.1) := by
  induction b generalizing m a with
  | nil => exact h
  | cons x xs ih => exact ih _ (a + 1) (Mem.set_pairwise m a x h)

/-- A read of one byte after a write of a byte string: the string's byte inside it, the old byte outside (20_memory R87). -/
theorem Mem.get?_setBytes (m : Mem) (a : Nat) (b : List Byte) (x : Nat) :
    Mem.get? (Mem.setBytes m a b) x = if a ≤ x ∧ x < a + b.length then b[x - a]? else Mem.get? m x := by
  induction b generalizing m a with
  | nil => simp [Mem.setBytes]
  | cons y ys ih =>
    rw [Mem.setBytes, ih, Mem.get?_set]
    by_cases hx : x = a
    · subst hx; simp
    · by_cases h1 : a + 1 ≤ x ∧ x < a + 1 + ys.length
      · have : x - a = (x - (a + 1)) + 1 := by omega
        simp only [h1, and_self, if_true, List.length_cons, this, List.getElem?_cons_succ]
        rw [if_pos (by omega)]
      · rw [if_neg h1, if_neg hx, if_neg (by simp only [List.length_cons]; omega)]

/-- `BUF[x]` after `MemWrite` (20_memory R87). -/
theorem State.bufByte_writeBuf (s : State) (a : Nat) (b : List Byte) (x : Nat) :
    (s.writeBuf a b).bufByte x = if h' : a ≤ x ∧ x < a + b.length then b[x - a]'(by omega) else s.bufByte x := by
  simp only [State.bufByte, State.writeBuf_buf, Mem.get?_setBytes]
  split
  · rename_i h'; rw [List.getElem?_eq_getElem (by omega)]; rfl
  · rfl

/-- `MemRead` right after `MemWrite` of the same bytes gives them back. -/
theorem State.readBuf_writeBuf (s : State) (a : Nat) (b : List Byte) :
    (s.writeBuf a b).readBuf a b.length = b := by
  apply List.ext_getElem
  · simp [State.readBuf]
  · intro i h1 h2
    simp only [State.readBuf, List.getElem_map, List.getElem_range]
    rw [State.bufByte_writeBuf s a b, dif_pos (by omega)]
    simp

/-- `MemRead` gives as many bytes as it is asked for. -/
@[simp] theorem State.length_readBuf (s : State) (a k : Nat) : (s.readBuf a k).length = k := by simp [State.readBuf]

/-- `be_N` gives N bytes (00_scope R14). -/
@[simp] theorem length_beBytes (n v : Nat) : (beBytes n v).length = n := by
  induction n with
  | zero => rfl
  | succ n ih => simp [beBytes, ih]

/-- `be_32` gives 32 bytes. -/
@[simp] theorem length_be32 (v : Word) : (be32 v).length = 32 := length_beBytes 32 v.toNat

/-- `be` of a byte string, byte by byte from the front. -/
theorem be_append_singleton (b : List Byte) (x : Byte) : be (b ++ [x]) = be b * 256 + x.toNat := by
  simp [be]

/-- `be` of a string of k bytes is below 2^(8k). -/
theorem be_lt (b : List Byte) : be b < 256 ^ b.length := by
  induction b using List.reverseRecOn with
  | nil => simp [be]
  | append_singleton b x ih =>
    rw [be_append_singleton, List.length_append, List.length_singleton, pow_succ]
    have := x.isLt
    omega

/-- `be` in front of a string. -/
theorem be_cons (x : Byte) (b : List Byte) : be (x :: b) = x.toNat * 256 ^ b.length + be b := by
  induction b using List.reverseRecOn with
  | nil => simp [be]
  | append_singleton b y ih =>
    rw [← List.cons_append, be_append_singleton, ih, be_append_singleton, List.length_append, List.length_singleton, pow_succ]
    ring

/-- `be(be_N(v)) = v` for a v that fits (00_scope R14). -/
theorem be_beBytes (n v : Nat) (h : v < 256 ^ n) : be (beBytes n v) = v := by
  suffices ∀ n v, be (beBytes n v) = v % 256 ^ n by rw [this, Nat.mod_eq_of_lt h]
  intro n v
  induction n with
  | zero => simp [beBytes, be, Nat.mod_one]
  | succ n ih =>
    rw [beBytes, be_cons, ih, length_beBytes, BitVec.toNat_ofNat]
    rw [show (2 : Nat) ^ 8 = 256 from rfl, pow_succ, Nat.mod_mul]
    ring

end Sys2Proof.Machine
end

