-- ==== Sys2Proof/Laws/Ops.lean ====
section
/-! SUPPORT. One lemma per shared operation that says what it can do. -/

namespace Sys2Proof.Machine

/-- A command always answers a next state: its writes with DONE set, or the error report (60_exceptions R510). -/
theorem complete_cases (s : State) (r : Except Err State) :
    (∃ t, r = .ok t ∧ complete s r = .next t.markDone) ∨ (∃ e, r = .error e ∧ complete s r = .next (s.raise e)) := by
  cases r with
  | ok t => exact .inl ⟨t, rfl, rfl⟩
  | error e => exact .inr ⟨e, rfl, rfl⟩

@[simp] theorem complete_ok (s t : State) : complete s (.ok t) = .next t.markDone := rfl

@[simp] theorem complete_error (s : State) (e : Err) : complete s (.error e) = .next (s.raise e) := rfl

/-- A check passes exactly when its condition holds. -/
@[simp] theorem require_true (e : Err) : require true e = .ok () := rfl

@[simp] theorem require_false (e : Err) : require false e = .error e := rfl

/-- A check, then the rest of the rule. -/
theorem require_bind {α : Type} (c : Bool) (e : Err) (f : Unit → Except Err α) :
    (require c e >>= f) = if c then f () else .error e := by
  cases c <;> rfl

/-- `CheckBuf`, then the rest of the rule (20_memory R84). -/
theorem checkBuf_bind {α : Type} (addr k : Nat) (f : Unit → Except Err α) :
    (checkBuf addr k >>= f) = if addr + k ≤ 4096 then f () else .error .bufRange := by
  rw [checkBuf, require_bind]; by_cases h : addr + k ≤ 4096 <;> simp [bufSize, h]

/-- The scalar check, then the rest of the rule (43_scalar R327). -/
theorem checkScalar_bind {α : Type} (v : Word) (f : Unit → Except Err α) :
    (checkScalar v >>= f) = if 0 < v.toNat ∧ v.toNat < N then f () else .error .range := by
  rw [checkScalar, require_bind]; simp [inScalarRange]

@[simp] theorem ok_bind {α β : Type} (x : α) (f : α → Except Err β) : ((Except.ok x : Except Err α) >>= f) = f x := rfl

@[simp] theorem error_bind {α β : Type} (e : Err) (f : α → Except Err β) :
    ((Except.error e : Except Err α) >>= f) = .error e := rfl

/-- `R[j]` after `R[i] <- v`. -/
theorem State.getR_setR (s : State) (i j : RegIdx) (v : Word) : (s.setR i v).getR j = if j = i then v else s.getR j := by
  simp only [State.getR, State.setR, Fin.getElem_fin, Vector.getElem_set, Fin.ext_iff, eq_comm]

@[simp] theorem State.getR_setR_same (s : State) (i : RegIdx) (v : Word) : (s.setR i v).getR i = v := by
  simp [State.getR_setR]

/-- `Q[j]` after `Q[i] <- p`. -/
theorem State.getQ_setQ (s : State) (i j : PtIdx) (p : Point) : (s.setQ i p).getQ j = if j = i then p else s.getQ j := by
  simp only [State.getQ, State.setQ, Fin.getElem_fin, Vector.getElem_set, Fin.ext_iff, eq_comm]

@[simp] theorem State.getQ_setQ_same (s : State) (i : PtIdx) (p : Point) : (s.setQ i p).getQ i = p := by
  simp [State.getQ_setQ]

/-- `R[j]` after a multi-register write that does not reach j (10_state R33). -/
theorem State.getR_setRegs_of_ne (s : State) (i j : RegIdx) (vs : List Word)
    (h : ∀ m, m < vs.length → j ≠ i + Fin.ofNat 16 m) : (s.setRegs i vs).getR j = s.getR j := by
  induction vs generalizing i s with
  | nil => rfl
  | cons v vs ih =>
    rw [State.setRegs, ih, State.getR_setR, if_neg]
    · have := h 0 (by simp)
      simpa using this
    · intro m hm
      have := h (m + 1) (by simpa using hm)
      rw [show i + 1 + Fin.ofNat 16 m = i + Fin.ofNat 16 (m + 1) by
        apply Fin.ext; simp [Fin.val_add]; omega]
      exact this

/-- `R[i+m]` after a multi-register write of at most 16 values: the m-th value (10_state R33). -/
theorem State.getR_setRegs (s : State) (i : RegIdx) (vs : List Word) (hl : vs.length ≤ 16) (m : Nat) (hm : m < vs.length) :
    (s.setRegs i vs).getR (i + Fin.ofNat 16 m) = vs[m] := by
  induction vs generalizing i s m with
  | nil => simp at hm
  | cons v vs ih =>
    rw [State.setRegs]
    cases m with
    | zero =>
      have h0 : i + Fin.ofNat 16 0 = i := by apply Fin.ext; simp
      rw [h0, State.getR_setRegs_of_ne, State.getR_setR_same]; · rfl
      intro k hk hc
      have hc' := congrArg Fin.val hc
      simp only [List.length_cons] at hl
      simp [Fin.val_add] at hc'
      omega
    | succ m =>
      have := ih (s.setR i v) (i + 1) (by simp only [List.length_cons] at hl; omega) m (by simpa using hm)
      rw [show i + 1 + Fin.ofNat 16 m = i + Fin.ofNat 16 (m + 1) by
        apply Fin.ext; simp [Fin.val_add]; omega] at this
      simpa using this

/-- `Q[j]` after a multi-point write that does not reach j. -/
theorem State.getQ_setPts_of_ne (s : State) (i j : PtIdx) (ps : List Point)
    (h : ∀ m, m < ps.length → j ≠ i + Fin.ofNat 16 m) : (s.setPts i ps).getQ j = s.getQ j := by
  induction ps generalizing i s with
  | nil => rfl
  | cons v vs ih =>
    rw [State.setPts, ih, State.getQ_setQ, if_neg]
    · have := h 0 (by simp)
      simpa using this
    · intro m hm
      have := h (m + 1) (by simpa using hm)
      rw [show i + 1 + Fin.ofNat 16 m = i + Fin.ofNat 16 (m + 1) by
        apply Fin.ext; simp [Fin.val_add]; omega]
      exact this

/-- `Q[i+m]` after a multi-point write of at most 16 points: the m-th point. -/
theorem State.getQ_setPts (s : State) (i : PtIdx) (ps : List Point) (hl : ps.length ≤ 16) (m : Nat) (hm : m < ps.length) :
    (s.setPts i ps).getQ (i + Fin.ofNat 16 m) = ps[m] := by
  induction ps generalizing i s m with
  | nil => simp at hm
  | cons v vs ih =>
    rw [State.setPts]
    cases m with
    | zero =>
      have h0 : i + Fin.ofNat 16 0 = i := by apply Fin.ext; simp
      rw [h0, State.getQ_setPts_of_ne, State.getQ_setQ_same]; · rfl
      intro k hk hc
      have hc' := congrArg Fin.val hc
      simp only [List.length_cons] at hl
      simp [Fin.val_add] at hc'
      omega
    | succ m =>
      have := ih (s.setQ i v) (i + 1) (by simp only [List.length_cons] at hl; omega) m (by simpa using hm)
      rw [show i + 1 + Fin.ofNat 16 m = i + Fin.ofNat 16 (m + 1) by
        apply Fin.ext; simp [Fin.val_add]; omega] at this
      simpa using this

/-- What an encoder's output step answers (44_codec R370). -/
theorem State.emit_eq (s : State) (addr : BitVec 12) (out : List Byte) :
    s.emit addr out = if addr.toNat + out.length ≤ 4096 then .ok (s.writeBuf addr.toNat out) else .error .bufRange := by
  rw [State.emit, checkBuf_bind]

/-- What the output step of PTENC and DERENC answers (10_state R47). -/
theorem State.emitWithLength_eq (s : State) (addr : BitVec 12) (out : List Byte) :
    s.emitWithLength addr out =
      if addr.toNat + out.length ≤ 4096 then
        .ok { s.writeBuf addr.toNat out with olen := BitVec.ofNat 13 out.length }
      else .error .bufRange := by
  rw [State.emitWithLength, State.emit_eq]; split <;> rfl

/-- What a fixed-length decoder's input step answers (44_codec R370). -/
theorem State.fetchExact_eq (s : State) (addr len : BitVec 12) (k : Nat) :
    s.fetchExact addr len k =
      if addr.toNat + len.toNat ≤ 4096 then
        if len.toNat = k then .ok (s.readBuf addr.toNat k) else .error .encoding
      else .error .bufRange := by
  rw [State.fetchExact, checkBuf_bind, require_bind]; simp

/-- What the hash input of an ECDSA command answers (45_ecdsa R420, R426). -/
theorem State.fetchHash_eq (s : State) (addr len : BitVec 12) (extra : Nat) :
    s.fetchHash addr len extra =
      if addr.toNat + (len.toNat + extra) ≤ 4096 then
        if len.toNat = 0 then .error .encoding else .ok (s.readBuf addr.toNat len.toNat)
      else .error .bufRange := by
  rw [State.fetchHash, checkBuf_bind, require_bind]
  by_cases h : len.toNat = 0 <;> simp [h]

/-- What the checks of ESIGN answer, in their order (45_ecdsa R426). -/
theorem esignInput_eq (a : RegIdx) (addr len : BitVec 12) (ent : BitVec 2) (s : State) :
    esignInput a addr len ent s =
      if ent.toNat = 3 then .error .illegal
      else if addr.toNat + (len.toNat + if ent.toNat = 1 then 32 else 0) ≤ 4096 then
        if len.toNat = 0 then .error .encoding
        else if inScalarRange (s.getR a) then .ok (s.readBuf addr.toNat len.toNat) else .error .range
      else .error .bufRange := by
  rw [esignInput, require_bind, State.fetchHash_eq]
  generalize (if ent.toNat = 1 then 32 else 0) = extra
  by_cases h3 : ent.toNat = 3 <;> by_cases h1 : addr.toNat + (len.toNat + extra) ≤ 4096 <;>
    simp only [h3, h1, if_true, if_false, bne_iff_ne, ne_eq, not_true_eq_false, not_false_eq_true, checkScalar, require_bind, error_bind]
  all_goals (first | rfl | (by_cases h2 : len.toNat = 0 <;> simp only [h2, if_true, if_false, error_bind, ok_bind]))

/-- What the checks of SSIGN answer, in their order (46_schnorr R452). -/
theorem ssignInput_eq (a : RegIdx) (addr len : BitVec 12) (auxbuf : Bool) (s : State) :
    ssignInput a addr len auxbuf s =
      if addr.toNat + (len.toNat + if auxbuf then 32 else 0) ≤ 4096 then
        if inScalarRange (s.getR a) then .ok (s.readBuf addr.toNat len.toNat) else .error .range
      else .error .bufRange := by
  rw [ssignInput, checkBuf_bind, checkScalar, require_bind]

/-- What AssertValid answers (42_curve R275). -/
theorem assertValid_eq (t : Point) : assertValid t = if valid (aff t) then .ok (aff t) else .error .point := rfl

/-- The product's destination (43_scalar R333, R334): only Q[D] and the count of draws change. -/
theorem State.setProduct_frame (s : State) (d : PtIdx) (t p : Point) :
    s.setProduct d t p = { s with q := (s.setProduct d t p).q, draws := (s.setProduct d t p).draws } := by
  rw [State.setProduct]; split <;> rfl

/-- A step is one host move or the engine's turn (20_memory R93). -/
theorem step_cases (s : State) :
    (s.host = [] ∧ step s = engineTurn s) ∨
    (∃ rest, s.host = .pass :: rest ∧ step s = engineTurn { s with host := rest }) ∨
    (∃ op rest, s.host = op :: rest ∧ op ≠ .pass ∧ step s = .next ({ s with host := rest }.hostMove op)) := by
  rcases h : s.host with _ | ⟨op, rest⟩
  · exact .inl ⟨rfl, by simp [step, h]⟩
  · by_cases hp : op = .pass
    · subst hp; exact .inr (.inl ⟨rest, rfl, by simp [step, h]⟩)
    · refine .inr (.inr ⟨op, rest, rfl, hp, ?_⟩)
      cases op <;> first | exact absurd rfl hp | simp [step, h]

end Sys2Proof.Machine
end

