-- ==== Sys2Proof/Laws/Arith.lean ====
section
/-! SUPPORT. Field and scalar operations as arithmetic on natural numbers and in Z/P: sums, products, powers, inverses and batch
inversion (41_field R230 to R240, 43_scalar R320 to R325). -/

namespace Sys2Proof.Machine

theorem P_pos : 0 < P := by decide

theorem N_pos : 0 < N := by decide

theorem P_lt : P < 2 ^ 256 := by decide

theorem N_lt_P : N < P := by decide

/-- P = 2^256 - 2^32 - 977 (10_state R48). -/
theorem P_eq : P = 2 ^ 256 - 2 ^ 32 - 977 := by decide

/-- HALF_N = n div 2 (10_state R48). -/
theorem halfN_eq : halfN = N / 2 := by decide

theorem F_lt (v : Word) : F v < P := Nat.mod_lt _ P_pos

@[simp] theorem modP_toNat (v : Nat) : (modP v).toNat = v % P := by
  rw [modP, BitVec.toNat_ofNat, Nat.mod_eq_of_lt (lt_trans (Nat.mod_lt _ P_pos) P_lt)]

@[simp] theorem modN_toNat (v : Nat) : (modN v).toNat = v % N := by
  rw [modN, BitVec.toNat_ofNat, Nat.mod_eq_of_lt (lt_trans (Nat.mod_lt _ N_pos) (lt_trans N_lt_P P_lt))]

/-- A value below P is its own reduction (R230). -/
theorem F_of_lt {v : Word} (h : v.toNat < P) : F v = v.toNat := Nat.mod_eq_of_lt h

theorem fAdd_toNat (a b : Word) : (fAdd a b).toNat = (F a + F b) % P := modP_toNat _

theorem fSub_toNat (a b : Word) : (fSub a b).toNat = (F a + (P - F b)) % P := modP_toNat _

theorem fMul_toNat (a b : Word) : (fMul a b).toNat = F a * F b % P := modP_toNat _

theorem fNeg_toNat (a : Word) : (fNeg a).toNat = (P - F a) % P := modP_toNat _

/-- Every result of the field unit is canonical (R230). -/
theorem modP_lt (v : Nat) : (modP v).toNat < P := by rw [modP_toNat]; exact Nat.mod_lt _ P_pos

theorem fAdd_lt (a b : Word) : (fAdd a b).toNat < P := modP_lt _

theorem fSub_lt (a b : Word) : (fSub a b).toNat < P := modP_lt _

theorem fMul_lt (a b : Word) : (fMul a b).toNat < P := modP_lt _

theorem fNeg_lt (a : Word) : (fNeg a).toNat < P := modP_lt _

theorem fPow_lt (a : Word) (e : Nat) : (fPow a e).toNat < P := modP_lt _

theorem fInv_lt (a : Word) : (fInv a).toNat < P := modP_lt _

theorem egcd_zero_right (f r0 : Nat) (s0 s1 : Int) : egcd f r0 0 s0 s1 = s0 := by
  cases f <;> simp [egcd]

theorem egcd_succ (f r0 r1 : Nat) (s0 s1 : Int) (h : r1 ≠ 0) :
    egcd (f + 1) r0 r1 s0 s1 = egcd f r1 (r0 % r1) s1 (s0 - (r0 / r1 : Nat) * s1) := by
  rw [egcd, if_neg h]

theorem dvd_egcd_step {m a : Int} {r0 r1 : Nat} {s0 s1 : Int} (h0 : m ∣ s0 * a - r0) (h1 : m ∣ s1 * a - r1) :
    m ∣ (s0 - (r0 / r1 : Nat) * s1) * a - (r0 % r1 : Nat) := by
  have h : ((r0 % r1 : Nat) : Int) = r0 - r1 * (r0 / r1 : Nat) := by
    have := Nat.div_add_mod r0 r1; push_cast at *; zify at this; linarith
  have e : (s0 - (r0 / r1 : Nat) * s1) * a - (r0 % r1 : Nat) = (s0 * a - r0) - (r0 / r1 : Nat) * (s1 * a - r1) := by
    rw [h]; ring
  rw [e]; exact Int.dvd_sub h0 (Dvd.dvd.mul_left h1 _)

/-- 2k steps of the Euclidean algorithm are enough for a larger remainder below 2^k (log 14): the answer times a is the gcd mod m. -/
theorem egcd_spec (m a : Int) :
    ∀ (k f r0 r1 : Nat) (s0 s1 : Int), r1 < r0 → r0 < 2 ^ k → 2 * k ≤ f →
      m ∣ s0 * a - r0 → m ∣ s1 * a - r1 → m ∣ egcd f r0 r1 s0 s1 * a - Nat.gcd r0 r1 := by
  intro k
  induction k with
  | zero => intro f r0 r1 s0 s1 h h'; omega
  | succ k ih =>
    intro f r0 r1 s0 s1 hlt hk hf h0 h1
    obtain ⟨f, rfl⟩ : ∃ g, f = g + 2 := ⟨f - 2, by omega⟩
    by_cases hr1 : r1 = 0
    · subst hr1; rw [egcd_zero_right, Nat.gcd_zero_right]; exact h0
    rw [egcd_succ _ _ _ _ _ hr1, Nat.gcd_comm, Nat.gcd_rec, Nat.gcd_comm]
    have h2 := dvd_egcd_step h0 h1
    by_cases hr2 : r0 % r1 = 0
    · rw [hr2, egcd_zero_right, Nat.gcd_zero_right]; exact h1
    rw [egcd_succ _ _ _ _ _ hr2, Nat.gcd_comm, Nat.gcd_rec, Nat.gcd_comm]
    refine ih f _ _ _ _ (Nat.mod_lt _ (by omega)) ?_ (by omega) h2 (dvd_egcd_step h1 h2)
    have hm := Nat.mod_lt r0 (Nat.pos_of_ne_zero hr1)
    have hd := Nat.div_add_mod r0 r1
    have : r1 ≤ r1 * (r0 / r1) := Nat.le_mul_of_pos_right _ (Nat.div_pos hlt.le (by omega))
    rw [pow_succ] at hk; omega

/-- What `invMod` is for (41_field R238, 43_scalar R325): the inverse of a number coprime to the modulus. -/
theorem invMod_spec (a m : Nat) (hm : 1 < m) (h256 : m < 2 ^ 256) (ha : a < m) (hg : Nat.gcd a m = 1) :
    invMod a m < m ∧ a * invMod a m % m = 1 := by
  have h := egcd_spec m a 256 512 m a 0 1 ha h256 (by omega) (by simp) (by simp)
  rw [Nat.gcd_comm, hg] at h
  have hm0 : (m : Int) ≠ 0 := by omega
  have hn := Int.emod_nonneg (egcd 512 m a 0 1) hm0
  have hl := Int.emod_lt_of_pos (egcd 512 m a 0 1) (show (0 : Int) < m by omega)
  have hc : ((invMod a m : Nat) : Int) = egcd 512 m a 0 1 % m := Int.toNat_of_nonneg hn
  refine ⟨by zify; rw [hc]; exact hl, ?_⟩
  zify
  rw [hc, Int.mul_emod, Int.emod_emod_of_dvd _ (dvd_refl _), ← Int.mul_emod, mul_comm]
  have := (Int.emod_emod_of_dvd (egcd 512 m a 0 1 * a) (dvd_refl (m : Int)))
  rw [Int.emod_eq_emod_iff_emod_sub_eq_zero.mpr (Int.emod_eq_zero_of_dvd h)]
  exact Int.emod_eq_of_lt (by norm_num) (by exact_mod_cast hm)

theorem P_gt_one : 1 < P := by decide
theorem N_gt_one : 1 < N := by decide
theorem N_lt : N < 2 ^ 256 := lt_trans N_lt_P P_lt

/-- `inv_P` of a value coprime to P (41_field R238). -/
theorem fInv_spec (a : Word) (h : Nat.gcd (F a) P = 1) : F a * (fInv a).toNat % P = 1 := by
  have := invMod_spec (F a) P P_gt_one P_lt (F_lt a) h
  rw [fInv, modP_toNat, Nat.mod_eq_of_lt this.1]; exact this.2

/-- `inv_n` of a value coprime to n (43_scalar R325). -/
theorem nInv_spec (a : Nat) (h : Nat.gcd (a % N) N = 1) : nInv a < N ∧ a * nInv a % N = 1 := by
  have := invMod_spec (a % N) N N_gt_one N_lt (Nat.mod_lt _ N_pos) h
  refine ⟨this.1, ?_⟩
  rw [nInv, Nat.mul_mod, Nat.mod_eq_of_lt this.1]
  simpa using this.2

/-- The loop of R237. -/
theorem powLoop_spec (b e i t : Nat) (ht : t < P) : powLoop b e i t = t ^ 2 ^ i * b ^ (e % 2 ^ i) % P := by
  induction i generalizing t with
  | zero => simp [powLoop, Nat.mod_one, Nat.mod_eq_of_lt ht]
  | succ i ih =>
    rw [powLoop]
    have he : e % 2 ^ (i + 1) = e % 2 ^ i + 2 ^ i * (if e.testBit i then 1 else 0) := by
      rw [Nat.mod_pow_succ, ← Nat.toNat_testBit]; cases e.testBit i <;> rfl
    have hp : ∀ x y : Nat, (x % P) ^ 2 ^ i * y % P = x ^ 2 ^ i * y % P := fun x y => by
      rw [Nat.mul_mod, ← Nat.pow_mod, ← Nat.mul_mod]
    have h2 : t ^ 2 ^ (i + 1) = (t * t) ^ 2 ^ i := by rw [pow_succ, pow_mul', pow_two]
    split <;> rename_i hb
    · rw [ih _ (Nat.mod_lt _ P_pos), hp, he, if_pos hb, h2, Nat.mul_pow, mul_assoc, hp, mul_one, pow_add]
      congr 1; ring
    · rw [ih _ (Nat.mod_lt _ P_pos), hp, he, if_neg hb, mul_zero, add_zero, h2]

/-- Field exponentiation with a raw exponent below 2^256 (41_field R237). -/
theorem fPow_toNat (a : Word) (e : Nat) (he : e < 2 ^ 256) : (fPow a e).toNat = a.toNat ^ e % P := by
  rw [fPow, modP_toNat, powLoop_spec _ _ _ _ P_gt_one, one_pow, one_mul, Nat.mod_eq_of_lt he, Nat.mod_mod, F, ← Nat.pow_mod]


/-- The residue class mod P of a register value. -/
abbrev residue (v : Word) : ZMod P := (v.toNat : ZMod P)

@[simp] theorem natCast_F (v : Word) : ((F v : Nat) : ZMod P) = residue v := by rw [F, ZMod.natCast_mod]

theorem residue_modP (v : Nat) : residue (modP v) = (v : ZMod P) := by rw [residue, modP_toNat, ZMod.natCast_mod]

theorem residue_fAdd (a b : Word) : residue (fAdd a b) = residue a + residue b := by rw [fAdd, residue_modP]; push_cast; simp

theorem residue_fMul (a b : Word) : residue (fMul a b) = residue a * residue b := by rw [fMul, residue_modP]; push_cast; simp

theorem residue_fSqr (a : Word) : residue (fSqr a) = residue a ^ 2 := by rw [fSqr, residue_fMul, pow_two]

theorem residue_fSub (a b : Word) : residue (fSub a b) = residue a - residue b := by
  rw [fSub, residue_modP, Nat.cast_add, Nat.cast_sub (F_lt b).le]; simp [sub_eq_add_neg]

theorem residue_fNeg (a : Word) : residue (fNeg a) = -residue a := by
  rw [fNeg, residue_modP, Nat.cast_sub (F_lt a).le]; simp

theorem residue_weierstrass (x : Word) : residue (weierstrass x) = residue x ^ 3 + 7 := by
  rw [weierstrass, residue_fAdd, residue_fMul, residue_fSqr, ← pow_succ]; simp [residue]

/-- Two canonical values of one residue class are equal. -/
theorem eq_of_residue {a b : Word} (ha : a.toNat < P) (hb : b.toNat < P) (h : residue a = residue b) : a = b := by
  have := (ZMod.natCast_eq_natCast_iff' _ _ _).mp h
  rw [Nat.mod_eq_of_lt ha, Nat.mod_eq_of_lt hb] at this
  exact BitVec.eq_of_toNat_eq this

theorem residue_eq_iff (a b : Nat) : (a : ZMod P) = b ↔ a % P = b % P := ZMod.natCast_eq_natCast_iff' _ _ _

/-- Two register values are inverse to each other mod P. -/
theorem residue_mul_eq_one_iff (a b : Word) : residue a * residue b = 1 ↔ a.toNat * b.toNat % P = 1 := by
  have h := residue_eq_iff (a.toNat * b.toNat) 1
  rw [Nat.mod_eq_of_lt P_gt_one] at h
  rw [← h]; push_cast; rfl

/-- Batch inversion's backward pass on the pairs of the forward pass (41_field R240): from an inverse of the whole product it gives an
inverse of the product before, and each element's inverse, 0 for a zero one. -/
theorem batchBack_forward (vs : List Word) (acc inv : Word) (h : residue inv * residue (batchForward vs acc).2 = 1) :
    residue (batchBack (batchForward vs acc).1 inv).2 * residue acc = 1 ∧
    ∀ i < vs.length,
      (vs.getD i 0 = 0 → (batchBack (batchForward vs acc).1 inv).1.getD i 0 = 0) ∧
      (vs.getD i 0 ≠ 0 → ((batchBack (batchForward vs acc).1 inv).1.getD i 0).toNat < P ∧
        residue (vs.getD i 0) * residue ((batchBack (batchForward vs acc).1 inv).1.getD i 0) = 1) := by
  induction vs generalizing acc with
  | nil => exact ⟨h, fun i hi => absurd hi (by simp)⟩
  | cons v vs ih =>
    simp only [batchForward] at h ⊢
    obtain ⟨h1, h2⟩ := ih _ h
    simp only [batchBack]
    by_cases hv : v = 0
    · simp only [hv, if_true] at h1 h2 ⊢
      refine ⟨h1, fun i hi => ?_⟩
      cases i with
      | zero => simp
      | succ i => simpa using h2 i (by simpa using hi)
    · simp only [hv, if_false] at h1 h2 ⊢
      rw [residue_fMul] at h1
      refine ⟨by rw [residue_fMul]; linear_combination h1, fun i hi => ?_⟩
      cases i with
      | zero =>
        refine ⟨fun h0 => absurd h0 hv, fun _ => ⟨fMul_lt _ _, ?_⟩⟩
        simp only [List.getD_cons_zero, residue_fMul]; linear_combination h1
      | succ i => simpa using h2 i (by simpa using hi)

theorem length_batchBack (ps : List (Word × Word)) (inv : Word) : (batchBack ps inv).1.length = ps.length := by
  induction ps with
  | nil => rfl
  | cons p ps ih => obtain ⟨v, t⟩ := p; simp only [batchBack]; split <;> simp [ih]

theorem length_batchForward (vs : List Word) (acc : Word) : (batchForward vs acc).1.length = vs.length := by
  induction vs generalizing acc with
  | nil => rfl
  | cons v vs ih => simp [batchForward, ih]

@[simp] theorem length_batchInv (vs : List Word) : (batchInv vs).length = vs.length := by
  simp [batchInv, length_batchBack, length_batchForward]

/-- The product of the elements that are not 0 is coprime to P when each of them is. -/
theorem batchForward_coprime (vs : List Word) (acc : Word) (ha : Nat.Coprime acc.toNat P)
    (h : ∀ v ∈ vs, v = 0 ∨ Nat.Coprime v.toNat P) : Nat.Coprime (batchForward vs acc).2.toNat P := by
  induction vs generalizing acc with
  | nil => exact ha
  | cons v vs ih =>
    simp only [batchForward]
    refine ih _ ?_ fun w hw => h w (List.mem_cons_of_mem _ hw)
    split
    · exact ha
    · rename_i hv
      have hvP := (h v List.mem_cons_self).resolve_left hv
      have hm : ∀ x : Nat, Nat.gcd (x % P) P = Nat.gcd x P := fun x => by rw [← Nat.gcd_rec, Nat.gcd_comm]
      rw [fMul_toNat, F, F, ← Nat.mul_mod, Nat.Coprime, hm]
      exact Nat.Coprime.mul_left ha hvP

/-- Batch inversion (41_field R240): element by element the inverse, 0 for a zero element. -/
theorem batchInv_spec (vs : List Word) (h : ∀ v ∈ vs, F v = 0 ∨ Nat.gcd (F v) P = 1) (i : Nat) (hi : i < vs.length) :
    (F (vs.getD i 0) = 0 → (batchInv vs).getD i 0 = 0) ∧
    (F (vs.getD i 0) ≠ 0 → ((batchInv vs).getD i 0).toNat < P ∧ F (vs.getD i 0) * ((batchInv vs).getD i 0).toNat % P = 1) := by
  have hz : ∀ v : Word, modP (F v) = 0 ↔ F v = 0 := fun v => by
    rw [← BitVec.toNat_inj, modP_toNat, Nat.mod_eq_of_lt (F_lt v)]; simp
  have hr : ∀ v : Word, (modP (F v)).toNat = F v := fun v => by rw [modP_toNat, Nat.mod_eq_of_lt (F_lt v)]
  have hcop := batchForward_coprime (vs.map fun v => modP (F v)) 1 (by decide) (by
    intro w hw
    obtain ⟨v, hv, rfl⟩ := List.mem_map.mp hw
    rw [hz, hr]; exact h v hv)
  have hlt : ∀ (ws : List Word) (acc : Word), acc.toNat < P → (batchForward ws acc).2.toNat < P := by
    intro ws
    induction ws with
    | nil => exact fun acc ha => ha
    | cons w ws ih => intro acc ha; simp only [batchForward]; apply ih; split <;> [exact ha; exact fMul_lt _ _]
  have hF := F_of_lt (hlt (vs.map fun v => modP (F v)) 1 (by decide))
  have hinv := fInv_spec (batchForward (vs.map fun v => modP (F v)) 1).2 (by rw [hF]; exact hcop)
  have hone : residue (fInv (batchForward (vs.map fun v => modP (F v)) 1).2) *
      residue (batchForward (vs.map fun v => modP (F v)) 1).2 = 1 := by
    rw [hF] at hinv
    rw [mul_comm, residue_mul_eq_one_iff, hinv]
  obtain ⟨-, hi'⟩ := batchBack_forward _ _ _ hone
  have hget : (vs.map fun v => modP (F v)).getD i 0 = modP (F (vs.getD i 0)) := by
    simp [List.getD_eq_getElem?_getD, List.getElem?_eq_getElem hi]
  have hgo := hi' i (by simpa using hi)
  rw [hget, ne_eq, hz] at hgo
  refine ⟨hgo.1, fun hne => ⟨(hgo.2 hne).1, ?_⟩⟩
  have h1 := (hgo.2 hne).2
  rw [residue_mul_eq_one_iff, hr] at h1
  exact h1

end Sys2Proof.Machine
end

