-- ==== Sys2Proof/Laws/Codec.lean ====
section
/-! SUPPORT. Byte strings and DER INTEGERs: what `derInt` writes `derIntDec` reads, and no other content (44_codec R371). -/

namespace Sys2Proof.Machine

theorem be_dropWhile (b : List Byte) : be (b.dropWhile (fun x => x == 0)) = be b := by
  induction b with
  | nil => rfl
  | cons x b ih =>
    rw [List.dropWhile_cons]
    split
    · rename_i hx; rw [ih, be_cons]; simp at hx; simp [hx]
    · rfl

theorem be_be32 (v : Word) : be (be32 v) = v.toNat := be_beBytes 32 v.toNat (by have := v.isLt; exact this)

/-- The content of a DER INTEGER of a nonzero v (44_codec R371): 1 to 33 bytes of value v, not negative and minimal. -/
theorem derContent_spec (v : Word) (hv : v ≠ 0) :
    be (derContent v) = v.toNat ∧ 1 ≤ (derContent v).length ∧ (derContent v).length ≤ 33 ∧
    ((derContent v).headD 0).toNat < 0x80 ∧
    ¬(2 ≤ (derContent v).length ∧ (derContent v).headD 0 = 0 ∧ ((derContent v).tail.headD 0).toNat < 0x80) := by
  have hbe : be ((be32 v).dropWhile (fun x => x == 0)) = v.toNat := by rw [be_dropWhile, be_be32]
  have hle : ((be32 v).dropWhile (fun x => x == 0)).length ≤ 32 := by
    have := (List.dropWhile_suffix (l := be32 v) (fun x => x == 0)).length_le; simpa using this
  rw [derContent]
  generalize hc : (be32 v).dropWhile (fun x => x == 0) = c at hbe hle
  cases c with
  | nil => exact absurd (BitVec.eq_of_toNat_eq (by rw [← hbe]; rfl)) hv
  | cons x c =>
    have hx : x ≠ 0 := by
      have := List.head?_dropWhile_not (fun x : Byte => x == 0) (be32 v)
      rw [hc] at this; simpa using this
    split <;> rename_i h
    · rw [List.headD_cons] at h
      refine ⟨by rw [be_cons]; simpa using hbe, by simp, by simp only [List.length_cons] at hle ⊢; omega, by simp, ?_⟩
      rintro ⟨-, -, h3⟩
      simp at h3; omega
    · rw [List.headD_cons] at h
      refine ⟨hbe, by simp, by simp at hle ⊢; omega, by simpa using h, ?_⟩
      rintro ⟨-, h2, -⟩
      exact hx (by simpa using h2)

/-- `derIntDec` gives back the value that `derInt` encoded, and the bytes after it (44_codec R371). -/
theorem derIntDec_derInt (v : Word) (hv : v ≠ 0) (rest : List Byte) : derIntDec (derInt v ++ rest) = .ok (v.toNat, rest) := by
  obtain ⟨h1, h2, h3, h4, h5⟩ := derContent_spec v hv
  rw [derInt]
  generalize derContent v = c at *
  have hl : (BitVec.ofNat 8 c.length).toNat = c.length := by rw [BitVec.toNat_ofNat, Nat.mod_eq_of_lt (by omega)]
  have hl0 : BitVec.ofNat 8 c.length ≠ 0 := fun h => by
    rw [h] at hl; simp at hl; omega
  simp only [List.cons_append, derIntDec, hl, List.take_left, List.drop_left, List.length_append]
  rw [if_neg (by simp), if_neg (by simp only [not_or]; exact ⟨hl0, by omega, by omega⟩), if_neg (by omega), if_neg h5, h1]

/-- `be` tells byte strings of one length apart. -/
theorem be_inj {a b : List Byte} (hl : a.length = b.length) (h : be a = be b) : a = b := by
  induction a generalizing b with
  | nil => exact (List.length_eq_zero_iff.mp hl.symm).symm
  | cons x a ih =>
    cases b with
    | nil => simp at hl
    | cons y b =>
      have hl' : a.length = b.length := by simpa using hl
      rw [be_cons, be_cons, hl'] at h
      have h1 := be_lt a
      have h2 := be_lt b
      rw [hl'] at h1
      have hxy : x.toNat = y.toNat := by
        have e1 := congrArg (· / 256 ^ b.length) h
        have hp : 0 < 256 ^ b.length := by positivity
        rwa [Nat.add_comm, Nat.add_mul_div_right _ _ hp, Nat.div_eq_of_lt h1, zero_add, Nat.add_comm, Nat.add_mul_div_right _ _ hp,
          Nat.div_eq_of_lt h2, zero_add] at e1
      rw [hxy] at h
      rw [BitVec.eq_of_toNat_eq hxy, ih hl' (by omega)]

/-- Two byte strings of one value with nonzero first bytes are equal. -/
theorem be_inj_of_head {x y : Byte} {a b : List Byte} (hx : x ≠ 0) (hy : y ≠ 0) (h : be (x :: a) = be (y :: b)) :
    x :: a = y :: b := by
  have lower : ∀ {z : Byte} {c : List Byte}, z ≠ 0 → 256 ^ c.length ≤ be (z :: c) := fun {z c} hz => by
    rw [be_cons]
    have : 0 < z.toNat := Nat.pos_of_ne_zero fun h0 => hz (BitVec.eq_of_toNat_eq h0)
    exact le_trans (Nat.le_mul_of_pos_left _ this) (Nat.le_add_right _ _)
  have ha := lower (c := a) hx
  have hb := lower (c := b) hy
  have ha' := be_lt (x :: a)
  have hb' := be_lt (y :: b)
  rw [List.length_cons] at ha' hb'
  have h1 : a.length < b.length + 1 := (Nat.pow_lt_pow_iff_right (by norm_num : 1 < 256)).mp (lt_of_le_of_lt (h ▸ ha) hb')
  have h2 : b.length < a.length + 1 := (Nat.pow_lt_pow_iff_right (by norm_num : 1 < 256)).mp (lt_of_le_of_lt (h ▸ hb) ha')
  exact be_inj (by simp only [List.length_cons]; omega) h

/-- A content that `derIntDec` accepts for the value v is the one that `derContent` writes (44_codec R371). -/
theorem derContent_unique (c : List Byte) (v : Word) (hv : v ≠ 0) (h1 : be c = v.toNat) (h2 : 1 ≤ c.length)
    (h4 : (c.headD 0).toNat < 0x80) (h5 : ¬(2 ≤ c.length ∧ c.headD 0 = 0 ∧ (c.tail.headD 0).toNat < 0x80)) :
    c = derContent v := by
  have hbe : be ((be32 v).dropWhile (fun x => x == 0)) = v.toNat := by rw [be_dropWhile, be_be32]
  have hv0 : v.toNat ≠ 0 := fun h => hv (BitVec.eq_of_toNat_eq h)
  rw [derContent]
  generalize hd : (be32 v).dropWhile (fun x => x == 0) = d at hbe
  cases d with
  | nil => exact absurd hbe.symm hv0
  | cons y d =>
    have hy : y ≠ 0 := by
      have := List.head?_dropWhile_not (fun x : Byte => x == 0) (be32 v)
      rw [hd] at this; simpa using this
    cases c with
    | nil => simp at h2
    | cons x c =>
      rw [List.headD_cons] at h4
      by_cases hx : x = 0
      · subst hx
        cases c with
        | nil => exact absurd h1.symm hv0
        | cons z c =>
          have hz : 0x80 ≤ z.toNat := by simpa using h5
          have hz0 : z ≠ 0 := fun h => by subst h; simp at hz
          have e : z :: c = y :: d := be_inj_of_head hz0 hy (by rw [hbe, ← h1, be_cons 0]; simp)
          rw [← e, List.headD_cons, if_pos hz]
      · have e : x :: c = y :: d := be_inj_of_head hx hy (by rw [hbe, h1])
        rw [← e, List.headD_cons, if_neg (by omega)]

/-- What `derIntDec` accepts (44_codec R371): tag, length, and a content that is neither empty, negative nor padded. -/
theorem derIntDec_ok {b : List Byte} {x : Nat} {rest : List Byte} (h : derIntDec b = .ok (x, rest)) :
    ∃ c : List Byte, b = 0x02 :: BitVec.ofNat 8 c.length :: (c ++ rest) ∧ be c = x ∧ 1 ≤ c.length ∧ c.length < 0x80 ∧ (c.headD 0).toNat < 0x80 ∧
      ¬(2 ≤ c.length ∧ c.headD 0 = 0 ∧ (c.tail.headD 0).toNat < 0x80) := by
  unfold derIntDec at h
  split at h
  · rename_i tag l body
    dsimp only at h
    split_ifs at h with h1 h2 h3 h4
    simp only [Except.ok.injEq, Prod.mk.injEq] at h
    obtain ⟨rfl, rfl⟩ := h
    push Not at h1 h2
    have hlen : (body.take l.toNat).length = l.toNat := by rw [List.length_take]; omega
    have hl0 : l.toNat ≠ 0 := fun e => h2.1 (BitVec.eq_of_toNat_eq e)
    refine ⟨body.take l.toNat, ?_, rfl, by omega, by omega, by omega, by rw [hlen]; exact h4⟩
    rw [hlen, List.take_append_drop, h1]; simp
  · cases h

/-- Every failure of `derIntDec` is E_ENCODING (44_codec R371). -/
theorem derIntDec_error {b : List Byte} {e : Err} (h : derIntDec b = .error e) : e = .encoding := by
  unfold derIntDec at h
  split at h
  · dsimp only at h; split_ifs at h <;> cases h <;> rfl
  · cases h; rfl

/-- `Sig(r, s)` (44_codec R370). -/
theorem isSig_iff (r v : Word) : isSig r v = true ↔ 0 < r.toNat ∧ r.toNat < N ∧ 0 < v.toNat ∧ v.toNat < N := by
  simp [isSig, inScalarRange, and_assoc]

end Sys2Proof.Machine
end

