-- ==== Sys2Proof/Laws/Curve.lean ====
section
/-! SUPPORT. Point operations keep coordinates below P (10_state R34), and the table's length (43_scalar R330). -/

namespace Sys2Proof.Machine

theorem zeroJ_canonical : zeroJ.Canonical := by decide

theorem pointG_canonical : pointG.Canonical := by decide

/-- `fromAff` of canonical coordinates is canonical and normalised (42_curve R270). -/
theorem fromAff_canonical (a : AffPoint) (hx : a.x.toNat < P) (hy : a.y.toNat < P) :
    (fromAff a).Canonical ∧ ((fromAff a).z = 1 ∨ fromAff a = ⟨0, 1, 0⟩) := by
  rw [fromAff]; split
  · exact ⟨zeroJ_canonical, .inr rfl⟩
  · exact ⟨⟨hx, hy, show (1 : Word).toNat < P by decide⟩, .inl rfl⟩

/-- The coordinates of `aff` are below P (42_curve R274). -/
theorem aff_lt (t : Point) : (aff t).x.toNat < P ∧ (aff t).y.toNat < P := by
  rw [aff]; split
  · exact ⟨show (0 : Word).toNat < P by decide, show (0 : Word).toNat < P by decide⟩
  · exact ⟨fMul_lt _ _, fMul_lt _ _⟩

/-- `norm` of any triple is canonical, with Z = 1 or ZERO_J (42_curve R270). -/
theorem norm_canonical (t : Point) : (norm t).Canonical ∧ ((norm t).z = 1 ∨ norm t = ⟨0, 1, 0⟩) :=
  fromAff_canonical _ (aff_lt t).1 (aff_lt t).2

theorem dbl_canonical (t : Point) : (dbl t).Canonical := ⟨fSub_lt _ _, fSub_lt _ _, fMul_lt _ _⟩

theorem add_canonical {t u : Point} (ht : t.Canonical) (hu : u.Canonical) : (add t u).Canonical := by
  unfold add; dsimp only; split_ifs
  · exact hu
  · exact ht
  · exact dbl_canonical t
  · exact zeroJ_canonical
  · exact ⟨fSub_lt _ _, fSub_lt _ _, fMul_lt _ _⟩

theorem neg_canonical {t : Point} (ht : t.Canonical) : (neg t).Canonical := ⟨ht.1, fNeg_lt _, ht.2.2⟩

theorem endo_canonical {t : Point} (ht : t.Canonical) : (endo t).Canonical := ⟨fMul_lt _ _, ht.2⟩

theorem length_multiples (p : Point) (m : Nat) (base : Point) : (multiples p m base).length = m + 1 := by
  induction m generalizing base with
  | zero => rfl
  | succ m ih => simp [multiples, ih]

theorem length_windows (half : Nat) (hh : 0 < half) (m : Nat) (p : Point) : (windows half m p).length = m * half := by
  induction m generalizing p with
  | zero => simp [windows]
  | succ m ih => simp only [windows, List.length_append, length_multiples, ih]; rw [Nat.succ_mul]; omega

/-- The table's length (43_scalar R330). -/
theorem length_precompute (t : Point) (w : Nat) : (precompute t w).length = (128 / w + 1) * 2 ^ (w - 1) :=
  length_windows _ (by positivity) _ _

end Sys2Proof.Machine
end

