-- ==== Sys2Proof/Laws/Decode.lean ====
section
/-! SUPPORT. The fields of a word put together from them (30_encoding R120). -/

namespace Sys2Proof

/-- The opcode of a word is the one it was given. -/
@[simp] theorem opcode_word (op : BitVec 8) (f : Fields) : opcode (word op f) = op := by
  apply BitVec.eq_of_getLsbD_eq; intro i hi
  simp only [opcode, word]
  interval_cases i <;> simp

theorem word_d (op : BitVec 8) (f : Fields) : (word op f).extractLsb' 52 4 = BitVec.ofFin (w := 4) f.d := by
  apply BitVec.eq_of_getLsbD_eq; intro i hi
  simp only [word]
  interval_cases i <;> simp

theorem word_a (op : BitVec 8) (f : Fields) : (word op f).extractLsb' 48 4 = BitVec.ofFin (w := 4) f.a := by
  apply BitVec.eq_of_getLsbD_eq; intro i hi
  simp only [word]
  interval_cases i <;> simp

theorem word_b (op : BitVec 8) (f : Fields) : (word op f).extractLsb' 44 4 = BitVec.ofFin (w := 4) f.b := by
  apply BitVec.eq_of_getLsbD_eq; intro i hi
  simp only [word]
  interval_cases i <;> simp

theorem word_c (op : BitVec 8) (f : Fields) : (word op f).extractLsb' 40 4 = BitVec.ofFin (w := 4) f.c := by
  apply BitVec.eq_of_getLsbD_eq; intro i hi
  simp only [word]
  interval_cases i <;> simp

theorem word_addr (op : BitVec 8) (f : Fields) : (word op f).extractLsb' 28 12 = f.addr := by
  apply BitVec.eq_of_getLsbD_eq; intro i hi
  simp only [word]
  interval_cases i <;> simp

theorem word_len (op : BitVec 8) (f : Fields) : (word op f).extractLsb' 16 12 = f.len := by
  apply BitVec.eq_of_getLsbD_eq; intro i hi
  simp only [word]
  interval_cases i <;> simp

theorem word_imm (op : BitVec 8) (f : Fields) : (word op f).extractLsb' 0 16 = f.imm := by
  apply BitVec.eq_of_getLsbD_eq; intro i hi
  simp only [word]
  interval_cases i <;> simp

/-- The fields of a word are the ones it was given. -/
@[simp] theorem ofWord_word (op : BitVec 8) (f : Fields) : Fields.ofWord (word op f) = f := by
  obtain ⟨d, a, b, c, addr, len, imm⟩ := f
  simp only [Fields.ofWord, word_d, word_a, word_b, word_c, word_addr, word_len, word_imm]

/-- A word made with a row's opcode is in the opcode table. -/
theorem rowOf_word (op : BitVec 8) (f : Fields) (h : (rowOf op).isSome = true) : (rowOf (opcode (word op f))).isSome = true := by
  rw [opcode_word]; exact h

/-- No two rows of the opcode table have the same opcode, so at most one row fits a word (R126). -/
theorem rows_pairwise : rows.Pairwise (fun r r' => r.op ≠ r'.op) := by decide +kernel

end Sys2Proof
end

