-- ==== Sys2Proof/Laws/PerInstr.lean ====
section
/-! SUPPORT. Laws stated per command: the opcode byte of every command's word is an assigned opcode (30_encoding R127). -/

namespace Sys2Proof.Laws.Opcode

/-- The opcode of the command's word is in the opcode table. -/
def Statement (i : Instr) : Prop := (rowOf (opcode (encode i))).isSome = true

theorem nop : Statement .nop := rowOf_word _ _ rfl

theorem ldi (d : RegIdx) (imm16 : BitVec 16) : Statement (.ldi d imm16) := rowOf_word _ _ rfl

theorem ldc (d : RegIdx) (k : BitVec 16) : Statement (.ldc d k) := rowOf_word _ _ rfl

theorem mov (d : RegIdx) (a : RegIdx) : Statement (.mov d a) := rowOf_word _ _ rfl

theorem ld (d : RegIdx) (addr : BitVec 12) (len : BitVec 12) : Statement (.ld d addr len) := rowOf_word _ _ rfl

theorem st (a : RegIdx) (addr : BitVec 12) (len : BitVec 12) : Statement (.st a addr len) := rowOf_word _ _ rfl

theorem csrr (d : RegIdx) (csr : BitVec 16) : Statement (.csrr d csr) := rowOf_word _ _ rfl

theorem csrw (a : RegIdx) (csr : BitVec 16) : Statement (.csrw a csr) := rowOf_word _ _ rfl

theorem rcmp (a : RegIdx) (b : RegIdx) : Statement (.rcmp a b) := rowOf_word _ _ rfl

theorem rodd (a : RegIdx) : Statement (.rodd a) := rowOf_word _ _ rfl

theorem fadd (d : RegIdx) (a : RegIdx) (b : RegIdx) : Statement (.fadd d a b) := rowOf_word _ _ rfl

theorem fsub (d : RegIdx) (a : RegIdx) (b : RegIdx) : Statement (.fsub d a b) := rowOf_word _ _ rfl

theorem fmul (d : RegIdx) (a : RegIdx) (b : RegIdx) : Statement (.fmul d a b) := rowOf_word _ _ rfl

theorem fsqr (d : RegIdx) (a : RegIdx) : Statement (.fsqr d a) := rowOf_word _ _ rfl

theorem fneg (d : RegIdx) (a : RegIdx) : Statement (.fneg d a) := rowOf_word _ _ rfl

theorem fpow (d : RegIdx) (a : RegIdx) (b : RegIdx) : Statement (.fpow d a b) := rowOf_word _ _ rfl

theorem finv (d : RegIdx) (a : RegIdx) : Statement (.finv d a) := rowOf_word _ _ rfl

theorem fsqrt (d : RegIdx) (a : RegIdx) : Statement (.fsqrt d a) := rowOf_word _ _ rfl

theorem fbinv (d : RegIdx) (a : RegIdx) (cnt : BitVec 5) : Statement (.fbinv d a cnt) := rowOf_word _ _ rfl

theorem fred (d : RegIdx) (a : RegIdx) : Statement (.fred d a) := rowOf_word _ _ rfl

theorem nadd (d : RegIdx) (a : RegIdx) (b : RegIdx) : Statement (.nadd d a b) := rowOf_word _ _ rfl

theorem nsub (d : RegIdx) (a : RegIdx) (b : RegIdx) : Statement (.nsub d a b) := rowOf_word _ _ rfl

theorem nmul (d : RegIdx) (a : RegIdx) (b : RegIdx) : Statement (.nmul d a b) := rowOf_word _ _ rfl

theorem nneg (d : RegIdx) (a : RegIdx) : Statement (.nneg d a) := rowOf_word _ _ rfl

theorem ninv (d : RegIdx) (a : RegIdx) : Statement (.ninv d a) := rowOf_word _ _ rfl

theorem nred (d : RegIdx) (a : RegIdx) : Statement (.nred d a) := rowOf_word _ _ rfl

theorem nchk (a : RegIdx) : Statement (.nchk a) := rowOf_word _ _ rfl

theorem nsplit (d : RegIdx) (a : RegIdx) : Statement (.nsplit d a) := rowOf_word _ _ rfl

theorem pset (d : PtIdx) (a : RegIdx) (b : RegIdx) : Statement (.pset d a b) := rowOf_word _ _ rfl

theorem psetj (d : PtIdx) (a : RegIdx) (b : RegIdx) (c : RegIdx) : Statement (.psetj d a b c) := rowOf_word _ _ rfl

theorem pget (d : RegIdx) (a : PtIdx) : Statement (.pget d a) := rowOf_word _ _ rfl

theorem pgetj (d : RegIdx) (a : PtIdx) : Statement (.pgetj d a) := rowOf_word _ _ rfl

theorem pldg (d : PtIdx) : Statement (.pldg d) := rowOf_word _ _ rfl

theorem pzero (d : PtIdx) : Statement (.pzero d) := rowOf_word _ _ rfl

theorem pmov (d : PtIdx) (a : PtIdx) : Statement (.pmov d a) := rowOf_word _ _ rfl

theorem pneg (d : PtIdx) (a : PtIdx) : Statement (.pneg d a) := rowOf_word _ _ rfl

theorem pdbl (d : PtIdx) (a : PtIdx) : Statement (.pdbl d a) := rowOf_word _ _ rfl

theorem padd (d : PtIdx) (a : PtIdx) (b : PtIdx) : Statement (.padd d a b) := rowOf_word _ _ rfl

theorem peq (a : PtIdx) (b : PtIdx) : Statement (.peq a b) := rowOf_word _ _ rfl

theorem pchk (a : PtIdx) : Statement (.pchk a) := rowOf_word _ _ rfl

theorem paff (d : PtIdx) (a : PtIdx) : Statement (.paff d a) := rowOf_word _ _ rfl

theorem paffb (d : PtIdx) (a : PtIdx) (cnt : BitVec 5) : Statement (.paffb d a cnt) := rowOf_word _ _ rfl

theorem pendo (d : PtIdx) (a : PtIdx) : Statement (.pendo d a) := rowOf_word _ _ rfl

theorem pwei (d : RegIdx) (a : RegIdx) : Statement (.pwei d a) := rowOf_word _ _ rfl

theorem mul (d : PtIdx) (a : PtIdx) (b : RegIdx) : Statement (.mul d a b) := rowOf_word _ _ rfl

theorem mulu (d : PtIdx) (a : PtIdx) (b : RegIdx) : Statement (.mulu d a b) := rowOf_word _ _ rfl

theorem precomp (a : PtIdx) : Statement (.precomp a) := rowOf_word _ _ rfl

theorem cinv : Statement .cinv := rowOf_word _ _ rfl

theorem ptenc (a : PtIdx) (addr : BitVec 12) (fmt : BitVec 2) : Statement (.ptenc a addr fmt) := rowOf_word _ _ rfl

theorem ptdec (d : PtIdx) (addr : BitVec 12) (len : BitVec 12) : Statement (.ptdec d addr len) := rowOf_word _ _ rfl

theorem sigenc (a : RegIdx) (b : RegIdx) (addr : BitVec 12) : Statement (.sigenc a b addr) := rowOf_word _ _ rfl

theorem sigdec (d : RegIdx) (addr : BitVec 12) (len : BitVec 12) : Statement (.sigdec d addr len) := rowOf_word _ _ rfl

theorem derenc (a : RegIdx) (b : RegIdx) (addr : BitVec 12) : Statement (.derenc a b addr) := rowOf_word _ _ rfl

theorem derdec (d : RegIdx) (addr : BitVec 12) (len : BitVec 12) : Statement (.derdec d addr len) := rowOf_word _ _ rfl

theorem rsigenc (a : RegIdx) (b : RegIdx) (addr : BitVec 12) : Statement (.rsigenc a b addr) := rowOf_word _ _ rfl

theorem rsigdec (d : RegIdx) (addr : BitVec 12) (len : BitVec 12) : Statement (.rsigdec d addr len) := rowOf_word _ _ rfl

theorem schenc (a : RegIdx) (b : RegIdx) (addr : BitVec 12) : Statement (.schenc a b addr) := rowOf_word _ _ rfl

theorem schdec (d : RegIdx) (addr : BitVec 12) (len : BitVec 12) : Statement (.schdec d addr len) := rowOf_word _ _ rfl

theorem shighs (a : RegIdx) : Statement (.shighs a) := rowOf_word _ _ rfl

theorem snorm (d : RegIdx) (a : RegIdx) (flip : Bool) : Statement (.snorm d a flip) := rowOf_word _ _ rfl

theorem esign (d : RegIdx) (a : RegIdx) (addr : BitVec 12) (len : BitVec 12) (nocanon : Bool) (ent : BitVec 2) : Statement (.esign d a addr len nocanon ent) := rowOf_word _ _ rfl

theorem everify (a : RegIdx) (b : RegIdx) (c : PtIdx) (addr : BitVec 12) (len : BitVec 12) (nostrict : Bool) : Statement (.everify a b c addr len nostrict) := rowOf_word _ _ rfl

theorem erecover (d : PtIdx) (a : RegIdx) (b : RegIdx) (addr : BitVec 12) (len : BitVec 12) : Statement (.erecover d a b addr len) := rowOf_word _ _ rfl

theorem spub (d : RegIdx) (a : RegIdx) : Statement (.spub d a) := rowOf_word _ _ rfl

theorem ssign (d : RegIdx) (a : RegIdx) (addr : BitVec 12) (len : BitVec 12) (auxbuf : Bool) : Statement (.ssign d a addr len auxbuf) := rowOf_word _ _ rfl

theorem sverify (a : RegIdx) (b : RegIdx) (c : RegIdx) (addr : BitVec 12) (len : BitVec 12) : Statement (.sverify a b c addr len) := rowOf_word _ _ rfl

end Sys2Proof.Laws.Opcode
end

