-- ==== Sys2Proof/Laws/Reads.lean ====
section
/-! SUPPORT. A command depends on BUF only through the bytes that its footprint names as read (20_memory R86; the premise of
70_reset R634). -/

namespace Sys2Proof.Machine

/-- Two answers that differ in BUF only. -/
inductive SameBut : Outcome → Outcome → Prop where
  | intro (t : State) (b : Mem) : SameBut (.next t) (.next { t with buf := b })

/-- Two ends of a rule that differ in BUF only. -/
inductive SameEnd : Except Err State → Except Err State → Prop where
  | ok (t : State) (b : Mem) : SameEnd (.ok t) (.ok { t with buf := b })
  | error (e : Err) : SameEnd (.error e) (.error e)

theorem sameBut_complete {s : State} (b : Mem) {x y : Except Err State} (h : SameEnd x y) :
    SameBut (complete s x) (complete { s with buf := b } y) := by
  cases h with
  | ok t c => exact ⟨t.markDone, c⟩
  | error e => exact ⟨s.raise e, b⟩

theorem sameEnd_bind {α : Type} (x : Except Err α) {f g : α → Except Err State} (h : ∀ a, x = .ok a → SameEnd (f a) (g a)) :
    SameEnd (x >>= f) (x >>= g) := by
  cases x with
  | error e => exact .error e
  | ok a => exact h a rfl

/-- Two states whose BUF bytes agree on a region. -/
abbrev State.AgreeOn (s t : State) (r : Nat × Nat) : Prop := ∀ x, r.1 ≤ x → x < r.1 + r.2 → t.bufByte x = s.bufByte x

/-- `MemRead` of bytes on which two states agree. -/
theorem State.AgreeOn.readBuf {s t : State} {a n : Nat} (h : s.AgreeOn t (a, n)) : t.readBuf a n = s.readBuf a n :=
  List.map_congr_left fun j hj => h _ (Nat.le_add_right _ _) (by rw [List.mem_range] at hj; show a + j < a + n; omega)

/-- The same of a part of the region. -/
theorem State.AgreeOn.part {s t : State} {a n : Nat} (h : s.AgreeOn t (a, n)) (k m : Nat) (hm : k + m ≤ n) :
    s.AgreeOn t (a + k, m) := fun x h1 h2 => h x (by dsimp only at *; omega) (by dsimp only at *; omega)

theorem inputRegion_pos {addr k n : Nat} (h : addr + k ≤ 4096) : inputRegion addr k n true = (addr, n) := by
  simp [inputRegion, bufSize, h]

/-- The same of its start. -/
theorem State.AgreeOn.start {s t : State} {a n : Nat} (h : s.AgreeOn t (a, n)) (m : Nat) (hm : m ≤ n) : s.AgreeOn t (a, m) :=
  h.part 0 m (by omega)

/-- A multi-register write commutes with another BUF. -/
theorem setRegs_buf (s : State) (b : Mem) (i : RegIdx) (vs : List Word) :
    { s with buf := b }.setRegs i vs = { s.setRegs i vs with buf := b } := by
  induction vs generalizing s i with
  | nil => rfl
  | cons v vs ih => exact ih (s.setR i v) (i + 1)

/-- A multi-point write commutes with another BUF. -/
theorem setPts_buf (s : State) (b : Mem) (i : PtIdx) (ps : List Point) :
    { s with buf := b }.setPts i ps = { s.setPts i ps with buf := b } := by
  induction ps generalizing s i with
  | nil => rfl
  | cons v vs ih => exact ih (s.setQ i v) (i + 1)

/-- A rule that goes on with the bytes of its input region. -/
theorem sameEnd_fetch {s : State} {b : Mem} {addr n k : Nat} {format : Bool} {f g : List Byte → Except Err State}
    (h : s.AgreeOn { s with buf := b } (inputRegion addr k n format)) (hf : format = true) (hk : addr + k ≤ 4096)
    (hfg : ∀ x, SameEnd (f x) (g x)) :
    SameEnd (f (s.readBuf addr n)) (g ({ s with buf := b }.readBuf addr n)) := by
  subst hf; rw [inputRegion_pos hk] at h; rw [h.readBuf]; exact hfg _

/-- `CheckBuf` passed. -/
theorem checkBuf_ok {addr k : Nat} {u : Unit} (h : checkBuf addr k = .ok u) : addr + k ≤ 4096 := by
  by_contra hc; rw [checkBuf, decide_eq_false (by simpa [bufSize] using hc)] at h; cases h

/-- A check passed. -/
theorem require_ok {c : Bool} {e : Err} {u : Unit} (h : require c e = .ok u) : c = true := by
  cases c; cases h; rfl

/-- A fixed-length decoder's input step (44_codec R370). -/
theorem sameEnd_fetchExact {s : State} {b : Mem} {addr len : BitVec 12} {k : Nat} {format : Bool} {f g : List Byte → Except Err State}
    (h : s.AgreeOn { s with buf := b } (inputRegion addr.toNat len.toNat len.toNat format)) (hf : len.toNat = k → format = true)
    (hfg : ∀ x, SameEnd (f x) (g x)) :
    SameEnd (s.fetchExact addr len k >>= f) ({ s with buf := b }.fetchExact addr len k >>= g) := by
  rw [State.fetchExact_eq, State.fetchExact_eq]
  split
  · split
    · rename_i h1 h2
      subst h2
      exact sameEnd_fetch h (hf rfl) h1 hfg
    · exact .error _
  · exact .error _

/-- The hash input of EVERIFY and ERECOVER (45_ecdsa R420). -/
theorem sameEnd_fetchHash {s : State} {b : Mem} {addr len : BitVec 12} {f g : List Byte → Except Err State}
    (h : s.AgreeOn { s with buf := b } (inputRegion addr.toNat len.toNat len.toNat true)) (hfg : ∀ x, SameEnd (f x) (g x)) :
    SameEnd (s.fetchHash addr len 0 >>= f) ({ s with buf := b }.fetchHash addr len 0 >>= g) := by
  rw [State.fetchHash_eq, State.fetchHash_eq]
  split
  · split
    · exact .error _
    · exact sameEnd_fetch h rfl (by simpa using ‹_›) hfg
  · exact .error _

/-- The product's destination. -/
theorem sameEnd_setProduct (s : State) (b : Mem) (d : PtIdx) (t p : Point) :
    SameEnd (.ok (s.setProduct d t p)) (.ok ({ s with buf := b }.setProduct d t p)) := by
  simp only [State.setProduct]; split <;> exact .ok _ _

/-- Two successes, from the equation between their states. -/
theorem SameEnd.of_eq {t u : State} (b : Mem) (h : u = { t with buf := b }) : SameEnd (.ok t) (.ok u) := h ▸ .ok t b

/-- The output step of PTENC and DERENC. -/
theorem sameEnd_emitWithLength (s : State) (b : Mem) (addr : BitVec 12) (out : List Byte) :
    SameEnd (s.emitWithLength addr out) ({ s with buf := b }.emitWithLength addr out) := by
  rw [State.emitWithLength_eq, State.emitWithLength_eq]; split
  · exact .ok _ _
  · exact .error _

/-- With another BUF that agrees on the bytes the command's footprint names as read, the command does the same outside BUF. -/
theorem exec_reads (i : Instr) (s : State) (b : Mem) (h : s.AgreeOn { s with buf := b } (footprint s i).reads) :
    SameBut (exec i s) (exec i { s with buf := b }) := by
  cases i
  case ld d addr len =>
    refine sameBut_complete b (sameEnd_bind _ fun _ h1 => sameEnd_bind _ fun _ h2 => ?_)
    exact sameEnd_fetch (f := fun x => .ok (s.setR d (wordOf x))) (g := fun x => .ok (State.setR { s with buf := b } d (wordOf x)))
      h (by have := require_ok h1; simpa [movesLegal] using this) (checkBuf_ok h2) fun _ => .ok _ _
  case ptdec d addr len =>
    refine sameBut_complete b (sameEnd_bind _ fun _ h1 => ?_)
    by_cases hl : (len == 32 || len == 33 || len == 65) = true
    · exact sameEnd_fetch (f := fun x => decodePoint x >>= fun p => .ok (s.setQ d ⟨p.x, p.y, 1⟩))
        (g := fun x => decodePoint x >>= fun p => .ok (State.setQ { s with buf := b } d ⟨p.x, p.y, 1⟩))
        h hl (checkBuf_ok h1) fun x => sameEnd_bind _ fun _ _ => .ok _ _
    · have hbad : ∀ x : List Byte, x.length = len.toNat → decodePoint x = .error .encoding := by
        intro x hx
        simp only [Bool.or_eq_true, beq_iff_eq, ← BitVec.toNat_inj, not_or] at hl
        rw [decodePoint, hx]
        split
        · exact absurd ‹_› hl.1.1
        · exact absurd ‹_› hl.1.2
        · exact absurd ‹_› hl.2
        · rfl
      rw [hbad _ (by simp), hbad _ (by simp)]; exact .error _
  case sigdec d addr len =>
    refine sameBut_complete b (sameEnd_fetchExact h (fun hl => beq_iff_eq.mpr (BitVec.eq_of_toNat_eq hl)) fun x => sameEnd_bind _ fun _ _ => .ok _ _)
  case derdec d addr len =>
    refine sameBut_complete b (sameEnd_bind _ fun _ h1 => ?_)
    exact sameEnd_fetch (f := fun x => underive x >>= fun rs => .ok (s.setRegs d [rs.1, rs.2]))
      (g := fun x => underive x >>= fun rs => .ok (State.setRegs { s with buf := b } d [rs.1, rs.2]))
      h rfl (checkBuf_ok h1) fun x => sameEnd_bind _ fun _ _ => .ok _ _
  case rsigdec d addr len =>
    refine sameBut_complete b (sameEnd_fetchExact h (fun hl => beq_iff_eq.mpr (BitVec.eq_of_toNat_eq hl)) fun x => sameEnd_bind _ fun _ _ => sameEnd_bind _ fun _ _ => .ok _ _)
  case schdec => 
    refine sameBut_complete b (sameEnd_fetchExact h (fun hl => beq_iff_eq.mpr (BitVec.eq_of_toNat_eq hl)) fun x => sameEnd_bind _ fun _ _ => .ok _ _)
  case esign d a addr len nocanon ent =>
    show SameBut (execEsign d a addr len nocanon ent s) (execEsign d a addr len nocanon ent { s with buf := b })
    simp only [execEsign, esignInput_eq]
    by_cases h3 : ent.toNat = 3
    · rw [if_pos h3, if_pos h3]; exact sameBut_complete b (.error _)
    by_cases h1 : addr.toNat + (len.toNat + if ent.toNat = 1 then 32 else 0) ≤ 4096
    swap
    · rw [if_neg h3, if_neg h3, if_neg h1, if_neg h1]; exact sameBut_complete b (.error _)
    by_cases h2 : len.toNat = 0
    · rw [if_neg h3, if_neg h3, if_pos h1, if_pos h1, if_pos h2, if_pos h2]; exact sameBut_complete b (.error _)
    rw [if_neg h3, if_neg h3, if_pos h1, if_pos h1, if_neg h2, if_neg h2]
    show SameBut (match (if inScalarRange (s.getR a) = true then _ else _ : Except Err (List Byte)) with | .error e => _ | .ok h => _)
      (match (if inScalarRange (s.getR a) = true then _ else _ : Except Err (List Byte)) with | .error e => _ | .ok h => _)
    by_cases h4 : inScalarRange (s.getR a) = true
    swap
    · rw [if_neg h4, if_neg h4]; exact sameBut_complete b (.error _)
    rw [if_pos h4, if_pos h4]
    have hr : s.AgreeOn { s with buf := b } (addr.toNat, len.toNat + if ent.toNat = 1 then 32 else 0) := by
      have e1 : (ent == 1) = decide (ent.toNat = 1) := by
        rw [Bool.eq_iff_iff, beq_iff_eq, decide_eq_true_eq, ← BitVec.toNat_inj]; rfl
      have e3 : (ent != 3) = true := by simpa [← BitVec.toNat_inj] using h3
      have e0 : (len != 0) = true := by simpa [← BitVec.toNat_inj] using h2
      simp only [footprint, e1, e3, e0, h4, Bool.and_true, decide_eq_true_eq] at h
      rwa [inputRegion_pos h1] at h
    dsimp only
    rw [State.AgreeOn.readBuf (hr.start len.toNat (by omega))]
    have he : ({ s with buf := b }.entropy addr len ent) = ((s.entropy addr len ent).1, { (s.entropy addr len ent).2 with buf := b }) := by
      simp only [State.entropy]
      split
      · rename_i h5
        rw [if_pos h5] at hr
        rw [State.AgreeOn.readBuf (hr.part len.toNat 32 (by omega))]
      · rfl
      · rfl
    rw [he]
    exact sameBut_complete b (sameEnd_bind _ fun _ _ => .ok _ _)
  case ssign d a addr len auxbuf => 
    show SameBut (execSsign d a addr len auxbuf s) (execSsign d a addr len auxbuf { s with buf := b })
    simp only [execSsign, ssignInput_eq]
    by_cases h1 : addr.toNat + (len.toNat + if auxbuf = true then 32 else 0) ≤ 4096
    swap
    · rw [if_neg h1, if_neg h1]; exact sameBut_complete b (.error _)
    rw [if_pos h1, if_pos h1]
    show SameBut (match (if inScalarRange (s.getR a) = true then _ else _ : Except Err (List Byte)) with | .error e => _ | .ok h => _)
      (match (if inScalarRange (s.getR a) = true then _ else _ : Except Err (List Byte)) with | .error e => _ | .ok h => _)
    by_cases h4 : inScalarRange (s.getR a) = true
    swap
    · rw [if_neg h4, if_neg h4]; exact sameBut_complete b (.error _)
    rw [if_pos h4, if_pos h4]
    have hr : s.AgreeOn { s with buf := b } (addr.toNat, len.toNat + if auxbuf = true then 32 else 0) := by
      simp only [footprint, h4, Bool.and_true] at h
      rwa [inputRegion_pos h1] at h
    dsimp only
    rw [State.AgreeOn.readBuf (hr.start len.toNat (by omega))]
    have he : ({ s with buf := b }.auxRand addr len auxbuf) = ((s.auxRand addr len auxbuf).1, { (s.auxRand addr len auxbuf).2 with buf := b }) := by
      cases auxbuf
      · rfl
      · have := State.AgreeOn.readBuf (hr.part len.toNat 32 (by simp))
        simp only [State.auxRand, if_true, this]
    rw [he]
    exact sameBut_complete b (sameEnd_bind _ fun _ _ => .ok _ _)
  case everify => exact sameBut_complete b (sameEnd_fetchHash h fun x => .ok _ _)
  case erecover =>
    exact sameBut_complete b (sameEnd_fetchHash h fun x => sameEnd_bind _ fun _ _ => sameEnd_bind _ fun _ _ =>
      sameEnd_bind _ fun _ _ => sameEnd_bind _ fun _ _ => .ok _ _)
  case sverify a e c addr len => 
    refine sameBut_complete b (sameEnd_bind _ fun _ h1 => ?_)
    exact sameEnd_fetch (f := fun x => .ok (s.setRes (verifyS (s.getR a) (s.getR e) (s.getR c) x)))
      (g := fun x => .ok (State.setRes { s with buf := b } (verifyS (s.getR a) (s.getR e) (s.getR c) x)))
      h rfl (checkBuf_ok h1) fun _ => .ok _ _
  case csrw a csr => 
    refine sameBut_complete b (sameEnd_bind _ fun _ h1 => sameEnd_bind _ fun _ h2 => ?_)
    show SameEnd (.ok (s.csrWrite csr.toNat _)) (.ok (State.csrWrite { s with buf := b } csr.toNat _))
    simp only [State.csrWrite]; split <;> exact .ok _ _
  case ldc d k =>
    refine sameBut_complete b ?_
    show SameEnd (match constant k.toNat with | some v => _ | none => _) (match constant k.toNat with | some v => _ | none => _)
    cases constant k.toNat
    · exact .error _
    · exact .ok _ _
  case mul =>
    exact sameBut_complete b (sameEnd_bind _ fun _ _ => sameEnd_bind _ fun _ _ => sameEnd_setProduct _ _ _ _ _)
  case mulu =>
    exact sameBut_complete b (sameEnd_bind _ fun _ _ => sameEnd_setProduct _ _ _ _ _)
  case fbinv d a cnt =>
    refine sameBut_complete b (sameEnd_bind _ fun _ _ => ?_)
    exact .of_eq b (setRegs_buf s b d _)
  case paffb d a cnt =>
    refine sameBut_complete b (sameEnd_bind _ fun _ _ => ?_)
    exact .of_eq b (setPts_buf s b d _)
  case ptenc a addr fmt =>
    exact sameBut_complete b (sameEnd_bind _ fun _ _ => sameEnd_bind _ fun _ _ => sameEnd_emitWithLength _ _ _ _)
  case derenc a e addr =>
    exact sameBut_complete b (sameEnd_bind _ fun _ _ => sameEnd_emitWithLength _ _ _ _)
  case snorm d a flip => 
    refine sameBut_complete b (sameEnd_bind _ fun _ _ => ?_)
    by_cases hh : isHigh (s.getR a) = true
    · show SameEnd (if isHigh (s.getR a) = true then _ else _) (if isHigh (s.getR a) = true then _ else _)
      rw [if_pos hh, if_pos hh]; exact .ok _ _
    · show SameEnd (if isHigh (s.getR a) = true then _ else _) (if isHigh (s.getR a) = true then _ else _)
      rw [if_neg hh, if_neg hh]; exact .ok _ _
  all_goals first
    | exact ⟨_, _⟩
    | exact sameBut_complete b (.ok _ _)
    | exact sameBut_complete b (sameEnd_bind _ fun _ _ => .ok _ _)
    | exact sameBut_complete b (sameEnd_bind _ fun _ _ => sameEnd_bind _ fun _ _ => .ok _ _)
    | exact sameBut_complete b (sameEnd_bind _ fun _ _ => sameEnd_bind _ fun _ _ => sameEnd_bind _ fun _ _ => .ok _ _)

end Sys2Proof.Machine
end

