-- ==== Sys2Proof/Laws/Regions.lean ====
section
/-! SUPPORT. Big-endian values in regions of BUF, written and read (20_memory R81, R87). -/

namespace Sys2Proof.Machine

/-- Byte j of `be_N(v)` (00_scope R14). -/
theorem getElem_beBytes (n v j : Nat) (h : j < (beBytes n v).length) :
    ((beBytes n v)[j]).toNat = v / 256 ^ (n - 1 - j) % 256 := by
  induction n generalizing j with
  | zero => rw [length_beBytes] at h; omega
  | succ n ih =>
    cases j with
    | zero => simp [beBytes]
    | succ j =>
      have hj : j < n := by rw [length_beBytes] at h; omega
      have := ih j (by rw [length_beBytes]; exact hj)
      simp only [beBytes, List.getElem_cons_succ]
      rw [this]; congr 3; omega

/-- A write of `be_n(v)` makes the region hold v (20_memory R81). -/
theorem State.holdsBytes_writeBuf (s : State) (a n v : Nat) : (s.writeBuf a (beBytes n v)).HoldsBytes a n v := by
  intro j hj
  rw [State.bufByte_writeBuf, dif_pos (by rw [length_beBytes]; omega), getElem_beBytes]
  simp

/-- What `MemRead` gives of a region that holds v (20_memory R81). -/
theorem State.be_readBuf (s : State) (a n v : Nat) (hv : v < 256 ^ n) (h : s.HoldsBytes a n v) : be (s.readBuf a n) = v := by
  have e : s.readBuf a n = beBytes n v := by
    apply List.ext_getElem (by simp)
    intro j h1 h2
    apply BitVec.eq_of_toNat_eq
    rw [getElem_beBytes]
    simp only [State.readBuf, List.getElem_map, List.getElem_range]
    exact h j (by simpa using h1)
  rw [e, be_beBytes n v hv]

/-- A region holds the value that `MemRead` gives of it (20_memory R81). -/
theorem State.holdsBytes_readBuf (s : State) (a n : Nat) : s.HoldsBytes a n (be (s.readBuf a n)) := by
  have h := be_lt (s.readBuf a n)
  rw [State.length_readBuf] at h
  have e : beBytes n (be (s.readBuf a n)) = s.readBuf a n := be_inj (by simp) (be_beBytes n _ h)
  intro j hj
  rw [← getElem_beBytes n _ j (by simpa using hj)]
  simp only [e]
  simp [State.readBuf]

/-- A write changes no byte outside its region (20_memory R87). -/
theorem State.sameOutside_writeBuf (s : State) (a : Nat) (b : List Byte) : s.SameOutside (s.writeBuf a b) a b.length := by
  intro x hx
  rw [State.bufByte_writeBuf, dif_neg hx]

end Sys2Proof.Machine
end

