-- ==== Sys2Proof/Laws/Runs.lean ====
section
/-! SUPPORT. The states of a run, step by step (70_reset R633). -/

namespace Sys2Proof.Machine

@[simp] theorem State.after_zero (s : State) : s.after 0 = s := rfl

@[simp] theorem State.after_succ (s : State) (n : Nat) : s.after (n + 1) = (s.after n).next := rfl

/-- The state after a step that answers t. -/
theorem State.next_of_step {s t : State} (h : step s = .next t) : s.next = t := by rw [State.next, h]

/-- A step first, then n more. -/
theorem State.after_next (s : State) (n : Nat) : s.next.after n = s.after (n + 1) := by
  induction n with
  | zero => rfl
  | succ n ih => rw [State.after_succ, ih]; rfl

/-- An idle engine that the host has left stays as it is. (log 8) -/
theorem State.next_idle {s : State} (hh : s.host = []) (hi : s.inflight = none) : s.next = s :=
  State.next_of_step (by simp [step, hh, engineTurn, hi])

theorem State.after_idle {s : State} (hh : s.host = []) (hi : s.inflight = none) (n : Nat) : s.after n = s := by
  induction n with
  | zero => rfl
  | succ n ih => rw [State.after_succ, ih, State.next_idle hh hi]

/-- An idle step reads no BUF byte. -/
theorem State.stepReads_idle {s : State} (hh : s.host = []) (hi : s.inflight = none) : s.stepReads = (0, 0) := by
  simp [State.stepReads, hh, hi]

/-- The inputs of a run in which nothing happens are given. -/
theorem State.inputsGiven_idle {s : State} (hh : s.host = []) (hi : s.inflight = none) : s.InputsGiven := by
  intro n x _ h2
  rw [State.after_idle hh hi, State.stepReads_idle hh hi] at h2
  exact absurd h2 (Nat.not_lt_zero x)

/-- From ERR = 0, a step sets ERR exactly when ERR = 1 after it. -/
theorem State.setsErr_of_clear {s : State} (h : s.err = false) : s.setsErr = s.next.err := by
  have e : ({ s with err := false } : State) = s := by cases s; cases h; rfl
  rw [State.setsErr, e]

/-- An execute step that raises an error sets ERR, also when ERR = 1 already (R510). -/
theorem State.setsErr_of_raise {s : State} {w : Cmd} {i : Instr} {e : Err} (ht : s.host = []) (hw : s.inflight = some w)
    (hd : decode w = .ok i) (hx : exec i { s with err := false } = .next (({ s with err := false } : State).raise e)) :
    s.setsErr = true := by
  cases s; cases ht; cases hw
  simp only [State.setsErr, State.next, step, engineTurn, executeStep, hd, hx, retireOutcome]; rfl

/-- A host move leaves the rest of the host's moves as they are. -/
theorem State.hostMove_host (s : State) (op : HostOp) : (s.hostMove op).host = s.host := by
  cases op with
  | read a w => simp only [State.hostMove]; split <;> rfl
  | write a w d =>
    simp only [State.hostMove]; split
    · simp only [State.hostWrite]; split
      · split <;> rfl
      · split
        · rfl
        · split
          · rfl
          · simp only [State.csrWrite]; split <;> rfl
      · simp only [State.issue]; split <;> rfl
      · rfl
    · rfl
  | reset => rfl
  | pass => rfl

end Sys2Proof.Machine
end

