-- ==== Sys2Proof/Laws/Scalar.lean ====
section
/-! SUPPORT. Scalar multiplication: the loop of MULU for any bound that is enough, the digits of the windowed NAF and what its loop
answers, and the product's destination (43_scalar R331 to R334). -/

namespace Sys2Proof.Machine

/-- MULU's bounded loop is every function that meets R334's two equations, when the bound covers k's bits. -/
theorem doubleAndAdd_eq (f : Nat → Point → Point → Point) (h0 : ∀ d acc, f 0 d acc = acc)
    (h1 : ∀ k d acc, 0 < k → f k d acc = f (k / 2) (dbl d) (if k % 2 = 1 then add acc d else acc)) (m k : Nat) (d acc : Point)
    (hk : k < 2 ^ m) : doubleAndAdd m k d acc = f k d acc := by
  induction m generalizing k d acc with
  | zero => obtain rfl : k = 0 := by omega
            simp [doubleAndAdd, h0]
  | succ m ih =>
    rw [doubleAndAdd]
    split
    · rename_i h; rw [h, h0]
    · rename_i h; rw [h1 k d acc (by omega), ih _ _ _ (by rw [pow_succ] at hk; omega)]

/-- MULU's loop does not depend on its bound, once it covers k's bits. -/
theorem doubleAndAdd_bound (m m' k : Nat) (d acc : Point) (h : k < 2 ^ m) (h' : k < 2 ^ m') :
    doubleAndAdd m k d acc = doubleAndAdd m' k d acc := by
  induction m generalizing m' k d acc with
  | zero =>
    obtain rfl : k = 0 := by omega
    cases m' <;> simp [doubleAndAdd]
  | succ m ih =>
    cases m' with
    | zero =>
      obtain rfl : k = 0 := by omega
      simp [doubleAndAdd]
    | succ m' =>
      rw [doubleAndAdd, doubleAndAdd]
      rw [pow_succ] at h h'
      split
      · rfl
      · exact ih m' _ _ _ (by omega) (by omega)

/-- What is left of k after i windows of w bits, the carry included (43_scalar R331). -/
def wnafCarry (k w : Nat) : Nat → Nat
  | 0 => k
  | i + 1 => wnafCarry k w i / 2 ^ w + if 2 ^ (w - 1) < wnafCarry k w i % 2 ^ w then 1 else 0

/-- The signed digit of window i (43_scalar R331). -/
def wnafDigit (k w i : Nat) : Int :=
  let d := wnafCarry k w i % 2 ^ w
  if 2 ^ (w - 1) < d then (d : Int) - 2 ^ w else d

/-- One window: the carry in is the digit and the carry out, weighted. -/
theorem wnafCarry_step (k w i : Nat) : (wnafCarry k w i : Int) = wnafDigit k w i + 2 ^ w * wnafCarry k w (i + 1) := by
  have h := Nat.div_add_mod (wnafCarry k w i) (2 ^ w)
  have h' : (wnafCarry k w i : Int) = 2 ^ w * (wnafCarry k w i / 2 ^ w : Nat) + (wnafCarry k w i % 2 ^ w : Nat) := by exact_mod_cast h.symm
  simp only [wnafDigit, wnafCarry]
  split
  · push_cast at *; linarith
  · push_cast at *; linarith

/-- Each digit lies in its window's range. -/
theorem wnafDigit_range (k w i : Nat) (hw : 1 ≤ w) :
    1 - ((2 ^ (w - 1) : Nat) : Int) ≤ wnafDigit k w i ∧ wnafDigit k w i ≤ (2 ^ (w - 1) : Nat) := by
  have hp : 2 ^ w = 2 * 2 ^ (w - 1) := by rw [← pow_succ', Nat.sub_add_cancel hw]
  have hz : (2 : Int) ^ w = 2 * ((2 ^ (w - 1) : Nat) : Int) := by exact_mod_cast hp
  have hm := Nat.mod_lt (wnafCarry k w i) (show 0 < 2 ^ w by positivity)
  have hpos : 0 < 2 ^ (w - 1) := by positivity
  simp only [wnafDigit, hz]
  rw [hp] at hm ⊢
  split <;> constructor <;> omega

/-- The digits of n windows and the carry after them, weighted, sum to k. -/
theorem wnafDigit_sum (k w n : Nat) :
    (Finset.range n).sum (fun i => wnafDigit k w i * 2 ^ (i * w)) + wnafCarry k w n * 2 ^ (n * w) = (k : Int) := by
  induction n with
  | zero => simp [wnafCarry]
  | succ n ih =>
    rw [Finset.sum_range_succ, ← ih, wnafCarry_step k w n, Nat.succ_mul, pow_add]; ring

/-- After i windows the carry is at most the rest of k, rounded up. -/
theorem wnafCarry_le (k w i : Nat) (hw : 1 ≤ w) : wnafCarry k w i * 2 ^ (i * w) ≤ k + 2 ^ (i * w) - 1 := by
  induction i with
  | zero => simp [wnafCarry]
  | succ i ih =>
    have hd := Nat.div_add_mod (wnafCarry k w i) (2 ^ w)
    have hp : 2 ^ w = 2 * 2 ^ (w - 1) := by rw [← pow_succ', Nat.sub_add_cancel hw]
    have hc : wnafCarry k w (i + 1) * 2 ^ w ≤ wnafCarry k w i + (2 ^ w - 1) := by
      simp only [wnafCarry]
      have hpos : 0 < 2 ^ (w - 1) := by positivity
      have hm := Nat.mod_lt (wnafCarry k w i) (show 0 < 2 ^ w by positivity)
      split
      · rw [add_mul, Nat.mul_comm]; omega
      · rw [add_zero, Nat.mul_comm]; omega
    have e : 2 ^ ((i + 1) * w) = 2 ^ w * 2 ^ (i * w) := by rw [← pow_add]; congr 1; ring
    rw [e, ← mul_assoc]
    have h1 : 0 < 2 ^ w := by positivity
    have h2 : 0 < 2 ^ (i * w) := by positivity
    calc wnafCarry k w (i + 1) * 2 ^ w * 2 ^ (i * w) ≤ (wnafCarry k w i + (2 ^ w - 1)) * 2 ^ (i * w) := Nat.mul_le_mul_right _ hc
      _ = wnafCarry k w i * 2 ^ (i * w) + (2 ^ w - 1) * 2 ^ (i * w) := add_mul _ _ _
      _ ≤ k + 2 ^ (i * w) - 1 + (2 ^ w - 1) * 2 ^ (i * w) := by omega
      _ = k + 2 ^ w * 2 ^ (i * w) - 1 := by
        have : 2 ^ w * 2 ^ (i * w) = (2 ^ w - 1) * 2 ^ (i * w) + 2 ^ (i * w) := by
          rw [← Nat.succ_mul]; congr 1; omega
        omega

/-- No carry is left after the last window (43_scalar R331). -/
theorem wnafCarry_end (k w : Nat) (hw : w ∈ [1, 2, 4, 8]) (hk : k < 2 ^ 128) : wnafCarry k w (128 / w + 1) = 0 := by
  have hw1 : 1 ≤ w := by simp at hw; omega
  have h := wnafCarry_le k w (128 / w) hw1
  have e : (128 / w) * w = 128 := by simp at hw; rcases hw with rfl | rfl | rfl | rfl <;> rfl
  rw [e] at h
  have hc : wnafCarry k w (128 / w) ≤ 1 := by
    by_contra hc
    have : 2 * 2 ^ 128 ≤ wnafCarry k w (128 / w) * 2 ^ 128 := Nat.mul_le_mul_right _ (by omega)
    omega
  have h2 : wnafCarry k w (128 / w) * 2 ^ 128 ≤ k + 2 ^ 128 - 1 := h
  simp only [wnafCarry]
  by_cases hw' : w = 1
  · subst hw'
    have : wnafCarry k 1 (128 / 1) = 0 := by
      have h1 : ∀ i, wnafCarry k 1 i = k / 2 ^ i := by
        intro i
        induction i with
        | zero => simp [wnafCarry]
        | succ i ih =>
          have := Nat.mod_lt (k / 2 ^ i) (show 0 < 2 by norm_num)
          simp only [wnafCarry, ih, pow_one, Nat.sub_self, pow_zero]
          rw [if_neg (by omega), Nat.div_div_eq_div_mul, ← pow_succ, add_zero]
      rw [h1]; exact Nat.div_eq_of_lt hk
    rw [this]; rfl
  · have hp : 2 ^ w = 2 * 2 ^ (w - 1) := by rw [← pow_succ', Nat.sub_add_cancel hw1]
    have : 2 ≤ 2 ^ (w - 1) := by
      calc 2 = 2 ^ 1 := rfl
        _ ≤ 2 ^ (w - 1) := Nat.pow_le_pow_right (by norm_num) (by omega)
    rw [Nat.div_eq_of_lt (by omega), Nat.mod_eq_of_lt (by omega), if_neg (by omega)]

/-- What the windowed loop answers: the points p that add one table entry for each nonzero digit (43_scalar R331). -/
theorem wnafLoop_eq (tab : List Point) (w k0 : Nat) (hw : 1 ≤ w) (p : Nat → Point)
    (hp : ∀ i, p (i + 1) = if wnafDigit k0 w i = 0 then p i else
      add (p i) (if wnafDigit k0 w i < 0 then neg (tab.getD (i * 2 ^ (w - 1) + (wnafDigit k0 w i).natAbs - 1) zeroJ)
        else tab.getD (i * 2 ^ (w - 1) + (wnafDigit k0 w i).natAbs - 1) zeroJ)) (m i : Nat) (f : Point) :
    (wnafLoop tab w m i (wnafCarry k0 w i) (p i) f).1 = p (i + m) := by
  induction m generalizing i f with
  | zero => rfl
  | succ m ih =>
    have hpow : 2 ^ w = 2 * 2 ^ (w - 1) := by rw [← pow_succ', Nat.sub_add_cancel hw]
    have hm := Nat.mod_lt (wnafCarry k0 w i) (show 0 < 2 ^ w by positivity)
    have hpos : 0 < 2 ^ (w - 1) := by positivity
    have ih := fun f => ih (i + 1) f
    rw [wnafLoop]
    have hadd : i + 1 + m = i + (m + 1) := by omega
    rw [hadd] at ih
    split_ifs with h1 h2 h3
    · have hd : wnafDigit k0 w i = ((wnafCarry k0 w i % 2 ^ w : Nat) : Int) - (2 ^ w : Nat) := by simp [wnafDigit, h1]
      have hne : wnafDigit k0 w i < 0 := by rw [hd]; omega
      have hab : (wnafDigit k0 w i).natAbs = 2 ^ w - wnafCarry k0 w i % 2 ^ w := by rw [hd]; omega
      have hk : wnafCarry k0 w (i+1) = wnafCarry k0 w i / 2 ^ w + 1 := by simp [wnafCarry, h1]
      rw [← hk, ← ih f, hp i, if_neg hne.ne, if_pos hne, hab]
    · have hd : wnafDigit k0 w i = 0 := by simp [wnafDigit, h2]
      have hk : wnafCarry k0 w (i+1) = wnafCarry k0 w i / 2 ^ w := by simp [wnafCarry, h2]
      rw [← hk]
      have := hp i
      rw [if_pos hd] at this
      rw [← this]; exact ih _
    · have hd : wnafDigit k0 w i = 0 := by simp [wnafDigit, h2]
      have hk : wnafCarry k0 w (i+1) = wnafCarry k0 w i / 2 ^ w := by simp [wnafCarry, h2]
      rw [← hk]
      have := hp i
      rw [if_pos hd] at this
      rw [← this]; exact ih _
    · have := hp i
      have hd : wnafDigit k0 w i = ((wnafCarry k0 w i % 2 ^ w : Nat) : Int) := by simp [wnafDigit, h1]
      have hk : wnafCarry k0 w (i+1) = wnafCarry k0 w i / 2 ^ w := by simp [wnafCarry, h1]
      rw [← hk, ← ih f, hp i, if_neg (by rw [hd]; exact_mod_cast h2), if_neg (by rw [hd]; omega), hd, Int.natAbs_natCast]

/-- The product's destination for a valid or identity operand (43_scalar R333, R334). -/
theorem State.setProduct_multipliable (s : State) (d : PtIdx) (t p : Point) (h : t.z = 0 ∨ valid (aff t) = true) :
    s.setProduct d t p = s.setQ d (norm p) := by
  rw [State.setProduct, if_pos (by simpa [multipliable] using h)]

end Sys2Proof.Machine
end

