-- ==== Sys2Proof/Laws/Signing.lean ====
section
/-! SUPPORT. The message scalar, what the ECDSA signing loop can answer, and the Schnorr hashes and check in the terms of Safety.lean
(45_ecdsa R421 to R427, 46_schnorr R450, R453). -/

namespace Sys2Proof.Machine

/-- `be` of two strings, one after the other. -/
theorem be_append (a b : List Byte) : be (a ++ b) = be a * 256 ^ b.length + be b := by
  induction a with
  | nil => simp [be]
  | cons x a ih => rw [List.cons_append, be_cons, ih, be_cons, List.length_append, pow_add]; ring

/-- The message scalar is that of the leftmost 32 bytes (45_ecdsa R421). -/
theorem msgScalar_eq (h : List Byte) : msgScalar h = be (h.take 32) % N := by
  rw [msgScalar, bits2int]
  split
  · rename_i hl
    congr 1
    have e : be h = be (h.take 32) * 256 ^ (h.drop 32).length + be (h.drop 32) := by rw [← be_append, List.take_append_drop]
    have hlen : (h.drop 32).length = h.length - 32 := List.length_drop
    have hlt := be_lt (h.drop 32)
    have e2 : 2 ^ (8 * h.length - 256) = 256 ^ (h.drop 32).length := by
      have h8 : ∀ n : Nat, 256 ^ n = 2 ^ (8 * n) := fun n => by rw [pow_mul]; norm_num
      rw [hlen, h8, show 8 * (h.length - 32) = 8 * h.length - 256 by omega]
    rw [e2, e, Nat.add_comm, Nat.add_mul_div_right _ _ (by positivity), Nat.div_eq_of_lt hlt, zero_add]
  · rw [List.take_of_length_le (by omega)]

/-- A signing attempt that succeeds gives r and s in (0, n) (45_ecdsa R425). -/
theorem kmdToSig_range {k m d : Nat} {sig : EcdsaSig} (h : kmdToSig k m d = some sig) :
    0 < sig.r ∧ sig.r < N ∧ 0 < sig.s ∧ sig.s < N := by
  simp only [kmdToSig] at h
  split at h
  · split at h
    · cases h
    · split at h
      · cases h
      · cases h
        exact ⟨Nat.pos_of_ne_zero ‹_›, Nat.mod_lt _ N_pos, Nat.pos_of_ne_zero ‹_›, Nat.mod_lt _ N_pos⟩
  · cases h

/-- What the signing loop can give (45_ecdsa R426): a signature in range with a count of at most DRBG_CAP, or E_DRBG. -/
theorem signLoop_cases (f : Nat) (g : Drbg) (m d : Nat) :
    signLoop f g m d = .error .drbg ∨
    ∃ sig cnt, signLoop f g m d = .ok (sig, cnt) ∧ g.cnt < cnt ∧ cnt ≤ 1000 ∧ 0 < sig.r ∧ sig.r < N ∧ 0 < sig.s ∧ sig.s < N := by
  induction f generalizing g with
  | zero => exact .inl rfl
  | succ f ih =>
    simp only [signLoop, generate, drbgCap]
    by_cases hc : 1000 ≤ g.cnt
    · simp [hc]
    · simp only [hc, if_false]
      split
      · rename_i sig hs
        exact .inr ⟨sig, _, rfl, by simp, by simp; omega, kmdToSig_range hs⟩
      · rcases ih (reseed _ []) with h | ⟨sig, cnt, h, h1, h2⟩
        · exact .inl h
        · refine .inr ⟨sig, cnt, h, ?_, h2⟩
          have : (reseed { g with v := Config.hmacSha256 (be32 g.k) (be32 g.v), cnt := g.cnt + 1, phase := .generating } []).cnt
            = g.cnt + 1 := rfl
          rw [this] at h1; omega

/-- The same with the low-S step (45_ecdsa R426). -/
theorem esignRun_cases (nocanon : Bool) (key m : Nat) (entropy : List Byte) :
    esignRun nocanon key m entropy = .error .drbg ∨
    ∃ sig cnt, esignRun nocanon key m entropy = .ok (sig, cnt) ∧ 1 ≤ cnt ∧ cnt ≤ 1000 ∧
      0 < sig.r ∧ sig.r < N ∧ 0 < sig.s ∧ sig.s < N ∧ (nocanon = false → sig.s ≤ N / 2) := by
  rcases signLoop_cases (drbgCap + 1) (reseed drbgNew (signSeed key m ++ entropy)) m key with h | ⟨sig, cnt, h, h1, h2, h3, h4, h5, h6⟩
  · left; simp [esignRun, h]
  · refine .inr ⟨if nocanon then sig else canonicalSig sig, cnt, by simp [esignRun, h], by omega, h2, ?_⟩
    have hN : N = 2 * halfN + 1 := by decide
    have hh : N / 2 = halfN := by decide
    cases nocanon
    · simp only [Bool.false_eq_true, if_false, canonicalSig]
      split <;> rename_i hs
      · exact ⟨h3, h4, by show 0 < N - sig.s; omega, by show N - sig.s < N; omega, fun _ => by show N - sig.s ≤ N / 2; omega⟩
      · exact ⟨h3, h4, h5, h6, fun _ => by omega⟩
    · exact ⟨h3, h4, h5, h6, fun h => by cases h⟩

/-- An inverse mod n is the one that `nInv` computes (43_scalar R325). -/
theorem nInv_unique {a w : Nat} (hw : w < N) (h : a * w % N = 1) : nInv a = w := by
  have hc : Nat.gcd (a % N) N = 1 := by
    have hd : Nat.gcd (a % N) N ∣ 1 := by
      have hN := Nat.gcd_dvd_right (a % N) N
      have hp : Nat.gcd (a % N) N ∣ a * w % N := by
        rw [Nat.mul_mod]; exact (Nat.dvd_mod_iff hN).mpr (Dvd.dvd.mul_right (Nat.gcd_dvd_left _ _) _)
      rwa [h] at hp
    exact Nat.dvd_one.mp hd
  obtain ⟨h1, h2⟩ := nInv_spec a hc
  have e : nInv a * (a * w) % N = w * (a * nInv a) % N := by congr 1; ring
  rw [Nat.mul_mod, h, Nat.mul_mod w, h2, Nat.mul_one, Nat.mul_one, Nat.mod_mod, Nat.mod_mod] at e
  rwa [Nat.mod_eq_of_lt h1, Nat.mod_eq_of_lt hw] at e

/-- The tags' bytes are their ASCII names (46_schnorr R450). -/
theorem taggedHash_aux (b : List Byte) : (taggedHash tagAux b).toNat = taggedDigest "BIP0340/aux" b := by
  have h : tagAux = "BIP0340/aux".toList.map (fun c => BitVec.ofNat 8 c.toNat) := by decide
  rw [taggedHash, h]; rfl

theorem taggedHash_nonce (b : List Byte) : (taggedHash tagNonce b).toNat = taggedDigest "BIP0340/nonce" b := by
  have h : tagNonce = "BIP0340/nonce".toList.map (fun c => BitVec.ofNat 8 c.toNat) := by decide
  rw [taggedHash, h]; rfl

theorem challenge_eq (r px : Word) (msg : List Byte) : challenge r px msg = challengeOf r px msg := by
  have h : tagChallenge = "BIP0340/challenge".toList.map (fun c => BitVec.ofNat 8 c.toNat) := by decide
  rw [challenge, taggedHash, h]; rfl

/-- `verifyS` decides Safety's SchnorrGood (46_schnorr R453). -/
theorem verifyS_iff (r s px : Word) (msg : List Byte) : verifyS r s px msg = true ↔ SchnorrGood r s px msg := by
  have hi : isSchnorrSig r s = true ↔ 0 < r.toNat ∧ r.toNat < P ∧ 0 < s.toNat ∧ s.toNat < N := by
    simp [isSchnorrSig, inFieldRange, inScalarRange, and_assoc]
  have key : ∀ x : Point,
      (if x.z = 0 then false else if (aff x).y.toNat % 2 = 1 then false else (aff x).x == r) = true ↔
        x.z ≠ 0 ∧ (aff x).y.toNat % 2 = 0 ∧ (aff x).x = r := fun x => by
    by_cases h0 : x.z = 0
    · simp [h0]
    · by_cases h1 : (aff x).y.toNat % 2 = 1
      · simp [h1]
      · simp [Nat.mod_two_ne_one.mp h1]
  simp only [verifyS, SchnorrGood, challenge_eq, ← hi]
  by_cases h : isSchnorrSig r s = true
  · rcases hl : lift px 0 with e | p
    · simp [h]
    · simp only [h, Bool.not_true, Bool.false_eq_true, if_false, true_and, Except.ok.injEq, exists_eq_left', schnorrPoint]
      exact key _
  · simp [h]

end Sys2Proof.Machine
end

