-- ==== Sys2Proof/Tests/Slice0.lean ====
section
/-! SUPPORT. Tests of the model against the spec's own words and vectors, and the witnesses that the hypotheses of each
obligation can be met. -/

open Sys2Proof Sys2Proof.Machine

namespace Sys2Proof.Tests

set_option Elab.async false

/-! ### Helpers -/

/-- The reset state with some registers, point registers and BUF bytes set. -/
def testState (r : List (Nat × Nat)) (q : List (Nat × Nat × Nat × Nat)) (b : List (Nat × List Nat)) : State :=
  let s1 := r.foldl (fun s x => s.setR (Fin.ofNat 16 x.1) (BitVec.ofNat 256 x.2)) State.reset
  let s2 := q.foldl (fun s x => s.setQ (Fin.ofNat 16 x.1)
    ⟨BitVec.ofNat 256 x.2.1, BitVec.ofNat 256 x.2.2.1, BitVec.ofNat 256 x.2.2.2⟩) s1
  b.foldl (fun s x => s.writeBuf x.1 (x.2.map (BitVec.ofNat 8))) s2

/-- The step that executes w ends without error, leaves no command in flight, and meets the check. -/
def completes (w : Nat) (s : State) (check : State → Bool) : Bool :=
  match step (s.withFetchWord 64 w) with
  | .next t => t.done && !t.err && t.inflight.isNone && check t
  | .fault _ => false
  | .refused _ => false

/-- The step that executes w changes nothing but the error report, which is the code of the error and w. -/
def refuses (w code : Nat) (s : State) : Bool :=
  match step (s.withFetchWord 64 w) with
  | .next t =>
    decide (t = { s with err := true, done := true, errcode := t.errcode, errcmd := BitVec.ofNat 64 w }) &&
      (errorCode t.errcode).toNat == code
  | .fault _ => false
  | .refused _ => false

/-- Gx (10_state R48). -/
abbrev testGx : Nat := 0x79BE667EF9DCBBAC55A06295CE870B07029BFCDB2DCE28D959F2815B16F81798

/-- Gy (10_state R48). -/
abbrev testGy : Nat := 0x483ADA7726A3C4655DA4FBFC0E1108A8FD17B448A68554199C47D08FFB10D4B8

/-- The 32-byte hash of the vectors of 45_ecdsa. -/
abbrev testHash : List Nat :=
  [160, 220, 101, 255, 202, 121, 152, 115, 203, 234, 10, 194, 116, 1, 91, 149, 38, 80, 93, 170, 174, 211, 133, 21, 84, 37, 247,
    51, 119, 4, 136, 62]

/-! ### WellFormed: an ill-formed term for each check -/

/-- 30_encoding R125: each reserved value inside a used field is refused by the check. -/
theorem test_wellFormed_refuses :
    (Instr.ldc 0 10).wellFormed = false ∧ (Instr.ld 0 0 0).wellFormed = false ∧ (Instr.ld 0 0 33).wellFormed = false ∧
    (Instr.st 0 0 0).wellFormed = false ∧ (Instr.st 0 0 33).wellFormed = false ∧ (Instr.csrr 0 9).wellFormed = false ∧
    (Instr.csrw 0 9).wellFormed = false ∧ (Instr.csrw 0 0).wellFormed = false ∧ (Instr.csrw 0 2).wellFormed = false ∧
    (Instr.fbinv 0 0 0).wellFormed = false ∧ (Instr.fbinv 0 0 17).wellFormed = false ∧
    (Instr.paffb 0 0 0).wellFormed = false ∧ (Instr.paffb 0 0 17).wellFormed = false ∧
    (Instr.ptenc 0 0 3).wellFormed = false ∧ (Instr.esign 0 0 0 32 false 3).wellFormed = false := by
  decide

/-- The values next to them are legal. -/
theorem test_wellFormed_accepts :
    (Instr.ldc 0 9).WellFormed ∧ (Instr.ld 0 0 1).WellFormed ∧ (Instr.ld 0 0 32).WellFormed ∧ (Instr.st 0 0 32).WellFormed ∧
    (Instr.csrr 0 8).WellFormed ∧ (Instr.csrw 0 1).WellFormed ∧ (Instr.csrw 0 4).WellFormed ∧ (Instr.csrw 0 5).WellFormed ∧
    (Instr.fbinv 0 0 1).WellFormed ∧ (Instr.paffb 0 0 16).WellFormed ∧ (Instr.ptenc 0 0 2).WellFormed ∧
    (Instr.esign 0 0 0 32 false 2).WellFormed := by
  decide

/-! ### Decoding -/

/-- Words with opcode 0x0_, written out from the field places of 30_encoding R120 and the rows of R127. -/
theorem test_decode_move :
    decode 0x0000_0000_0000_0000 = .ok .nop ∧
    decode 0x01D0_0000_0000_BEEF = .ok (.ldi 13 0xBEEF) ∧
    decode 0x02D0_0000_0000_0009 = .ok (.ldc 13 9) ∧
    decode 0x03D6_0000_0000_0000 = .ok (.mov 13 6) ∧
    decode 0x04D0_005A_31C7_0000 = .ok (.ld 13 0x5A3 0x1C7) ∧
    decode 0x0506_005A_31C7_0000 = .ok (.st 6 0x5A3 0x1C7) ∧
    decode 0x06D0_0000_0000_0005 = .ok (.csrr 13 5) ∧
    decode 0x0706_0000_0000_0005 = .ok (.csrw 6 5) ∧
    decode 0x0806_9000_0000_0000 = .ok (.rcmp 6 9) ∧
    decode 0x0906_0000_0000_0000 = .ok (.rodd 6) := by
  decide +kernel

/-- Words with opcode 0x1_, written out from the field places of 30_encoding R120 and the rows of R127. -/
theorem test_decode_field :
    decode 0x10D6_9000_0000_0000 = .ok (.fadd 13 6 9) ∧
    decode 0x11D6_9000_0000_0000 = .ok (.fsub 13 6 9) ∧
    decode 0x12D6_9000_0000_0000 = .ok (.fmul 13 6 9) ∧
    decode 0x13D6_0000_0000_0000 = .ok (.fsqr 13 6) ∧
    decode 0x14D6_0000_0000_0000 = .ok (.fneg 13 6) ∧
    decode 0x15D6_9000_0000_0000 = .ok (.fpow 13 6 9) ∧
    decode 0x16D6_0000_0000_0000 = .ok (.finv 13 6) ∧
    decode 0x17D6_0000_0000_0000 = .ok (.fsqrt 13 6) ∧
    decode 0x18D6_0000_0000_0015 = .ok (.fbinv 13 6 0x15) ∧
    decode 0x19D6_0000_0000_0000 = .ok (.fred 13 6) := by
  decide +kernel

/-- Words with opcode 0x2_, written out from the field places of 30_encoding R120 and the rows of R127. -/
theorem test_decode_scalar :
    decode 0x20D6_9000_0000_0000 = .ok (.nadd 13 6 9) ∧
    decode 0x21D6_9000_0000_0000 = .ok (.nsub 13 6 9) ∧
    decode 0x22D6_9000_0000_0000 = .ok (.nmul 13 6 9) ∧
    decode 0x23D6_0000_0000_0000 = .ok (.nneg 13 6) ∧
    decode 0x24D6_0000_0000_0000 = .ok (.ninv 13 6) ∧
    decode 0x25D6_0000_0000_0000 = .ok (.nred 13 6) ∧
    decode 0x2606_0000_0000_0000 = .ok (.nchk 6) ∧
    decode 0x27D6_0000_0000_0000 = .ok (.nsplit 13 6) := by
  decide +kernel

/-- Words with opcode 0x3_, written out from the field places of 30_encoding R120 and the rows of R127. -/
theorem test_decode_point :
    decode 0x30D6_9000_0000_0000 = .ok (.pset 13 6 9) ∧
    decode 0x31D6_9200_0000_0000 = .ok (.psetj 13 6 9 2) ∧
    decode 0x32D6_0000_0000_0000 = .ok (.pget 13 6) ∧
    decode 0x33D6_0000_0000_0000 = .ok (.pgetj 13 6) ∧
    decode 0x34D0_0000_0000_0000 = .ok (.pldg 13) ∧
    decode 0x35D0_0000_0000_0000 = .ok (.pzero 13) ∧
    decode 0x36D6_0000_0000_0000 = .ok (.pmov 13 6) ∧
    decode 0x37D6_0000_0000_0000 = .ok (.pneg 13 6) ∧
    decode 0x38D6_0000_0000_0000 = .ok (.pdbl 13 6) ∧
    decode 0x39D6_9000_0000_0000 = .ok (.padd 13 6 9) ∧
    decode 0x3A06_9000_0000_0000 = .ok (.peq 6 9) ∧
    decode 0x3B06_0000_0000_0000 = .ok (.pchk 6) ∧
    decode 0x3CD6_0000_0000_0000 = .ok (.paff 13 6) ∧
    decode 0x3DD6_0000_0000_0015 = .ok (.paffb 13 6 0x15) ∧
    decode 0x3ED6_0000_0000_0000 = .ok (.pendo 13 6) ∧
    decode 0x3FD6_0000_0000_0000 = .ok (.pwei 13 6) := by
  decide +kernel

/-- Words with opcode 0x4_, written out from the field places of 30_encoding R120 and the rows of R127. -/
theorem test_decode_multiply :
    decode 0x40D6_9000_0000_0000 = .ok (.mul 13 6 9) ∧
    decode 0x41D6_9000_0000_0000 = .ok (.mulu 13 6 9) ∧
    decode 0x4206_0000_0000_0000 = .ok (.precomp 6) ∧
    decode 0x4300_0000_0000_0000 = .ok .cinv := by
  decide +kernel

/-- Words with opcode 0x5_, written out from the field places of 30_encoding R120 and the rows of R127. -/
theorem test_decode_codec :
    decode 0x5006_005A_3000_0002 = .ok (.ptenc 6 0x5A3 2) ∧
    decode 0x51D0_005A_31C7_0000 = .ok (.ptdec 13 0x5A3 0x1C7) ∧
    decode 0x5206_905A_3000_0000 = .ok (.sigenc 6 9 0x5A3) ∧
    decode 0x53D0_005A_31C7_0000 = .ok (.sigdec 13 0x5A3 0x1C7) ∧
    decode 0x5406_905A_3000_0000 = .ok (.derenc 6 9 0x5A3) ∧
    decode 0x55D0_005A_31C7_0000 = .ok (.derdec 13 0x5A3 0x1C7) ∧
    decode 0x5606_905A_3000_0000 = .ok (.rsigenc 6 9 0x5A3) ∧
    decode 0x57D0_005A_31C7_0000 = .ok (.rsigdec 13 0x5A3 0x1C7) ∧
    decode 0x5806_905A_3000_0000 = .ok (.schenc 6 9 0x5A3) ∧
    decode 0x59D0_005A_31C7_0000 = .ok (.schdec 13 0x5A3 0x1C7) ∧
    decode 0x5A06_0000_0000_0000 = .ok (.shighs 6) ∧
    decode 0x5BD6_0000_0000_0001 = .ok (.snorm 13 6 true) := by
  decide +kernel

/-- Words with opcode 0x6_, written out from the field places of 30_encoding R120 and the rows of R127. -/
theorem test_decode_ecdsa :
    decode 0x60D6_005A_31C7_0005 = .ok (.esign 13 6 0x5A3 0x1C7 true 2) ∧
    decode 0x6106_925A_31C7_0001 = .ok (.everify 6 9 2 0x5A3 0x1C7 true) ∧
    decode 0x62D6_905A_31C7_0000 = .ok (.erecover 13 6 9 0x5A3 0x1C7) := by
  decide +kernel

/-- Words with opcode 0x7_, written out from the field places of 30_encoding R120 and the rows of R127. -/
theorem test_decode_schnorr :
    decode 0x70D6_0000_0000_0000 = .ok (.spub 13 6) ∧
    decode 0x71D6_005A_31C7_0001 = .ok (.ssign 13 6 0x5A3 0x1C7 true) ∧
    decode 0x7206_925A_31C7_0000 = .ok (.sverify 6 9 2 0x5A3 0x1C7) := by
  decide +kernel

/-! ### One step of each command, on vectors of 95_test_vectors -/

/-- V40-1: `NOP`. -/
theorem test_nop_v40_1 : completes 0x0000_0000_0000_0000 (testState [] [] [])
    (fun t => decide (t = { State.reset with done := true })) = true := by
  decide +kernel

/-- V40-2: `NOP`. -/
theorem test_nop_v40_2 : refuses 0x0010_0000_0000_0000 1 (testState [] [] []) = true := by
  decide +kernel

/-- V40-4: `LDI r3, #0xBEEF`. -/
theorem test_ldi_v40_4 : completes 0x0130_0000_0000_BEEF (testState [] [] [])
    (fun t => ((t.getR 3).toNat == 48879)) = true := by
  decide +kernel

/-- V40-6: `LDC r2, #1`. -/
theorem test_ldc_v40_6 : completes 0x0220_0000_0000_0001 (testState [] [] [])
    (fun t => ((t.getR 2).toNat == 0xFFFFFFFFFFFFFFFFFFFFFFFFFFFFFFFEBAAEDCE6AF48A03BBFD25E8CD0364141)) = true := by
  decide +kernel

/-- V40-15: `LDC r2, #10`. -/
theorem test_ldc_v40_15 : refuses 0x0220_0000_0000_000A 1 (testState [] [] []) = true := by
  decide +kernel

/-- V40-16: `MOV r1, r2`. -/
theorem test_mov_v40_16 : completes 0x0312_0000_0000_0000 (testState [(2,4660)] [] [])
    (fun t => ((t.getR 1).toNat == 4660) && ((t.getR 2).toNat == 4660)) = true := by
  decide +kernel

/-- V40-17: `LD r1, [0x10, 4]`. -/
theorem test_ld_v40_17 : completes 0x0410_0001_0004_0000 (testState [] [] [(16,[1,2,3,4])])
    (fun t => ((t.getR 1).toNat == 0x1020304)) = true := by
  decide +kernel

/-- V40-21: `LD r1, [0xFFF, 2]`. -/
theorem test_ld_v40_21 : refuses 0x0410_00FF_F002_0000 2 (testState [] [] []) = true := by
  decide +kernel

/-- V40-24: `ST r1, [0x20, 4]`. -/
theorem test_st_v40_24 : completes 0x0501_0002_0004_0000 (testState [(1,43981)] [] [])
    (fun t => (be (t.readBuf 32 4) == 0x0000ABCD)) = true := by
  decide +kernel

/-- V40-25: `ST r1, [0x20, 1]`. -/
theorem test_st_v40_25 : refuses 0x0501_0002_0001_0000 3 (testState [(1,511)] [] []) = true := by
  decide +kernel

/-- V40-27: `CSRR r5, #1`. -/
theorem test_csrr_v40_27 : completes 0x0650_0000_0000_0001 (testState [] [] [])
    (fun t => ((t.getR 5).toNat == 1)) = true := by
  decide +kernel

/-- V40-28: `CSRR r5, #4`. -/
theorem test_csrr_v40_28 : completes 0x0650_0000_0000_0004 (testState [] [] [])
    (fun t => ((t.getR 5).toNat == 6)) = true := by
  decide +kernel

/-- V40-30: `CSRW #4, r1`. -/
theorem test_csrw_v40_30 : completes 0x0701_0000_0000_0004 (testState [(1,5)] [] [])
    (fun t => ((t.csrRead 4 false).toNat == 5)) = true := by
  decide +kernel

/-- V40-32: `CSRW #0, r1`. -/
theorem test_csrw_v40_32 : refuses 0x0701_0000_0000_0000 1 (testState [] [] []) = true := by
  decide +kernel

/-- V40-33: `RCMP r1, r2`. -/
theorem test_rcmp_v40_33 : completes 0x0801_2000_0000_0000 (testState [(1,7),(2,7)] [] [])
    (fun t => (t.res == true)) = true := by
  decide +kernel

/-- V40-34: `RCMP r1, r2`. -/
theorem test_rcmp_v40_34 : completes 0x0801_2000_0000_0000 (testState [(1,7),(2,8)] [] [])
    (fun t => (t.res == false)) = true := by
  decide +kernel

/-- V40-35: `RODD r1`. -/
theorem test_rodd_v40_35 : completes 0x0901_0000_0000_0000 (testState [(1,3)] [] [])
    (fun t => (t.res == true)) = true := by
  decide +kernel

/-- V40-36: `RODD r1`. -/
theorem test_rodd_v40_36 : completes 0x0901_0000_0000_0000 (testState [(1,2)] [] [])
    (fun t => (t.res == false)) = true := by
  decide +kernel

/-- V41-1: `FADD r0, r1, r2`. -/
theorem test_fadd_v41_1 : completes 0x1001_2000_0000_0000 (testState [(1,
      0xFFFFFFFFFFFFFFFFFFFFFFFFFFFFFFFFFFFFFFFFFFFFFFFFFFFFFFFEFFFFFC2E),(2,1)] [] [])
    (fun t => ((t.getR 0).toNat == 0)) = true := by
  decide +kernel

/-- V41-2: `FADD r0, r1, r2`. -/
theorem test_fadd_v41_2 : completes 0x1001_2000_0000_0000 (testState [(1,
      0xFFFFFFFFFFFFFFFFFFFFFFFFFFFFFFFFFFFFFFFFFFFFFFFFFFFFFFFFFFFFFFFF),(2,
      0xFFFFFFFFFFFFFFFFFFFFFFFFFFFFFFFFFFFFFFFFFFFFFFFFFFFFFFFFFFFFFFFF)] [] [])
    (fun t => ((t.getR 0).toNat == 0x2000007A0)) = true := by
  decide +kernel

/-- V41-3: `FSUB r0, r1, r2`. -/
theorem test_fsub_v41_3 : completes 0x1101_2000_0000_0000 (testState [(1,0),(2,1)] [] [])
    (fun t => ((t.getR 0).toNat == 0xFFFFFFFFFFFFFFFFFFFFFFFFFFFFFFFFFFFFFFFFFFFFFFFFFFFFFFFEFFFFFC2E)) = true := by
  decide +kernel

/-- V41-4: `FMUL r0, r1, r2`. -/
theorem test_fmul_v41_4 : completes 0x1201_2000_0000_0000 (testState [(1,
      0xFFFFFFFFFFFFFFFFFFFFFFFFFFFFFFFFFFFFFFFFFFFFFFFFFFFFFFFEFFFFFC2E),(2,
      0xFFFFFFFFFFFFFFFFFFFFFFFFFFFFFFFFFFFFFFFFFFFFFFFFFFFFFFFEFFFFFC2E)] [] [])
    (fun t => ((t.getR 0).toNat == 1)) = true := by
  decide +kernel

/-- V41-5: `FMUL r0, r1, r2`. -/
theorem test_fmul_v41_5 : completes 0x1201_2000_0000_0000 (testState [(1,0x100000000000000000000000000000000),(2,
      0x100000000000000000000000000000000)] [] [])
    (fun t => ((t.getR 0).toNat == 0x1000003D1)) = true := by
  decide +kernel

/-- V41-6: `FSQR r0, r1`. -/
theorem test_fsqr_v41_6 : completes 0x1301_0000_0000_0000 (testState [(1,testGx)] [] [])
    (fun t => ((t.getR 0).toNat == 0x8550E7D238FCF3086BA9ADCF0FB52A9DE3652194D06CB5BB38D50229B854FC49)) = true := by
  decide +kernel

/-- V41-7: `FNEG r0, r1`. -/
theorem test_fneg_v41_7 : completes 0x1401_0000_0000_0000 (testState [(1,0)] [] [])
    (fun t => ((t.getR 0).toNat == 0)) = true := by
  decide +kernel

/-- V41-8: `FNEG r0, r1`. -/
theorem test_fneg_v41_8 : completes 0x1401_0000_0000_0000 (testState [(1,1)] [] [])
    (fun t => ((t.getR 0).toNat == 0xFFFFFFFFFFFFFFFFFFFFFFFFFFFFFFFFFFFFFFFFFFFFFFFFFFFFFFFEFFFFFC2E)) = true := by
  decide +kernel

/-- V41-9: `FPOW r0, r1, r2`. -/
theorem test_fpow_v41_9 : completes 0x1501_2000_0000_0000 (testState [(1,0),(2,0)] [] [])
    (fun t => ((t.getR 0).toNat == 1)) = true := by
  decide +kernel

/-- V41-10: `FPOW r0, r1, r2`. -/
theorem test_fpow_v41_10 : completes 0x1501_2000_0000_0000 (testState [(1,3),(2,
      0xFFFFFFFFFFFFFFFFFFFFFFFFFFFFFFFFFFFFFFFFFFFFFFFFFFFFFFFEFFFFFC2E)] [] [])
    (fun t => ((t.getR 0).toNat == 1)) = true := by
  decide +kernel

/-- V41-12: `FINV r0, r1`. -/
theorem test_finv_v41_12 : completes 0x1601_0000_0000_0000 (testState [(1,2)] [] [])
    (fun t => ((t.getR 0).toNat == 0x7FFFFFFFFFFFFFFFFFFFFFFFFFFFFFFFFFFFFFFFFFFFFFFFFFFFFFFF7FFFFE18)) = true := by
  decide +kernel

/-- V41-14: `FINV r0, r1`. -/
theorem test_finv_v41_14 : refuses 0x1601_0000_0000_0000 7 (testState [(1,
      0xFFFFFFFFFFFFFFFFFFFFFFFFFFFFFFFFFFFFFFFFFFFFFFFFFFFFFFFEFFFFFC2F)] [] []) = true := by
  decide +kernel

/-- V41-16: `FSQRT r0, r1`. -/
theorem test_fsqrt_v41_16 : completes 0x1701_0000_0000_0000 (testState [(1,3)] [] [])
    (fun t => ((t.getR 0).toNat == 0xA2D2BA93507F1DF233770C2A797962CC61F6D15DA14ECD47D8D27AE1CD5F852) &&
          (t.res == false)) = true := by
  decide +kernel

/-- V41-18: `FSQRT r0, r1`. -/
theorem test_fsqrt_v41_18 : completes 0x1701_0000_0000_0000 (testState [(1,
      0x4866D6A5AB41AB2C6BCC57CCD3735DA5F16F80A548E5E20A44E4E9B8118C26F2)] [] [])
    (fun t => ((t.getR 0).toNat == testGy) && (t.res == true)) = true := by
  decide +kernel

/-- V41-19: `FBINV r4, r1, #3`. -/
theorem test_fbinv_v41_19 : completes 0x1841_0000_0000_0003 (testState [(1,2),(2,0),(3,3)] [] [])
    (fun t => ((t.getR 4).toNat == 0x7FFFFFFFFFFFFFFFFFFFFFFFFFFFFFFFFFFFFFFFFFFFFFFFFFFFFFFF7FFFFE18) &&
          ((t.getR 5).toNat == 0) &&
          ((t.getR 6).toNat == 0xAAAAAAAAAAAAAAAAAAAAAAAAAAAAAAAAAAAAAAAAAAAAAAAAAAAAAAA9FFFFFD75)) = true := by
  decide +kernel

/-- V41-22: `FBINV r14, r0, #3`. -/
theorem test_fbinv_v41_22 : completes 0x18E0_0000_0000_0003 (testState [(0,1),(1,2),(2,4)] [] [])
    (fun t => ((t.getR 14).toNat == 1) &&
          ((t.getR 15).toNat == 0x7FFFFFFFFFFFFFFFFFFFFFFFFFFFFFFFFFFFFFFFFFFFFFFFFFFFFFFF7FFFFE18) &&
          ((t.getR 0).toNat == 0x3FFFFFFFFFFFFFFFFFFFFFFFFFFFFFFFFFFFFFFFFFFFFFFFFFFFFFFFBFFFFF0C)) = true := by
  decide +kernel

/-- V41-23: `FRED r0, r1`. -/
theorem test_fred_v41_23 : completes 0x1901_0000_0000_0000 (testState [(1,
      0xFFFFFFFFFFFFFFFFFFFFFFFFFFFFFFFFFFFFFFFFFFFFFFFFFFFFFFFFFFFFFFFF)] [] [])
    (fun t => ((t.getR 0).toNat == 0x1000003D0)) = true := by
  decide +kernel

/-- V41-24: `FRED r0, r1`. -/
theorem test_fred_v41_24 : completes 0x1901_0000_0000_0000 (testState [(1,
      0xFFFFFFFFFFFFFFFFFFFFFFFFFFFFFFFFFFFFFFFFFFFFFFFFFFFFFFFEFFFFFC2F)] [] [])
    (fun t => ((t.getR 0).toNat == 0)) = true := by
  decide +kernel

/-- V41-25: `PWEI r0, r1`. -/
theorem test_pwei_v41_25 : completes 0x3F01_0000_0000_0000 (testState [(1,testGx)] [] [])
    (fun t => ((t.getR 0).toNat == 0x4866D6A5AB41AB2C6BCC57CCD3735DA5F16F80A548E5E20A44E4E9B8118C26F2)) = true := by
  decide +kernel

/-- V42-2: `PSET q1, r1, r2`. -/
theorem test_pset_v42_2 : completes 0x3011_2000_0000_0000 (testState [(1,0),(2,0)] [] [])
    (fun t => ((t.getQ 1) == ⟨0,1,0⟩)) = true := by
  decide +kernel

/-- V42-3: `PSET q1, r1, r2`. -/
theorem test_pset_v42_3 : refuses 0x3011_2000_0000_0000 5 (testState [(1,
      0xFFFFFFFFFFFFFFFFFFFFFFFFFFFFFFFFFFFFFFFFFFFFFFFFFFFFFFFEFFFFFC2F),(2,0)] [] []) = true := by
  decide +kernel

/-- V42-5: `PSETJ q1, r1, r2, r3`. -/
theorem test_psetj_v42_5 : completes 0x3111_2300_0000_0000 (testState [(1,
      0xE6F999FBE772EEB156818A573A1C2C1C0A6FF36CB738A36567CA056D5BE06231),(2,
      0x41D6D3B9351E232AED27DFE070884547E8BDA245342AA0CCE23E8481D886AD62),(3,2)] [] [])
    (fun t => (aff (t.getQ 1) == ⟨testGx,testGy⟩)) = true := by
  decide +kernel

/-- V42-6: `PGET r4, q1`. -/
theorem test_pget_v42_6 : completes 0x3241_0000_0000_0000 (testState [] [(1,
      0xE6F999FBE772EEB156818A573A1C2C1C0A6FF36CB738A36567CA056D5BE06231,
      0x41D6D3B9351E232AED27DFE070884547E8BDA245342AA0CCE23E8481D886AD62,2)] [])
    (fun t => ((t.getR 4).toNat == testGx) && ((t.getR 5).toNat == testGy)) = true := by
  decide +kernel

/-- V42-7: `PGET r15, q1`. -/
theorem test_pget_v42_7 : completes 0x32F1_0000_0000_0000 (testState [] [(1,0,1,0)] [])
    (fun t => ((t.getR 15).toNat == 0) && ((t.getR 0).toNat == 0)) = true := by
  decide +kernel

/-- V42-8: `PGETJ r4, q1`. -/
theorem test_pgetj_v42_8 : completes 0x3341_0000_0000_0000 (testState [] [(1,0,1,0)] [])
    (fun t => ((t.getR 4).toNat == 0) && ((t.getR 5).toNat == 1) && ((t.getR 6).toNat == 0)) = true := by
  decide +kernel

/-- V42-9: `PLDG q2`. -/
theorem test_pldg_v42_9 : completes 0x3420_0000_0000_0000 (testState [] [] [])
    (fun t => ((t.getQ 2) == ⟨testGx,testGy,1⟩)) = true := by
  decide +kernel

/-- V42-10: `PZERO q2`. -/
theorem test_pzero_v42_10 : completes 0x3520_0000_0000_0000 (testState [] [(2,testGx,testGy,1)] [])
    (fun t => ((t.getQ 2) == ⟨0,1,0⟩)) = true := by
  decide +kernel

/-- V42-11: `PMOV q3, q2`. -/
theorem test_pmov_v42_11 : completes 0x3632_0000_0000_0000 (testState [] [(2,testGx,testGy,1)] [])
    (fun t => ((t.getQ 3) == ⟨testGx,testGy,1⟩)) = true := by
  decide +kernel

/-- V42-12: `PNEG q3, q2`. -/
theorem test_pneg_v42_12 : completes 0x3732_0000_0000_0000 (testState [] [(2,testGx,testGy,1)] [])
    (fun t => ((t.getQ 3) == ⟨testGx,0xB7C52588D95C3B9AA25B0403F1EEF75702E84BB7597AABE663B82F6F04EF2777,1⟩)) = true := by
  decide +kernel

/-- V42-13: `PNEG q3, q2`. -/
theorem test_pneg_v42_13 : completes 0x3732_0000_0000_0000 (testState [] [(2,0,1,0)] [])
    (fun t => ((t.getQ 3) == ⟨0,0xFFFFFFFFFFFFFFFFFFFFFFFFFFFFFFFFFFFFFFFFFFFFFFFFFFFFFFFEFFFFFC2E,0⟩)) = true := by
  decide +kernel

/-- V42-14: `PDBL q3, q2`. -/
theorem test_pdbl_v42_14 : completes 0x3832_0000_0000_0000 (testState [] [(2,testGx,testGy,1)] [])
    (fun t => ((t.getQ 3) == ⟨0x7D152C041EA8E1DC2191843D1FA9DB55B68F88FEF695E2C791D40444B365AFC2,
          0x56915849F52CC8F76F5FD7E4BF60DB4A43BF633E1B1383F85FE89164BFADCBDB,
          0x9075B4EE4D4788CABB49F7F81C221151FA2F68914D0AA833388FA11FF621A970⟩) &&
          (aff (t.getQ 3) == ⟨0xC6047F9441ED7D6D3045406E95C07CD85C778E4B8CEF3CA7ABAC09B95C709EE5,
          0x1AE168FEA63DC339A3C58419466CEAEEF7F632653266D0E1236431A950CFE52A⟩)) = true := by
  decide +kernel

/-- V42-15: `PDBL q3, q2`. -/
theorem test_pdbl_v42_15 : completes 0x3832_0000_0000_0000 (testState [] [(2,0,1,0)] [])
    (fun t => ((t.getQ 3) == ⟨0,0xFFFFFFFFFFFFFFFFFFFFFFFFFFFFFFFFFFFFFFFFFFFFFFFFFFFFFFFEFFFFFC27,0⟩)) = true := by
  decide +kernel

/-- V42-17: `PADD q3, q1, q2`. -/
theorem test_padd_v42_17 : completes 0x3931_2000_0000_0000 (testState [] [(1,testGx,testGy,1),(2,
      0xC6047F9441ED7D6D3045406E95C07CD85C778E4B8CEF3CA7ABAC09B95C709EE5,
      0x1AE168FEA63DC339A3C58419466CEAEEF7F632653266D0E1236431A950CFE52A,1)] [])
    (fun t => (aff (t.getQ 3) == ⟨0xF9308A019258C31049344F85F89D5229B531C845836F99B08601F113BCE036F9,
          0x388F7B0F632DE8140FE337E62A37F3566500A99934C2231B6CB9FD7584B8E672⟩)) = true := by
  decide +kernel

/-- V42-19: `PADD q3, q1, q2`. -/
theorem test_padd_v42_19 : completes 0x3931_2000_0000_0000 (testState [] [(1,testGx,testGy,1),(2,testGx,
      0xB7C52588D95C3B9AA25B0403F1EEF75702E84BB7597AABE663B82F6F04EF2777,1)] [])
    (fun t => ((t.getQ 3).z == 0)) = true := by
  decide +kernel

/-- V42-21: `PEQ q1, q2`. -/
theorem test_peq_v42_21 : completes 0x3A01_2000_0000_0000 (testState [] [(1,testGx,testGy,1),(2,
      0xE6F999FBE772EEB156818A573A1C2C1C0A6FF36CB738A36567CA056D5BE06231,
      0x41D6D3B9351E232AED27DFE070884547E8BDA245342AA0CCE23E8481D886AD62,2)] [])
    (fun t => (t.res == true)) = true := by
  decide +kernel

/-- V42-24: `PEQ q1, q2`. -/
theorem test_peq_v42_24 : completes 0x3A01_2000_0000_0000 (testState [] [(1,0,0,0),(2,testGx,testGy,1)] [])
    (fun t => (t.res == true)) = true := by
  decide +kernel

/-- V42-25: `PCHK q1`. -/
theorem test_pchk_v42_25 : completes 0x3B01_0000_0000_0000 (testState [] [(1,testGx,testGy,1)] [])
    (fun _ => true) = true := by
  decide +kernel

/-- V42-26: `PCHK q1`. -/
theorem test_pchk_v42_26 : refuses 0x3B01_0000_0000_0000 5 (testState [] [(1,1,1,1)] []) = true := by
  decide +kernel

/-- V42-28: `PAFF q2, q1`. -/
theorem test_paff_v42_28 : completes 0x3C21_0000_0000_0000 (testState [] [(1,
      0xE6F999FBE772EEB156818A573A1C2C1C0A6FF36CB738A36567CA056D5BE06231,
      0x41D6D3B9351E232AED27DFE070884547E8BDA245342AA0CCE23E8481D886AD62,2)] [])
    (fun t => ((t.getQ 2) == ⟨testGx,testGy,1⟩)) = true := by
  decide +kernel

/-- V42-29: `PAFF q2, q1`. -/
theorem test_paff_v42_29 : completes 0x3C21_0000_0000_0000 (testState [] [(1,5,7,0)] [])
    (fun t => ((t.getQ 2) == ⟨0,1,0⟩)) = true := by
  decide +kernel

/-- V42-30: `PAFFB q4, q1, #3`. -/
theorem test_paffb_v42_30 : completes 0x3D41_0000_0000_0003 (testState [] [(1,
      0xE6F999FBE772EEB156818A573A1C2C1C0A6FF36CB738A36567CA056D5BE06231,
      0x41D6D3B9351E232AED27DFE070884547E8BDA245342AA0CCE23E8481D886AD62,2),(2,0,1,0),(3,testGx,testGy,1)] [])
    (fun t => ((t.getQ 4) == ⟨testGx,testGy,1⟩) && ((t.getQ 5) == ⟨0,1,0⟩) && ((t.getQ 6) == ⟨testGx,testGy,1⟩)) = true := by
  decide +kernel

/-- V42-31: `PAFFB q4, q1, #0`. -/
theorem test_paffb_v42_31 : refuses 0x3D41_0000_0000_0000 1 (testState [] [] []) = true := by
  decide +kernel

/-- V42-32: `PENDO q2, q1`. -/
theorem test_pendo_v42_32 : completes 0x3E21_0000_0000_0000 (testState [] [(1,testGx,testGy,1)] [])
    (fun t => ((t.getQ 2) == ⟨0xBCACE2E99DA01887AB0102B696902325872844067F15E98DA7BBA04400B88FCB,testGy,1⟩)) = true := by
  decide +kernel

/-- V43-1: `NADD r0, r1, r2`. -/
theorem test_nadd_v43_1 : completes 0x2001_2000_0000_0000 (testState [(1,
      0xFFFFFFFFFFFFFFFFFFFFFFFFFFFFFFFEBAAEDCE6AF48A03BBFD25E8CD0364140),(2,1)] [] [])
    (fun t => ((t.getR 0).toNat == 0)) = true := by
  decide +kernel

/-- V43-2: `NSUB r0, r1, r2`. -/
theorem test_nsub_v43_2 : completes 0x2101_2000_0000_0000 (testState [(1,0),(2,1)] [] [])
    (fun t => ((t.getR 0).toNat == 0xFFFFFFFFFFFFFFFFFFFFFFFFFFFFFFFEBAAEDCE6AF48A03BBFD25E8CD0364140)) = true := by
  decide +kernel

/-- V43-3: `NMUL r0, r1, r2`. -/
theorem test_nmul_v43_3 : completes 0x2201_2000_0000_0000 (testState [(1,
      0xFFFFFFFFFFFFFFFFFFFFFFFFFFFFFFFEBAAEDCE6AF48A03BBFD25E8CD0364140),(2,
      0xFFFFFFFFFFFFFFFFFFFFFFFFFFFFFFFEBAAEDCE6AF48A03BBFD25E8CD0364140)] [] [])
    (fun t => ((t.getR 0).toNat == 1)) = true := by
  decide +kernel

/-- V43-4: `NNEG r0, r1`. -/
theorem test_nneg_v43_4 : completes 0x2301_0000_0000_0000 (testState [(1,1)] [] [])
    (fun t => ((t.getR 0).toNat == 0xFFFFFFFFFFFFFFFFFFFFFFFFFFFFFFFEBAAEDCE6AF48A03BBFD25E8CD0364140)) = true := by
  decide +kernel

/-- V43-5: `NNEG r0, r1`. -/
theorem test_nneg_v43_5 : completes 0x2301_0000_0000_0000 (testState [(1,
      0xFFFFFFFFFFFFFFFFFFFFFFFFFFFFFFFEBAAEDCE6AF48A03BBFD25E8CD0364141)] [] [])
    (fun t => ((t.getR 0).toNat == 0)) = true := by
  decide +kernel

/-- V43-6: `NINV r0, r1`. -/
theorem test_ninv_v43_6 : completes 0x2401_0000_0000_0000 (testState [(1,2)] [] [])
    (fun t => ((t.getR 0).toNat == 0x7FFFFFFFFFFFFFFFFFFFFFFFFFFFFFFF5D576E7357A4501DDFE92F46681B20A1)) = true := by
  decide +kernel

/-- V43-7: `NINV r0, r1`. -/
theorem test_ninv_v43_7 : refuses 0x2401_0000_0000_0000 7 (testState [(1,
      0xFFFFFFFFFFFFFFFFFFFFFFFFFFFFFFFEBAAEDCE6AF48A03BBFD25E8CD0364141)] [] []) = true := by
  decide +kernel

/-- V43-8: `NRED r0, r1`. -/
theorem test_nred_v43_8 : completes 0x2501_0000_0000_0000 (testState [(1,
      0xFFFFFFFFFFFFFFFFFFFFFFFFFFFFFFFFFFFFFFFFFFFFFFFFFFFFFFFFFFFFFFFF)] [] [])
    (fun t => ((t.getR 0).toNat == 0x14551231950B75FC4402DA1732FC9BEBE)) = true := by
  decide +kernel

/-- V43-9: `NCHK r1`. -/
theorem test_nchk_v43_9 : completes 0x2601_0000_0000_0000 (testState [(1,1)] [] [])
    (fun _ => true) = true := by
  decide +kernel

/-- V43-11: `NCHK r1`. -/
theorem test_nchk_v43_11 : refuses 0x2601_0000_0000_0000 4 (testState [(1,
      0xFFFFFFFFFFFFFFFFFFFFFFFFFFFFFFFEBAAEDCE6AF48A03BBFD25E8CD0364141)] [] []) = true := by
  decide +kernel

/-- V43-15: `NSPLIT r4, r1`. -/
theorem test_nsplit_v43_15 : completes 0x2741_0000_0000_0000 (testState [(1,
      0x7FFFFFFFFFFFFFFFFFFFFFFFFFFFFFFFFFFFFFFFFFFFFFFFFFFFFFFFFFFFFFFF)] [] [])
    (fun t => ((t.getR 4).toNat == 0x800001E8) && ((t.getR 5).toNat == 0x59DE565A2C9D0E2D4373F7623C1D7CD7) &&
          ((t.getR 6).toNat == 0)) = true := by
  decide +kernel

/-- V43-16: `NSPLIT r14, r1`. -/
theorem test_nsplit_v43_16 : completes 0x27E1_0000_0000_0000 (testState [(1,
      0xFFFFFFFFFFFFFFFFFFFFFFFFFFFFFFFEBAAEDCE6AF48A03BBFD25E8CD0364140)] [] [])
    (fun t => ((t.getR 14).toNat == 1) && ((t.getR 15).toNat == 0) && ((t.getR 0).toNat == 1)) = true := by
  decide +kernel

/-- V43-21: `MUL q2, q1, r1`. -/
theorem test_mul_v43_21 : completes 0x4021_1000_0000_0000 (testState [(1,
      0xFFFFFFFFFFFFFFFFFFFFFFFFFFFFFFFEBAAEDCE6AF48A03BBFD25E8CD0364140)] [(1,testGx,testGy,1)] [])
    (fun t => ((t.getQ 2) == ⟨testGx,0xB7C52588D95C3B9AA25B0403F1EEF75702E84BB7597AABE663B82F6F04EF2777,1⟩)) = true := by
  decide +kernel

/-- V43-23: `MUL q2, q1, r1`. -/
theorem test_mul_v43_23 : refuses 0x4021_1000_0000_0000 4 (testState [(1,0)] [(1,testGx,testGy,1)] []) = true := by
  decide +kernel

/-- V43-27: `MULU q2, q1, r1`. -/
theorem test_mulu_v43_27 : completes 0x4121_1000_0000_0000 (testState [(1,3)] [(1,testGx,testGy,1)] [])
    (fun t => ((t.getQ 2) == ⟨0xF9308A019258C31049344F85F89D5229B531C845836F99B08601F113BCE036F9,
          0x388F7B0F632DE8140FE337E62A37F3566500A99934C2231B6CB9FD7584B8E672,1⟩)) = true := by
  decide +kernel

/-- V43-28: `MULU q2, q1, r1`. -/
theorem test_mulu_v43_28 : refuses 0x4121_1000_0000_0000 4 (testState [(1,0)] [(1,testGx,testGy,1)] []) = true := by
  decide +kernel

/-- V43-31: `PRECOMP q1`. -/
theorem test_precomp_v43_31 : refuses 0x4201_0000_0000_0000 5 (testState [] [(1,0,1,0)] []) = true := by
  decide +kernel

/-- V43-32: `CINV`. -/
theorem test_cinv_v43_32 : completes 0x4300_0000_0000_0000 { testState [] [] [] with cache := some ⟨3, ⟨testGx, testGy⟩, []⟩ }
    (fun t => ((t.csrRead 8 false).toNat == 0)) = true := by
  decide +kernel

/-- V44-1: `PTENC.comp q1, [0x100]`. -/
theorem test_ptenc_v44_1 : completes 0x5001_0010_0000_0000 (testState [] [(1,testGx,testGy,1)] [])
    (fun t => (t.olen.toNat == 33) &&
          (be (t.readBuf 256 33) == 0x0279BE667EF9DCBBAC55A06295CE870B07029BFCDB2DCE28D959F2815B16F81798)) = true := by
  decide +kernel

/-- V44-4: `PTENC.comp q1, [0x100]`. -/
theorem test_ptenc_v44_4 : completes 0x5001_0010_0000_0000 (testState [] [(1,testGx,
      0xB7C52588D95C3B9AA25B0403F1EEF75702E84BB7597AABE663B82F6F04EF2777,1)] [])
    (fun t => (t.olen.toNat == 33) &&
          (be (t.readBuf 256 33) == 0x0379BE667EF9DCBBAC55A06295CE870B07029BFCDB2DCE28D959F2815B16F81798)) = true := by
  decide +kernel

/-- V44-9: `PTDEC q2, [0x100, 33]`. -/
theorem test_ptdec_v44_9 : completes 0x5120_0010_0021_0000 (testState [] [] [(256,[2,121,190,102,126,249,220,187,172,85,160,
      98,149,206,135,11,7,2,155,252,219,45,206,40,217,89,242,129,91,22,248,23,152])])
    (fun t => ((t.getQ 2) == ⟨testGx,testGy,1⟩)) = true := by
  decide +kernel

/-- V44-15: `PTDEC q2, [0x100, 65]`. -/
theorem test_ptdec_v44_15 : refuses 0x5120_0010_0041_0000 5 (testState [] [] [(256,[4,121,190,102,126,249,220,187,172,85,160,
      98,149,206,135,11,7,2,155,252,219,45,206,40,217,89,242,129,91,22,248,23,152,72,58,218,119,38,163,196,101,93,164,251,252,
      14,17,8,168,253,23,180,72,166,133,84,25,156,71,208,143,251,16,212,185])]) = true := by
  decide +kernel

/-- V44-20: `SIGENC r1, r2, [0x200]`. -/
theorem test_sigenc_v44_20 : completes 0x5201_2020_0000_0000 (testState [(1,1),(2,
      0xFFFFFFFFFFFFFFFFFFFFFFFFFFFFFFFEBAAEDCE6AF48A03BBFD25E8CD0364140)] [] [])
    (fun t => (be (t.readBuf 512 64) == 0x0000000000000000000000000000000000000000000000000000000000000001FFFFFFFFFFFFFFFFFFFFFFFFFFFFFFFEBAAEDCE6AF48A03BBFD25E8CD0364140)) = true := by
  decide +kernel

/-- V44-21: `SIGENC r1, r2, [0x200]`. -/
theorem test_sigenc_v44_21 : refuses 0x5201_2020_0000_0000 4 (testState [(1,0),(2,1)] [] []) = true := by
  decide +kernel

/-- V44-22: `SIGDEC r4, [0x200, 64]`. -/
theorem test_sigdec_v44_22 : completes 0x5340_0020_0040_0000 (testState [] [] [(512,[0,0,0,0,0,0,0,0,0,0,0,0,0,0,0,0,0,0,0,0,
      0,0,0,0,0,0,0,0,0,0,0,1,255,255,255,255,255,255,255,255,255,255,255,255,255,255,255,254,186,174,220,230,175,72,160,59,
      191,210,94,140,208,54,65,64])])
    (fun t => ((t.getR 4).toNat == 1) &&
          ((t.getR 5).toNat == 0xFFFFFFFFFFFFFFFFFFFFFFFFFFFFFFFEBAAEDCE6AF48A03BBFD25E8CD0364140)) = true := by
  decide +kernel

/-- V44-23: `SIGDEC r4, [0x200, 64]`. -/
theorem test_sigdec_v44_23 : refuses 0x5340_0020_0040_0000 4 (testState [] [] [(512,[255,255,255,255,255,255,255,255,255,255,
      255,255,255,255,255,254,186,174,220,230,175,72,160,59,191,210,94,140,208,54,65,65,0,0,0,0,0,0,0,0,0,0,0,0,0,0,0,0,0,0,0,
      0,0,0,0,0,0,0,0,0,0,0,0,1])]) = true := by
  decide +kernel

/-- V44-26: `DERENC r1, r2, [0x200]`. -/
theorem test_derenc_v44_26 : completes 0x5401_2020_0000_0000 (testState [(1,128),(2,127)] [] [])
    (fun t => (t.olen.toNat == 9) && (be (t.readBuf 512 9) == 0x30070202008002017F)) = true := by
  decide +kernel

/-- V44-28: `DERENC r1, r2, [0xFC0]`. -/
theorem test_derenc_v44_28 : refuses 0x5401_20FC_0000_0000 2 (testState [(1,
      0xFFFFFFFFFFFFFFFFFFFFFFFFFFFFFFFEBAAEDCE6AF48A03BBFD25E8CD0364140),(2,
      0xFFFFFFFFFFFFFFFFFFFFFFFFFFFFFFFEBAAEDCE6AF48A03BBFD25E8CD0364140)] [] []) = true := by
  decide +kernel

/-- V44-31: `DERDEC r4, [0x200, 9]`. -/
theorem test_derdec_v44_31 : completes 0x5540_0020_0009_0000 (testState [] [] [(512,[48,7,2,2,0,128,2,1,127])])
    (fun t => ((t.getR 4).toNat == 128) && ((t.getR 5).toNat == 127)) = true := by
  decide +kernel

/-- V44-33: `DERDEC r4, [0x200, 9]`. -/
theorem test_derdec_v44_33 : refuses 0x5540_0020_0009_0000 3 (testState [] [] [(512,[48,7,2,2,0,1,2,1,1])]) = true := by
  decide +kernel

/-- V44-41: `RSIGENC r1, r2, [0x300]`. -/
theorem test_rsigenc_v44_41 : completes 0x5601_2030_0000_0000 { testState [(1,1),(2,2)] [] [] with recid := 1 }
    (fun t => (be (t.readBuf 768 65) == 0x2000000000000000000000000000000000000000000000000000000000000000010000000000000000000000000000000000000000000000000000000000000002)) = true := by
  decide +kernel

/-- V44-42: `RSIGDEC r4, [0x300, 65]`. -/
theorem test_rsigdec_v44_42 : completes 0x5740_0030_0041_0000 (testState [] [] [(768,[34,0,0,0,0,0,0,0,0,0,0,0,0,0,0,0,0,0,0,
      0,0,0,0,0,0,0,0,0,0,0,0,0,1,0,0,0,0,0,0,0,0,0,0,0,0,0,0,0,0,0,0,0,0,0,0,0,0,0,0,0,0,0,0,0,2])])
    (fun t => ((t.getR 4).toNat == 1) && ((t.getR 5).toNat == 2) && (t.recid.toNat == 3)) = true := by
  decide +kernel

/-- V44-43: `RSIGDEC r4, [0x300, 65]`. -/
theorem test_rsigdec_v44_43 : refuses 0x5740_0030_0041_0000 3 (testState [] [] [(768,[35,0,0,0,0,0,0,0,0,0,0,0,0,0,0,0,0,0,0,
      0,0,0,0,0,0,0,0,0,0,0,0,0,1,0,0,0,0,0,0,0,0,0,0,0,0,0,0,0,0,0,0,0,0,0,0,0,0,0,0,0,0,0,0,0,2])]) = true := by
  decide +kernel

/-- V44-45: `SCHENC r1, r2, [0x300]`. -/
theorem test_schenc_v44_45 : completes 0x5801_2030_0000_0000 (testState [(1,
      0xFFFFFFFFFFFFFFFFFFFFFFFFFFFFFFFEBAAEDCE6AF48A03BBFD25E8CD0364141),(2,1)] [] [])
    (fun t => (be (t.readBuf 768 64) == 0xFFFFFFFFFFFFFFFFFFFFFFFFFFFFFFFEBAAEDCE6AF48A03BBFD25E8CD03641410000000000000000000000000000000000000000000000000000000000000001)) = true := by
  decide +kernel

/-- V44-46: `SCHENC r1, r2, [0x300]`. -/
theorem test_schenc_v44_46 : refuses 0x5801_2030_0000_0000 4 (testState [(1,
      0xFFFFFFFFFFFFFFFFFFFFFFFFFFFFFFFFFFFFFFFFFFFFFFFFFFFFFFFEFFFFFC2F),(2,1)] [] []) = true := by
  decide +kernel

/-- V44-47: `SCHDEC r4, [0x300, 64]`. -/
theorem test_schdec_v44_47 : completes 0x5940_0030_0040_0000 (testState [] [] [(768,[255,255,255,255,255,255,255,255,255,255,
      255,255,255,255,255,254,186,174,220,230,175,72,160,59,191,210,94,140,208,54,65,65,0,0,0,0,0,0,0,0,0,0,0,0,0,0,0,0,0,0,0,
      0,0,0,0,0,0,0,0,0,0,0,0,1])])
    (fun t => ((t.getR 4).toNat == 0xFFFFFFFFFFFFFFFFFFFFFFFFFFFFFFFEBAAEDCE6AF48A03BBFD25E8CD0364141) &&
          ((t.getR 5).toNat == 1)) = true := by
  decide +kernel

/-- V44-48: `SCHDEC r4, [0x300, 64]`. -/
theorem test_schdec_v44_48 : refuses 0x5940_0030_0040_0000 4 (testState [] [] [(768,[0,0,0,0,0,0,0,0,0,0,0,0,0,0,0,0,0,0,0,0,
      0,0,0,0,0,0,0,0,0,0,0,1,255,255,255,255,255,255,255,255,255,255,255,255,255,255,255,254,186,174,220,230,175,72,160,59,
      191,210,94,140,208,54,65,65])]) = true := by
  decide +kernel

/-- V44-50: `SHIGHS r1`. -/
theorem test_shighs_v44_50 : completes 0x5A01_0000_0000_0000 (testState [(1,
      0x7FFFFFFFFFFFFFFFFFFFFFFFFFFFFFFF5D576E7357A4501DDFE92F46681B20A1)] [] [])
    (fun t => (t.res == true)) = true := by
  decide +kernel

/-- V44-51: `SHIGHS r1`. -/
theorem test_shighs_v44_51 : refuses 0x5A01_0000_0000_0000 4 (testState [(1,0)] [] []) = true := by
  decide +kernel

/-- V44-53: `SNORM.flip r4, r1`. -/
theorem test_snorm_v44_53 : completes 0x5B41_0000_0000_0001 { testState [(1,
      0xFFFFFFFFFFFFFFFFFFFFFFFFFFFFFFFEBAAEDCE6AF48A03BBFD25E8CD0364140)] [] [] with recid := 2 }
    (fun t => ((t.getR 4).toNat == 1) && (t.res == true) && (t.recid.toNat == 3)) = true := by
  decide +kernel

/-- V44-54: `SNORM.flip r4, r1`. -/
theorem test_snorm_v44_54 : completes 0x5B41_0000_0000_0001 { testState [(1,5)] [] [] with recid := 2 }
    (fun t => ((t.getR 4).toNat == 5) && (t.res == false) && (t.recid.toNat == 2)) = true := by
  decide +kernel

/-- V45-5: `ESIGN r4, r1, [0, 0]`. -/
theorem test_esign_v45_5 : refuses 0x6041_0000_0000_0000 3 (testState [(1,1)] [] []) = true := by
  decide +kernel

/-- V45-6: `ESIGN r4, r1, [0, 32]`. -/
theorem test_esign_v45_6 : refuses 0x6041_0000_0020_0000 4 (testState [(1,0)] [] [(0,testHash)]) = true := by
  decide +kernel

/-- V45-8: `EVERIFY r4, r5, q2, [0, 32]`. -/
theorem test_everify_v45_8 : completes 0x6104_5200_0020_0000 (testState [(4,
      0x934B1EA10A4B3C1757E2B0C017D0B6143CE3C9A7E6A4A49860D7A6AB210EE3D8),(5,
      0x2442CE9D2B916064108014783E923EC36B49743E2FFA1C4496F01A512AAFD9E5)] [(2,testGx,testGy,1)] [(0,testHash)])
    (fun t => (t.res == true)) = true := by
  decide +kernel

/-- V45-9: `EVERIFY r4, r5, q2, [0, 32]`. -/
theorem test_everify_v45_9 : completes 0x6104_5200_0020_0000 (testState [(4,
      0x934B1EA10A4B3C1757E2B0C017D0B6143CE3C9A7E6A4A49860D7A6AB210EE3D8),(5,
      0xDBBD3162D46E9F9BEF7FEB87C16DC13B4F6568A87F4E83F728E2443BA586675C)] [(2,testGx,testGy,1)] [(0,testHash)])
    (fun t => (t.res == false)) = true := by
  decide +kernel

/-- V45-17: `ERECOVER q3, r4, r5, [0, 32]`. -/
theorem test_erecover_v45_17 : completes 0x6234_5000_0020_0000 { testState [(4,
      0x934B1EA10A4B3C1757E2B0C017D0B6143CE3C9A7E6A4A49860D7A6AB210EE3D8),(5,
      0x2442CE9D2B916064108014783E923EC36B49743E2FFA1C4496F01A512AAFD9E5)] [] [(0,testHash)] with recid := 1 }
    (fun t => ((t.getQ 3) == ⟨testGx,testGy,1⟩)) = true := by
  decide +kernel

/-- V45-21: `ERECOVER q3, r4, r5, [0, 32]`. -/
theorem test_erecover_v45_21 : refuses 0x6234_5000_0020_0000 5 { testState [(4,5),(5,
      0x2442CE9D2B916064108014783E923EC36B49743E2FFA1C4496F01A512AAFD9E5)] [] [(0,testHash)] with recid := 0 } = true := by
  decide +kernel

/-- V46-1: `SPUB r8, r1`. -/
theorem test_spub_v46_1 : completes 0x7081_0000_0000_0000 (testState [(1,3)] [] [])
    (fun t => ((t.getR 8).toNat == 0xF9308A019258C31049344F85F89D5229B531C845836F99B08601F113BCE036F9)) = true := by
  decide +kernel

/-- V46-3: `SPUB r8, r1`. -/
theorem test_spub_v46_3 : refuses 0x7081_0000_0000_0000 4 (testState [(1,0)] [] []) = true := by
  decide +kernel

/-- V46-7: `SSIGN r6, r1, [0, 32]`. -/
theorem test_ssign_v46_7 : refuses 0x7161_0000_0020_0000 4 (testState [(1,
      0xFFFFFFFFFFFFFFFFFFFFFFFFFFFFFFFEBAAEDCE6AF48A03BBFD25E8CD0364141)] [] []) = true := by
  decide +kernel

/-- V46-8: `SSIGN.auxbuf r6, r1, [0xFE0, 32]`. -/
theorem test_ssign_v46_8 : refuses 0x7161_00FE_0020_0001 2 (testState [(1,0)] [] []) = true := by
  decide +kernel

/-- V46-13: `SVERIFY r6, r7, r8, [0, 32]`. -/
theorem test_sverify_v46_13 : completes 0x7206_7800_0020_0000 (testState [(6,
      0xE907831F80848D1069A5371B402410364BDF1C5F8307B0084C55F1CE2DCA8215),(7,
      0xFFFFFFFFFFFFFFFFFFFFFFFFFFFFFFFEBAAEDCE6AF48A03BBFD25E8CD0364141),(8,
      0xF9308A019258C31049344F85F89D5229B531C845836F99B08601F113BCE036F9)] [] [(0,[0,0,0,0,0,0,0,0,0,0,0,0,0,0,0,0,0,0,0,0,0,
      0,0,0,0,0,0,0,0,0,0,0])])
    (fun t => (t.res == false)) = true := by
  decide +kernel

/-- V46-14: `SVERIFY r6, r7, r8, [0, 32]`. -/
theorem test_sverify_v46_14 : completes 0x7206_7800_0020_0000 (testState [(6,
      0xE907831F80848D1069A5371B402410364BDF1C5F8307B0084C55F1CE2DCA8215),(7,
      0x25F66A4A85EA8B71E482A74F382D2CE5EBEEE8FDB2172F477DF4900D310536C0),(8,5)] [] [(0,[0,0,0,0,0,0,0,0,0,0,0,0,0,0,0,0,0,0,
      0,0,0,0,0,0,0,0,0,0,0,0,0,0])])
    (fun t => (t.res == false)) = true := by
  decide +kernel

/-- PRECOMP (R335): with WLOG2 = 0 (W = 1) the table has (128 + 1)·1 entries and TWLOG2 is 0; the first entry is G,
the second 2·G (its x is in R282's example). -/
theorem test_precomp_w1 :
    completes 0x4201_0000_0000_0000 { testState [] [(1, testGx, testGy, 1)] [] with wlog2 := 0 } (fun t =>
      match t.cache with
      | some c => c.twlog2 == 0 && c.ctable.length == 129 && c.ctable.head? == some ⟨testGx, testGy, 1⟩ &&
        (c.ctable.getD 1 zeroJ).x == 0xC6047F9441ED7D6D3045406E95C07CD85C778E4B8CEF3CA7ABAC09B95C709EE5
      | none => false) = true := by
  decide +kernel

/-- 20_memory R90, R91: BUF at 0x0000, CSR i at 0x1000 + 8i, CMD at 0x1080; only aligned accesses of their widths reach them. -/
theorem test_window_layout :
    target 0xFFF 1 = .buf 0xFFF ∧ target 0xFF8 8 = .buf 0xFF8 ∧ target 1 2 = .nothing ∧ target 0 3 = .nothing ∧
    target 0x1000 8 = .csr 0 ∧ target 0x1040 8 = .csr 8 ∧ target 0x1048 8 = .nothing ∧ target 0x1004 8 = .nothing ∧
    target 0x1008 4 = .nothing ∧ target 0x1080 8 = .cmd ∧ target 0x1080 4 = .nothing ∧ target 0x1088 8 = .nothing := by
  decide

/-- 20_memory R91: the lowest address holds the most significant byte in the big order, the least significant in the little. -/
theorem test_word_orders :
    laneBytes .big 2 0x0102 = [1, 2] ∧ laneBytes .little 2 0x0102 = [2, 1] ∧ laneValue .big [1, 2] = 0x0102 ∧
    laneValue .little [2, 1] = 0x0102 := by
  decide +kernel

/-! ### Witnesses: the hypotheses of each obligation are met, each clause's at a boundary value -/

/-- The reset state with a word in flight. -/
def flying (w : Cmd) : State := { State.reset with inflight := some w }

/-- The reset state with ERR = 1 and a report. -/
def errored : State := { State.reset with err := true, errcode := some .range, errcmd := 7 }

/-- The reset state with these host moves to come. -/
def hosted (ops : List HostOp) : State := { State.reset with host := ops }

theorem witness_EveryDecodedWordIsItsCommandsEncoding :
    decode 0x0110000000000001 = .ok (.ldi 1 1) ∧ decode 0x7206780000200000 = .ok (.sverify 6 7 8 0 32) := by
  decide +kernel

/-- No command at all has the opcode of a NOP word with another bit set, nor a reserved opcode. -/
theorem witness_WordsThatEncodeNoCommandAreIllegal :
    (∃ lo hi, (lo, hi) ∈ [(0x0A, 0x0F), (0x1A, 0x1F), (0x28, 0x2F), (0x44, 0x4F), (0x5C, 0x5F), (0x63, 0x6F), (0x73, 0xFF)] ∧
      lo ≤ ((0x0A00000000000000 : Cmd).extractLsb' 56 8).toNat ∧ ((0x0A00000000000000 : Cmd).extractLsb' 56 8).toNat ≤ hi) ∧
    (∃ lo hi, (lo, hi) ∈ [(0x0A, 0x0F), (0x1A, 0x1F), (0x28, 0x2F), (0x44, 0x4F), (0x5C, 0x5F), (0x63, 0x6F), (0x73, 0xFF)] ∧
      lo ≤ ((0xFF00000000000000 : Cmd).extractLsb' 56 8).toNat ∧ ((0xFF00000000000000 : Cmd).extractLsb' 56 8).toNat ≤ hi) ∧
    ∀ i : Instr, i.WellFormed → encode i ≠ 0xFF00000000000000 := by
  refine ⟨⟨0x0A, 0x0F, by decide, by decide, by decide⟩, ⟨0x73, 0xFF, by decide, by decide, by decide⟩, ?_⟩
  intro i _ h
  have h' := congrArg opcode h
  cases i <;> simp only [encode, opcode_word] at h' <;> exact absurd h' (by decide)

theorem witness_ReservedFieldValuesAreIllegal :
    9 < (10 : BitVec 16).toNat ∧ 8 < (9 : BitVec 16).toNat ∧ (∀ csr ∈ [0, 2, 3, 6, 7, 8], csr < 2 ^ 16) ∧
    (0 : BitVec 5).toNat = 0 ∧ 16 < (17 : BitVec 5).toNat ∧ (0 : BitVec 12).toNat = 0 ∧ 32 < (33 : BitVec 12).toNat := by
  decide

theorem witness_StepRunsTheDecodedCommand :
    (State.reset.host = [] ∧ State.reset.inflight = none) ∧
    decode 0x0110000000000001 = .ok (.ldi 1 1) ∧
    ({ hosted [.pass] with inflight := some 0x0110000000000001 } : State).inflight = some 0x0110000000000001 ∧
    ({ hosted [.pass] with inflight := some 0x0110000000000001 } : State).host = .pass :: [] ∧
    (flying 0x0110000000000001).host = [] := by
  refine ⟨⟨rfl, rfl⟩, by decide +kernel, rfl, rfl, rfl⟩

theorem witness_ResetStepSetsEveryItem : (hosted [.reset]).host = .reset :: [] ∧ ∃ t, step (hosted [.reset]) = .next t :=
  ⟨rfl, _, rfl⟩

theorem witness_HowACommandEnds : (flying 5).inflight = some 5 := rfl

theorem witness_ErrorsArePrecise :
    (flying 0x022000000000000A).inflight = some 0x022000000000000A ∧ (flying 0x022000000000000A).err = false ∧
    ∃ t, exec (.ldc 2 10) (flying 0x022000000000000A) = .next t ∧ t.err = true :=
  ⟨rfl, rfl, _, rfl, rfl⟩

/-- Both ends: a NOP keeps the error, and CSRW of STATUS from a register with bit 2 set clears it. -/
theorem witness_TheFirstErrorIsKept :
    errored.err = true ∧ (∃ t, exec .nop errored = .next t ∧ t.err = true) ∧
    (errored.setR 0 4).err = true ∧ ∃ t, exec (.csrw 0 1) (errored.setR 0 4) = .next t ∧ t.err = false :=
  ⟨rfl, ⟨_, rfl, rfl⟩, rfl, _, rfl, by decide⟩

theorem witness_InterruptSignalsCompletion :
    (∃ t, exec .nop State.reset = .next t) ∧ State.reset.inflight = none ∧
    ({ State.reset with ie := true, done := true } : State).irqInput Config.engineIrq = true := by
  refine ⟨⟨_, rfl⟩, rfl, ?_⟩
  simp [State.irqInput, State.irq]

theorem witness_CommandsWriteOnlyTheirFootprint : ∃ t, exec (.pgetj 15 3) State.reset = .next t := ⟨_, rfl⟩

theorem witness_MovesAndCompares : (0x0010000000000000 : Cmd).extractLsb' 56 8 = 0x00 ∧ (0x0010000000000000 : Cmd) ≠ 0 := by
  decide

theorem witness_LdcLoadsTheConstant : 9 < (10 : BitVec 16).toNat ∧ (8, 0) ∈ [(8, 0), (9, 1)] ∧ (9 : BitVec 16).toNat = 9 := by
  decide

/-- LEN 0 and 33; ADDR 4065 with LEN 32, one past the end; ADDR 4064 with LEN 32, up to the end. -/
theorem witness_LdLoadsBigEndian :
    (0 : BitVec 12).toNat = 0 ∧ 32 < (33 : BitVec 12).toNat ∧
    (1 ≤ (32 : BitVec 12).toNat ∧ (32 : BitVec 12).toNat ≤ 32) ∧
    4096 < (4065 : BitVec 12).toNat + (32 : BitVec 12).toNat ∧ (4064 : BitVec 12).toNat + (32 : BitVec 12).toNat ≤ 4096 := by
  decide

theorem witness_StStoresBigEndian :
    (0 : BitVec 12).toNat = 0 ∧ 32 < (33 : BitVec 12).toNat ∧
    (1 ≤ (1 : BitVec 12).toNat ∧ (1 : BitVec 12).toNat ≤ 32) ∧
    4096 < (4095 : BitVec 12).toNat + (2 : BitVec 12).toNat ∧ (4095 : BitVec 12).toNat + (1 : BitVec 12).toNat ≤ 4096 ∧
    2 ^ (8 * (1 : BitVec 12).toNat) ≤ ((testState [(1, 256)] [] []).getR 1).toNat ∧
    ((testState [(1, 255)] [] []).getR 1).toNat < 2 ^ (8 * (1 : BitVec 12).toNat) := by
  decide

/-- The last byte of a 4-byte store at the end of BUF. -/
theorem witness_LoadsSeePartsOfAStore :
    1 ≤ (4 : BitVec 12).toNat ∧ (4 : BitVec 12).toNat ≤ 32 ∧ (4092 : BitVec 12).toNat + (4 : BitVec 12).toNat ≤ 4096 ∧
    ((testState [(1, 0xFFFFFFFF)] [] []).getR 1).toNat < 2 ^ (8 * (4 : BitVec 12).toNat) ∧ 1 ≤ (1 : BitVec 12).toNat ∧
    (4092 : BitVec 12).toNat ≤ (4095 : BitVec 12).toNat ∧
    (4095 : BitVec 12).toNat + (1 : BitVec 12).toNat ≤ (4092 : BitVec 12).toNat + (4 : BitVec 12).toNat := by
  decide

theorem witness_CsrrReadsTheRegister : 8 < (9 : BitVec 16).toNat := by decide

theorem witness_CsrwWritesTheRegister :
    (1 : BitVec 16) = 1 ∧ (4 : BitVec 16) = 4 ∧ (5 : BitVec 16) = 5 ∧
    (0 : BitVec 16) ≠ 1 ∧ (0 : BitVec 16) ≠ 4 ∧ (0 : BitVec 16) ≠ 5 := by
  decide

/-- 1 and n - 1 have inverses; 0, P (which is 0 mod P) and n have none. -/
theorem witness_InversesModPAndN :
    Nat.gcd (((testState [(1, 1)] [] []).getR 1).toNat % P) P = 1 ∧
    Nat.gcd (((testState [(1, 0)] [] []).getR 1).toNat % P) P ≠ 1 ∧ ((testState [(1, P)] [] []).getR 1).toNat % P = 0 ∧
    Nat.gcd (((testState [(1, N - 1)] [] []).getR 1).toNat % N) N = 1 ∧
    Nat.gcd (((testState [(1, N)] [] []).getR 1).toNat % N) N ≠ 1 ∧ ((testState [(1, N)] [] []).getR 1).toNat % N = 0 := by
  decide +kernel

/-- cnt 0 and 17 are illegal, 1 and 16 legal; from register 15 on, two sources, r15 with an inverse and r0 zero. -/
theorem witness_FbinvInvertsEachElement :
    (0 : BitVec 5).toNat = 0 ∧ 16 < (17 : BitVec 5).toNat ∧ 1 ≤ (1 : BitVec 5).toNat ∧ (16 : BitVec 5).toNat ≤ 16 ∧
    ∀ m < (2 : BitVec 5).toNat,
      ((testState [(15, 3)] [] []).getR ((15 : RegIdx) + Fin.ofNat 16 m)).toNat % P = 0 ∨
        Nat.gcd (((testState [(15, 3)] [] []).getR ((15 : RegIdx) + Fin.ofNat 16 m)).toNat % P) P = 1 := by
  decide +kernel

/-- 0 and n are refused; 1, n div 2 and n - 1 are scalars, the last in the upper half. -/
theorem witness_ScalarChecksAndLowS :
    ((testState [] [] []).getR 1).toNat = 0 ∧ N ≤ ((testState [(1, N)] [] []).getR 1).toNat ∧
    (0 < ((testState [(1, N / 2)] [] []).getR 1).toNat ∧ ((testState [(1, N / 2)] [] []).getR 1).toNat < N ∧
      ((testState [(1, N / 2)] [] []).getR 1).toNat ≤ N / 2) ∧
    0 < ((testState [(1, N - 1)] [] []).getR 1).toNat ∧ ((testState [(1, N - 1)] [] []).getR 1).toNat < N ∧
    N / 2 < ((testState [(1, N - 1)] [] []).getR 1).toNat := by
  decide +kernel

theorem witness_NsplitGivesShortHalves :
    ((testState [] [] []).getR 1).toNat = 0 ∧ N ≤ ((testState [(1, N)] [] []).getR 1).toNat ∧
    0 < ((testState [(1, N - 1)] [] []).getR 1).toNat ∧ ((testState [(1, N - 1)] [] []).getR 1).toNat < N := by
  decide +kernel

theorem witness_PointMoves :
    P ≤ ((testState [(1, P)] [] []).getR 1).toNat ∧
    ((testState [(1, P - 1)] [] []).getR 1).toNat < P ∧ ((testState [(1, P - 1)] [] []).getR 2).toNat < P := by
  decide +kernel

/-- An identity, and a triple with Z = 2. -/
theorem witness_PgetWritesTheAffineCoordinates :
    (State.reset.getQ 0).z = 0 ∧ Nat.gcd (((testState [] [(1, 5, 6, 2)] []).getQ 1).z.toNat % P) P = 1 := by
  decide +kernel

/-- Each branch of the addition: an identity on either side, equal points, opposite points, different points. -/
theorem witness_PaddWritesTheAdditionFormula :
    let s := testState [] [(1, testGx, testGy, 1), (2, testGx, P - testGy, 1), (3, 5, 6, 2)] [];
    (s.getQ 0).z = 0 ∧ (s.getQ 1).z ≠ 0 ∧ (s.getQ 2).z ≠ 0 ∧ (s.getQ 3).z ≠ 0 ∧
    (add (s.getQ 1) (s.getQ 1) = dbl (s.getQ 1)) ∧ (add (s.getQ 1) (s.getQ 2) = ⟨0, 1, 0⟩) ∧
    (fSub (fMul (s.getQ 3).x 1) (fMul (s.getQ 1).x (fSqr (s.getQ 3).z)) ≠ 0) := by
  decide +kernel

/-- Counts as for FBINV; from q15 on, two sources, q15 with Z = 2 and q0 the identity. -/
theorem witness_NormalisationOneByOneAndInBatches :
    (0 : BitVec 5).toNat = 0 ∧ 16 < (17 : BitVec 5).toNat ∧ 1 ≤ (1 : BitVec 5).toNat ∧ (16 : BitVec 5).toNat ≤ 16 ∧
    ∀ m < (2 : BitVec 5).toNat,
      ((testState [] [(15, 5, 6, 2)] []).getQ ((15 : PtIdx) + Fin.ofNat 16 m)).z = 0 ∨
        Nat.gcd (((testState [] [(15, 5, 6, 2)] []).getQ ((15 : PtIdx) + Fin.ofNat 16 m)).z.toNat % P) P = 1 := by
  decide +kernel

theorem witness_PendoHasOrderThree : ((testState [] [(1, P - 1, 6, 1)] []).getQ 1).x.toNat < P := by decide +kernel

/-- R334's two equations have a solution; the scalars 0 and n, 1 and n - 1; a valid point and the identity; a cached table that MUL
finds and one that it does not; W = 1 and 8 with the largest k. -/
theorem witness_MultiplicationsCompleteNormalised :
    (∃ f : Nat → Point → Point → Point, (∀ d acc, f 0 d acc = acc) ∧
      ∀ k d acc, 0 < k → f k d acc = f (k / 2) (dbl d) (if k % 2 = 1 then add acc d else acc)) ∧
    ((testState [] [] []).getR 1).toNat = 0 ∧ N ≤ ((testState [(1, N)] [] []).getR 1).toNat ∧
    0 < ((testState [(1, N - 1)] [] []).getR 1).toNat ∧ ((testState [(1, N - 1)] [] []).getR 1).toNat < N ∧
    ((testState [] [] []).getQ 1).z = 0 ∧ valid (aff ((testState [] [(1, testGx, testGy, 1)] []).getQ 1)) = true ∧
    (let s := testState [] [(1, testGx, testGy, 1)] [];
      (s.getQ 1).z ≠ 0 ∧ aff (s.getQ 1) = ⟨BitVec.ofNat 256 testGx, BitVec.ofNat 256 testGy⟩ ∧
        ((s.getQ 0).z = 0 ∨ aff (s.getQ 0) ≠ ⟨BitVec.ofNat 256 testGx, BitVec.ofNat 256 testGy⟩)) ∧
    (1 ∈ [1, 2, 4, 8] ∧ 1 = 2 ^ (1 - 1)) ∧ (8 ∈ [1, 2, 4, 8] ∧ 128 = 2 ^ (8 - 1)) ∧ 2 ^ 128 - 1 < 2 ^ 128 := by
  refine ⟨⟨fun k d acc => doubleAndAdd k k d acc, fun _ _ => rfl, fun k d acc hk => ?_⟩, by decide +kernel⟩
  obtain ⟨m, rfl⟩ : ∃ m, k = m + 1 := ⟨k - 1, by omega⟩
  show doubleAndAdd (m + 1) (m + 1) d acc = _
  rw [doubleAndAdd, if_neg (by omega)]
  exact doubleAndAdd_bound _ _ _ _ _ (lt_of_le_of_lt (by omega) Nat.lt_two_pow_self) Nat.lt_two_pow_self

/-- An identity and a valid point, with k = 1 and n - 1, an empty slot and a consistent one (W = 1); smul's k is n and n + 1. -/
theorem witness_MultiplesOfIdentityAndByOne :
    (let s := testState [(1, 1)] [(1, testGx, testGy, 1)] [];
      0 < (s.getR 1).toNat ∧ (s.getR 1).toNat < N ∧ (s.getQ 0).z = 0 ∧
      s.getR 1 = 1 ∧ valid (aff (s.getQ 1)) = true ∧ s.cache = none ∧ N % N = 0 ∧ (N + 1) % N = (s.getR 1).toNat) ∧
    (let g : AffPoint := ⟨BitVec.ofNat 256 testGx, BitVec.ofNat 256 testGy⟩;
      ({ State.reset with wlog2 := 0, cache := some ⟨0, g, cacheTable g 0⟩ } : State).CacheConsistent) ∧
    0 < ((testState [(1, N - 1)] [] []).getR 1).toNat ∧ ((testState [(1, N - 1)] [] []).getR 1).toNat < N := by
  refine ⟨by decide +kernel, fun c hc => ?_, by decide +kernel⟩
  obtain rfl : _ = c := Option.some.inj hc
  exact ⟨by decide +kernel, rfl, rfl⟩

theorem witness_PrecompBuildsTheTable :
    valid (aff (State.reset.getQ 0)) = false ∧ valid (aff ((testState [] [(1, testGx, testGy, 1)] []).getQ 1)) = true ∧
    (1 ∈ [1, 2, 4, 8] ∧ 1 = 2 ^ (1 - 1)) ∧ (8 ∈ [1, 2, 4, 8] ∧ 128 = 2 ^ (8 - 1)) ∧ 0 + 1 < 128 ∧ 15 < 128 / 8 := by
  decide +kernel

/-- Each format; a key written up to the end of BUF and one that passes it by one byte. -/
theorem witness_PtencWritesTheKeyBytes :
    ((0 : BitVec 2).toNat, 33) ∈ [(0, 33), (1, 65), (2, 32)] ∧ ((1 : BitVec 2).toNat, 65) ∈ [(0, 33), (1, 65), (2, 32)] ∧
    ((2 : BitVec 2).toNat, 32) ∈ [(0, 33), (1, 65), (2, 32)] ∧
    valid (aff (State.reset.getQ 0)) = false ∧ valid (aff ((testState [] [(1, testGx, testGy, 1)] []).getQ 1)) = true ∧
    4096 < (4032 : BitVec 12).toNat + 65 ∧ (4031 : BitVec 12).toNat + 65 ≤ 4096 := by
  decide +kernel

/-- x = 0 and P are out of range; x = 5 has no y; Gx has one. -/
theorem witness_LiftFindsThePointOfAnX :
    (0 : Word).toNat = 0 ∧ P ≤ (BitVec.ofNat 256 P).toNat ∧ 0 < 1 ∧ 1 < 2 ∧
    (fPow ((5 ^ 3 + 7) % P : Nat) ((P + 1) / 4)).toNat ^ 2 % P ≠ (5 ^ 3 + 7) % P ∧
    (fPow ((testGx ^ 3 + 7) % P : Nat) ((P + 1) / 4)).toNat ^ 2 % P = (testGx ^ 3 + 7) % P := by
  decide +kernel

/-- Each length and prefix that a clause names, in an input that ends at the end of BUF. -/
theorem witness_PtdecReadsTheThreeFormats :
    4096 < (4064 : BitVec 12).toNat + (33 : BitVec 12).toNat ∧ (4064 : BitVec 12).toNat + (32 : BitVec 12).toNat ≤ 4096 ∧
    (0 : BitVec 12).toNat ∉ [32, 33, 65] ∧ (32 : BitVec 12).toNat = 32 ∧ (33 : BitVec 12).toNat = 33 ∧
    ((testState [] [] [(4063, [1])]).bufByte (4063 : BitVec 12).toNat).toNat ≠ 2 ∧
    ((testState [] [] [(4063, [4])]).bufByte (4063 : BitVec 12).toNat).toNat ≠ 3 ∧
    ((testState [] [] [(4063, [2])]).bufByte (4063 : BitVec 12).toNat).toNat = 2 ∧
    ((testState [] [] [(4063, [3])]).bufByte (4063 : BitVec 12).toNat).toNat = 3 ∧
    (65 : BitVec 12).toNat = 65 ∧ (4031 : BitVec 12).toNat + (65 : BitVec 12).toNat ≤ 4096 ∧
    ((testState [] [] [(4031, [5])]).bufByte (4031 : BitVec 12).toNat).toNat ≠ 4 ∧
    ((testState [] [] [(4031, [4])]).bufByte (4031 : BitVec 12).toNat).toNat = 4 ∧
    valid ⟨0, 0⟩ = false ∧ valid ⟨BitVec.ofNat 256 testGx, BitVec.ofNat 256 testGy⟩ = true := by
  decide +kernel

theorem witness_CompactEncodersWriteTheirBytes :
    ¬(0 < (State.reset.getR 0).toNat ∧ (State.reset.getR 0).toNat < N ∧ 0 < (State.reset.getR 1).toNat ∧
      (State.reset.getR 1).toNat < N) ∧
    ¬(0 < (State.reset.getR 0).toNat ∧ (State.reset.getR 0).toNat < P ∧ 0 < (State.reset.getR 1).toNat ∧
      (State.reset.getR 1).toNat < N) ∧
    (let s := testState [(0, N - 1), (1, 1), (2, P - 1)] [] [];
      (0 < (s.getR 0).toNat ∧ (s.getR 0).toNat < N ∧ 0 < (s.getR 1).toNat ∧ (s.getR 1).toNat < N) ∧
      0 < (s.getR 2).toNat ∧ (s.getR 2).toNat < P) ∧
    4096 < (4033 : BitVec 12).toNat + 64 ∧ (4032 : BitVec 12).toNat + 64 ≤ 4096 ∧
    4096 < (4032 : BitVec 12).toNat + 65 ∧ (4031 : BitVec 12).toNat + 65 ≤ 4096 := by
  decide +kernel

theorem witness_CompactDecodersReadTheirBytes :
    4096 < (4033 : BitVec 12).toNat + (64 : BitVec 12).toNat ∧ (4032 : BitVec 12).toNat + (64 : BitVec 12).toNat ≤ 4096 ∧
    (63 : BitVec 12).toNat ≠ 64 ∧ (64 : BitVec 12).toNat ≠ 65 ∧ (65 : BitVec 12).toNat = 65 ∧
    (4031 : BitVec 12).toNat + (65 : BitVec 12).toNat ≤ 4096 ∧
    ((testState [] [] [(4031, [30])]).bufByte (4031 : BitVec 12).toNat).toNat < 31 ∧
    34 < ((testState [] [] [(4031, [35])]).bufByte (4031 : BitVec 12).toNat).toNat ∧
    31 ≤ ((testState [] [] [(4031, [31])]).bufByte (4031 : BitVec 12).toNat).toNat ∧
    ((testState [] [] [(4031, [34])]).bufByte (4031 : BitVec 12).toNat).toNat ≤ 34 := by
  decide +kernel

theorem witness_CompactSignaturesRoundTrip :
    let s := testState [(0, N - 1), (1, 1), (2, P - 1)] [] [];
    0 < (s.getR 0).toNat ∧ (s.getR 0).toNat < N ∧ 0 < (s.getR 1).toNat ∧ (s.getR 1).toNat < N ∧
    0 < (s.getR 2).toNat ∧ (s.getR 2).toNat < P ∧
    (4032 : BitVec 12).toNat + 64 ≤ 4096 ∧ (4031 : BitVec 12).toNat + 65 ≤ 4096 := by
  decide +kernel

/-- The shortest encoding, of (1, 1), up to the end of BUF and one byte past it. -/
theorem witness_DerCommands :
    isSig (State.reset.getR 0) (State.reset.getR 1) = false ∧
    (let s := testState [(0, 1), (1, 1)] [] [];
      isSig (s.getR 0) (s.getR 1) = true ∧ 4096 < (4089 : BitVec 12).toNat + (der (s.getR 0) (s.getR 1)).length ∧
      (4088 : BitVec 12).toNat + (der (s.getR 0) (s.getR 1)).length ≤ 4096) ∧
    4096 < (4095 : BitVec 12).toNat + (2 : BitVec 12).toNat ∧ (4088 : BitVec 12).toNat + (8 : BitVec 12).toNat ≤ 4096 := by
  decide +kernel

/-- The longest encoding, of (n - 1, n - 1), at the end of BUF. -/
theorem witness_DerRoundTrip :
    let s := testState [(0, N - 1), (1, N - 1)] [] [];
    isSig (s.getR 0) (s.getR 1) = true ∧ (72 : BitVec 12).toNat = (der (s.getR 0) (s.getR 1)).length ∧
    (4024 : BitVec 12).toNat + (72 : BitVec 12).toNat ≤ 4096 := by
  decide +kernel

/-- A byte string that the decoder accepts, and one that it refuses. -/
theorem witness_DerDecoderAcceptsOnlyDer :
    underive [0x30, 0x06, 0x02, 0x01, 0x01, 0x02, 0x01, 0x01] = .ok (1, 1) ∧ underive [] = .error .encoding := by
  decide +kernel

/-- ENT 3; a region one byte too long and one up to the end; no hash; the keys 0, n and n - 1. -/
theorem witness_EsignSigns :
    (3 : BitVec 2) = 3 ∧ (2 : BitVec 2) ≠ 3 ∧
    4096 < (4033 : BitVec 12).toNat + (32 : BitVec 12).toNat + (if (1 : BitVec 2) = 1 then 32 else 0) ∧
    (4032 : BitVec 12).toNat + (32 : BitVec 12).toNat + (if (1 : BitVec 2) = 1 then 32 else 0) ≤ 4096 ∧
    (0 : BitVec 12).toNat = 0 ∧ (32 : BitVec 12).toNat ≠ 0 ∧
    ((testState [] [] []).getR 1).toNat = 0 ∧ N ≤ ((testState [(1, N)] [] []).getR 1).toNat ∧
    0 < ((testState [(1, N - 1)] [] []).getR 1).toNat ∧ ((testState [(1, N - 1)] [] []).getR 1).toNat < N := by
  decide +kernel

/-- The instances K and V exist for every start; and, whatever the hash, one of the two clauses on the candidates applies. -/
theorem witness_EsignSigns_instances (k0 v0 : List Byte) (m key : Nat) :
    let hmac : List Byte → List Byte → List Byte := fun k msg => be32 (Config.hmacSha256 k msg)
    ∃ K V : Nat → List Byte, K 0 = k0 ∧ V 0 = v0 ∧ (∀ j, K (j + 1) = hmac (K j) (hmac (K j) (V j) ++ [0x00])) ∧
      (∀ j, V (j + 1) = hmac (K (j + 1)) (hmac (K j) (V j))) ∧
      ((∀ j < 1000, kmdToSig (be (hmac (K j) (V j))) m key = none) ∨
        ∃ j sig, j < 1000 ∧ (∀ i < j, kmdToSig (be (hmac (K i) (V i))) m key = none) ∧
          kmdToSig (be (hmac (K j) (V j))) m key = some sig) := by
  intro hmac
  let f : Nat → List Byte × List Byte := fun j => Nat.rec (k0, v0) (fun _ p =>
    (hmac p.1 (hmac p.1 p.2 ++ [0x00]), hmac (hmac p.1 (hmac p.1 p.2 ++ [0x00])) (hmac p.1 p.2))) j
  refine ⟨fun j => (f j).1, fun j => (f j).2, rfl, rfl, fun _ => rfl, fun _ => rfl, ?_⟩
  by_cases h : ∃ j, j < 1000 ∧ kmdToSig (be (hmac (f j).1 (f j).2)) m key ≠ none
  · refine .inr ⟨Nat.find h, _, (Nat.find_spec h).1, fun i hi => ?_, Option.some_get (Option.ne_none_iff_isSome.mp (Nat.find_spec h).2) |>.symm⟩
    have := Nat.find_min h hi
    by_contra hc
    exact this ⟨lt_trans hi (Nat.find_spec h).1, hc⟩
  · exact .inl fun j hj => by_contra fun hc => h ⟨j, hj, hc⟩

theorem witness_OneSigningAttempt : 0 = 0 ∧ N ≤ N ∧ 0 < N - 1 ∧ N - 1 < N ∧ Nat.gcd (N - 1) N = 1 := by decide +kernel

/-- Regions at the end of BUF; s = n - 1, which is its own inverse mod n and high; s = 0 and n out of range; no valid key. -/
theorem witness_VerifyCommandsWriteRes :
    4096 < (4095 : BitVec 12).toNat + (2 : BitVec 12).toNat ∧ (4064 : BitVec 12).toNat + (32 : BitVec 12).toNat ≤ 4096 ∧
    (0 : BitVec 12).toNat = 0 ∧ (32 : BitVec 12).toNat ≠ 0 ∧
    N - 1 < N ∧ ((testState [(1, N - 1)] [] []).getR 1).toNat * (N - 1) % N = 1 ∧
    N / 2 < ((testState [(1, N - 1)] [] []).getR 1).toNat ∧
    ¬(0 < (State.reset.getR 1).toNat) ∧ ¬(((testState [(1, N)] [] []).getR 1).toNat < N) ∧
    valid (aff (State.reset.getQ 0)) = false := by
  decide +kernel

/-- Each RECID; an r that is no x of the curve (5) and one that is (Gx), with s = 1: hash 1 gives G - G, hash 2 does not. -/
theorem witness_ErecoverWritesTheKey :
    4096 < (4095 : BitVec 12).toNat + (2 : BitVec 12).toNat ∧ (4064 : BitVec 12).toNat + (32 : BitVec 12).toNat ≤ 4096 ∧
    (0 : BitVec 12).toNat = 0 ∧ (32 : BitVec 12).toNat ≠ 0 ∧ isSig (State.reset.getR 0) (State.reset.getR 1) = false ∧
    (let s := testState [(4, testGx), (5, 1)] [] [];
      isSig (s.getR 4) (s.getR 5) = true ∧ Nat.gcd (s.getR 4).toNat N = 1 ∧ s.recid = 0 ∧ (lift (s.getR 4) 0).toOption.isSome = true ∧
      (recoverPoint ((lift (s.getR 4) 0).toOption.getD ⟨0, 0⟩) (s.getR 4) (s.getR 5) [2]).z ≠ 0 ∧
      (recoverPoint ((lift (s.getR 4) 0).toOption.getD ⟨0, 0⟩) (s.getR 4) (s.getR 5) [1]).z = 0) ∧
    isSig 5 1 = true ∧ (lift 5 0).toOption = none ∧ (2 : BitVec 2) = 2 ∧ (3 : BitVec 2) = 3 := by
  decide +kernel

/-- The keys 0, n and n - 1; regions with aux one byte too long and up to the end. Which clause on k0 and the signature applies is
SHA256's: they are each other's negation. -/
theorem witness_SchnorrKeysAndSigning :
    ((testState [] [] []).getR 1).toNat = 0 ∧ N ≤ ((testState [(1, N)] [] []).getR 1).toNat ∧
    0 < ((testState [(1, N - 1)] [] []).getR 1).toNat ∧ ((testState [(1, N - 1)] [] []).getR 1).toNat < N ∧
    (testState [] [(1, testGx, testGy, 1)] []).getQ 1 = pointG ∧
    4096 < (4033 : BitVec 12).toNat + (32 : BitVec 12).toNat + (if true then 32 else 0) ∧
    (4032 : BitVec 12).toNat + (32 : BitVec 12).toNat + (if true then 32 else 0) ≤ 4096 := by
  decide +kernel

theorem witness_CmdWriteIssuesTheWord :
    (hosted [.write (Config.engineBase + 0x1080) 8 1]).host = .write (Config.engineBase + 0x1080) 8 1 :: [] ∧
    (hosted [.write (Config.engineBase + 0x1080) 8 1]).busy = false ∧
    ({ hosted [.write (Config.engineBase + 0x1080) 8 1] with inflight := some 0 } : State).busy = true :=
  ⟨rfl, rfl, rfl⟩

/-- A byte at the end of BUF and 8 bytes at its last aligned offset. -/
theorem witness_HostReadsBackWhatItWrote :
    (1 ∈ [1, 2, 4, 8] ∧ 4095 % 1 = 0 ∧ 4095 < 4096) ∧ (8 ∈ [1, 2, 4, 8] ∧ 4088 % 8 = 0 ∧ 4088 < 4096) ∧
    State.reset.inflight = none ∧
    (hosted [.write (Config.engineBase + 4088) 8 7, .read (Config.engineBase + 4088) 8]).host =
      .write (Config.engineBase + 4088) 8 7 :: .read (Config.engineBase + 4088) 8 :: [] :=
  ⟨by decide, by decide, rfl, rfl⟩

theorem witness_HostAccessesToCsrs :
    8 ≤ 8 ∧ 9 ≤ 511 ∧ 511 < 512 ∧
    (hosted [.read (Config.engineBase + 0x1000 + 8 * 8) 8]).host = .read (Config.engineBase + 0x1000 + 8 * 8) 8 :: [] ∧
    (hosted [.read (Config.engineBase + 0x1000 + 8 * 511) 8]).host = .read (Config.engineBase + 0x1000 + 8 * 511) 8 :: [] ∧
    (hosted [.write (Config.engineBase + 0x1000 + 8 * 1) 8 4]).host = .write (Config.engineBase + 0x1000 + 8 * 1) 8 4 :: [] ∧
    (hosted [.write (Config.engineBase + 0x1000 + 8 * 4) 8 4]).busy = false ∧
    ({ hosted [.write (Config.engineBase + 0x1000 + 8 * 4) 8 4] with inflight := some 0 } : State).busy = true ∧
    8 ∈ [0, 2, 3, 6, 7, 8] ∧ 511 ≠ 16 ∧
    (hosted [.write (Config.engineBase + 0x1000 + 8 * 511) 8 4]).host = .write (Config.engineBase + 0x1000 + 8 * 511) 8 4 :: [] :=
  ⟨by decide, by decide, by decide, rfl, rfl, rfl, rfl, rfl, by decide, by decide, rfl⟩

/-- A STATUS write; the last aligned 8 bytes of BUF with BUSY = 1; a width of 3, a misaligned access of BUF and a 4-byte one of CMD. -/
theorem witness_AnInFlightCommandIsSafeFromTheHost :
    ({ hosted [.write (Config.engineBase + 0x1008) 8 4] with inflight := some 0 } : State).inflight = some 0 ∧
    ({ hosted [.write (Config.engineBase + 0x1008) 8 4] with inflight := some 0 } : State).host =
      .write (Config.engineBase + 0x1008) 8 4 :: [] ∧
    HostOp.write (Config.engineBase + 0x1008) 8 4 ≠ .pass ∧ HostOp.write (Config.engineBase + 0x1008) 8 4 ≠ .reset ∧
    (∀ op : HostOp, ({ hosted [op] with inflight := some 0 } : State).busy = true ∧
      ({ hosted [op] with inflight := some 0 } : State).host = op :: [] ∧ (hosted [op]).host = op :: []) ∧
    (8 ∈ [1, 2, 4, 8] ∧ 4088 % 8 = 0 ∧ 4088 < 4096) ∧
    3 ∉ [1, 2, 4, 8] ∧ 4095 % 2 ≠ 0 ∧ (4096 ≤ 0x1080 ∧ 4 ≠ 8) ∧ 0x1080 < 0x2000 :=
  ⟨rfl, rfl, HostOp.noConfusion, HostOp.noConfusion, fun _ => ⟨rfl, rfl, rfl⟩, by decide⟩

theorem witness_StepsKeepMemoryAndPointsCanonical :
    (∃ t, step (State.reset.withFetchWord 64 0x3410000000000000) = .next t) ∧
    Mem.wf (testState [] [(1, testGx, testGy, 1)] [(0, testHash)]).buf ∧
    (testState [] [(1, testGx, testGy, 1)] [(0, testHash)]).PointsCanonical :=
  ⟨⟨_, rfl⟩, by decide +kernel, by decide +kernel⟩

/-- A state with an error's report, a full cache slot (W = 1) and OLEN and DRBGCNT at their largest. -/
theorem witness_StepsKeepTheControlStateConsistent :
    let g : AffPoint := ⟨BitVec.ofNat 256 testGx, BitVec.ofNat 256 testGy⟩
    let s : State := { errored with wlog2 := 0, cache := some ⟨0, g, cacheTable g 0⟩, olen := 72, drbgcnt := 1000 }
    (∃ t, step s = .next t) ∧ s.CacheConsistent ∧ s.ErrorReportConsistent ∧ s.BusyHidesDone ∧ s.CountersBounded := by
  refine ⟨⟨_, rfl⟩, ?_, by decide, by decide, by decide⟩
  intro c hc
  obtain rfl : _ = c := Option.some.inj hc
  exact ⟨by decide +kernel, rfl, rfl⟩

/-- A run of one NOP: the state after its issue step and after its execute step. -/
theorem test_run_of_nop :
    (hosted [.write (Config.engineBase + 0x1080) 8 0]).after 1 = { State.reset with inflight := some 0, done := false } ∧
    (hosted [.write (Config.engineBase + 0x1080) 8 0]).after 2 = { State.reset with done := true } := by
  have hw : windowOffset (Config.engineBase + 0x1080) = some 0x1080 := by simp [windowOffset]
  have h1 : (hosted [.write (Config.engineBase + 0x1080) 8 0]).after 1 = { State.reset with inflight := some 0, done := false } := by
    refine State.next_of_step ?_
    simp only [State.after_zero, step, hosted, State.hostMove, hw]
    rfl
  refine ⟨h1, ?_⟩
  rw [State.after_succ, h1]
  exact State.next_of_step rfl

/-- Reset with no host move meets the premise of a clean entry; a run of one NOP ends clean, and the next run starts from there. -/
theorem witness_ResetMeetsEveryInvariant :
    (hosted []).InputsGiven ∧
    (let s := hosted [.write (Config.engineBase + 0x1080) 8 0];
      s.ErrorReportConsistent ∧ s.EndsClean 2 ∧ ({ s.after 2 with host := [] } : State).InputsGiven) := by
  obtain ⟨h1, h2⟩ := test_run_of_nop
  refine ⟨State.inputsGiven_idle rfl rfl, by decide, ⟨⟨⟨by rw [h2]; rfl, by rw [h2]; rfl, ?_⟩, ?_⟩, ?_, by rw [State.LostWork, h2]; decide⟩,
    State.inputsGiven_idle rfl (by show State.inflight (State.after _ 2) = none; rw [h2]; rfl)⟩
  · rintro k ⟨hk, hw, -⟩
    obtain rfl | rfl : k = 0 ∨ k = 1 := by omega
    · exact ⟨rfl, ⟨1, by decide, by decide, by rw [h1]; rfl⟩, by rw [h2]⟩
    · rw [h1] at hw; cases hw
  · rintro m hm ⟨h, h', -⟩
    obtain rfl | rfl : m = 0 ∨ m = 1 := by omega
    · cases h
    · rw [h1] at h'; cases h'
  · rintro (h | ⟨k, hk, h⟩)
    · rw [h2] at h; cases h
    · obtain rfl | rfl : k = 0 ∨ k = 1 := by omega
      · rw [State.setsErr_of_clear rfl, State.after_zero, ← State.after_zero (State.next _), State.after_next, h1] at h; cases h
      · rw [State.setsErr_of_clear (by rw [h1]; rfl), ← State.after_succ, h2] at h; cases h

/-- 70_reset R633: a run whose host clears ERR after an illegal word (R141's last line) ends with ERR = 0 and has still faulted. -/
theorem test_cleared_error_still_faults :
    let s := hosted [.write (Config.engineBase + 0x1080) 8 0x0010000000000000, .pass, .write (Config.engineBase + 0x1008) 8 4];
    s.Ended 3 ∧ (s.after 3).err = false ∧ s.Faulted 3 := by
  intro s
  have hc : windowOffset (Config.engineBase + 0x1080) = some 0x1080 := by simp [windowOffset]
  have hs : windowOffset (Config.engineBase + 0x1008) = some 0x1008 := by simp [windowOffset]
  have h1 : s.after 1 = { State.reset with
      inflight := some 0x0010000000000000, host := [.pass, .write (Config.engineBase + 0x1008) 8 4] } := by
    refine State.next_of_step ?_
    simp only [State.after_zero, step, s, hosted, State.hostMove, hc]
    rfl
  have h2 : s.after 2 = { State.reset with
      done := true, err := true, errcode := some .illegal, errcmd := 0x0010000000000000
      host := [.write (Config.engineBase + 0x1008) 8 4] } := by
    rw [State.after_succ, h1]
    exact State.next_of_step rfl
  have h3 : s.after 3 = { State.reset with done := true } := by
    rw [State.after_succ, h2]
    refine State.next_of_step ?_
    simp only [step, State.hostMove, hs]
    exact congrArg Host.Outcome.next (by decide +kernel)
  refine ⟨⟨by rw [h3]; rfl, by rw [h3]; rfl, ?_⟩, by rw [h3]; rfl, .inr ⟨1, by decide, by
    rw [State.setsErr_of_clear (by rw [h1]; rfl), ← State.after_succ, h2]⟩⟩
  rintro k ⟨hk, hw, -⟩
  obtain rfl | rfl | rfl : k = 0 ∨ k = 1 ∨ k = 2 := by omega
  · exact ⟨rfl, ⟨1, by decide, by decide, by rw [h1]; rfl⟩, by rw [h3]⟩
  · rw [h1] at hw; cases hw
  · rw [h2] at hw; simp [State.writesCmd, hs, target, legalWidth] at hw

/-- 70_reset R633, R510: launched with ERR = 1, an illegal word sets ERR again, and the host then clears it: the run has faulted. -/
theorem test_error_set_again_faults :
    let s : State := { errored with inflight := some 0x0010000000000000, host := [.pass, .write (Config.engineBase + 0x1008) 8 4] };
    (s.after 2).err = false ∧ s.Faulted 2 := by
  intro s
  have hs : windowOffset (Config.engineBase + 0x1008) = some 0x1008 := by simp [windowOffset]
  have h1 : s.after 1 = { errored with done := true, host := [.write (Config.engineBase + 0x1008) 8 4] } := State.next_of_step rfl
  have h2 : s.after 2 = { State.reset with done := true } := by
    rw [State.after_succ, h1]
    refine State.next_of_step ?_
    simp only [step, State.hostMove, hs]
    exact congrArg Host.Outcome.next (by decide +kernel)
  exact ⟨by rw [h2]; rfl, .inr ⟨0, by decide, rfl⟩⟩

/-- The same launch without a failing command: the host clears an ERR that the run did not set, and the run has not faulted. -/
theorem test_error_of_the_launch_is_no_fault :
    ¬({ errored with host := [.write (Config.engineBase + 0x1008) 8 4] } : State).Faulted 1 := by
  have hs : windowOffset (Config.engineBase + 0x1008) = some 0x1008 := by simp [windowOffset]
  have h : ∀ e : Bool, ({ errored with err := e, host := [.write (Config.engineBase + 0x1008) 8 4] } : State).next =
      { State.reset with done := false } := fun e => by
    refine State.next_of_step ?_
    simp only [step, State.hostMove, hs]
    exact congrArg Host.Outcome.next (by cases e <;> decide +kernel)
  rintro (h' | ⟨k, hk, h'⟩)
  · exact absurd ((congrArg State.err (h true)).symm.trans h') (by decide)
  · obtain rfl : k = 0 := by omega
    exact absurd ((congrArg State.err (h false)).symm.trans h') (by decide)

end Sys2Proof.Tests
end

section
/-! PROOFS. The frame of all 66 commands (10_state R33, R36, R45 to R53): one rule per staged write, then one case per command. -/

namespace Sys2Proof.Machine

/-! ### How a command ends -/

/-- Where a rule ends without an error, K holds of the state it commits. -/
def Yields (K : State → Prop) (r : Except Err State) : Prop := ∀ t, r = .ok t → K t

/-- The answer is a state in which K holds, with DONE set or with an error reported (60_exceptions R510). -/
def Ends (K : State → Prop) (o : Outcome) : Prop :=
  ∃ u, K u ∧ (o = .next u.markDone ∨ ∃ e, o = .next (u.raise e))

variable {K : State → Prop}

theorem Yields.ok {t : State} (h : K t) : Yields K (.ok t) := by
  rintro _ ⟨⟩; exact h

theorem Yields.error (e : Err) : Yields K (.error e) := by
  rintro _ ⟨⟩

theorem Yields.bind {α : Type} {x : Except Err α} {f : α → Except Err State} (h : ∀ a, x = .ok a → Yields K (f a)) :
    Yields K (x >>= f) := by
  cases x with
  | ok a => exact h a rfl
  | error e => exact .error e

theorem Yields.ite {c : Prop} [Decidable c] {x y : Except Err State} (hx : c → Yields K x) (hy : ¬c → Yields K y) :
    Yields K (if c then x else y) := by
  split
  · exact hx ‹_›
  · exact hy ‹_›

theorem Ends.complete {s : State} {r : Except Err State} (hs : K s) (hr : Yields K r) : Ends K (complete s r) := by
  rcases complete_cases s r with ⟨t, rfl, h⟩ | ⟨e, -, h⟩
  · exact ⟨t, hr t rfl, .inl h⟩
  · exact ⟨s, hs, .inr ⟨e, h⟩⟩

theorem Ends.of_next {L : State → Prop} {o : Outcome} {t : State} (h : Ends K o) (ho : o = .next t)
    (hdone : ∀ u, K u → L u.markDone) (hraise : ∀ u e, K u → L (u.raise e)) : L t := by
  obtain ⟨u, hu, h | ⟨e, h⟩⟩ := h
  · cases ho.symm.trans h; exact hdone u hu
  · cases ho.symm.trans h; exact hraise u e hu

theorem Ends.mono {L : State → Prop} {o : Outcome} (h : Ends K o) (hkl : ∀ u, K u → L u) : Ends L o := by
  obtain ⟨u, hu, ho⟩ := h
  exact ⟨u, hkl u hu, ho⟩

/-- ESIGN ends in its start, in the state after its draw, or with a signature of the signing loop written there (45_ecdsa R426). -/
theorem Ends.esign {d a : RegIdx} {addr len : BitVec 12} {nocanon : Bool} {ent : BitVec 2} {s : State} (hs : K s)
    (he : K (s.entropy addr len ent).2)
    (hw : ∀ {key m sc}, esignRun nocanon key m (s.entropy addr len ent).1 = .ok sc →
      K ((s.entropy addr len ent).2.writeSig d sc.1 sc.2)) :
    Ends K (execEsign d a addr len nocanon ent s) := by
  unfold execEsign
  split
  · exact .complete hs (.error _)
  · exact .complete he (.bind fun _ h => .ok (hw h))

/-- SSIGN ends in its start, in the state after its draw, or with a signature written there (46_schnorr R452). -/
theorem Ends.ssign {d a : RegIdx} {addr len : BitVec 12} {auxbuf : Bool} {s : State} (hs : K s)
    (hx : K (s.auxRand addr len auxbuf).2)
    (hw : ∀ rs : Word × Word, K ((s.auxRand addr len auxbuf).2.setRegs d [rs.1, rs.2])) :
    Ends K (execSsign d a addr len auxbuf s) := by
  unfold execSsign
  split
  · exact .complete hs (.error _)
  · exact .complete hx (.bind fun rs _ => .ok (hw rs))

/-! ### The writes that a footprint allows -/

/-- A command that began in s has staged t: the footprint allows all of its writes so far, and none of them is to the error report
unless the footprint names OVR, which only a write of STATUS changes (10_state R42). -/
structure StagedBy (f : Footprint) (s t : State) : Prop extends WritesOnly f s t where
  report : f.ovr = false → t.err = s.err ∧ t.errcode = s.errcode ∧ t.errcmd = s.errcmd

namespace StagedBy

variable {f : Footprint} {s t : State}

theorem refl : StagedBy f s s where
  regs _ _ := rfl
  pts _ _ := rfl
  buf _ _ := rfl
  res _ := rfl
  ovr _ := rfl
  ctrl _ := ⟨rfl, rfl⟩
  recid _ := rfl
  olen _ := rfl
  drbgcnt _ := rfl
  cache _ := rfl
  draws _ := rfl
  inflight := rfl
  outside := ⟨rfl, rfl, rfl⟩
  report _ := ⟨rfl, rfl, rfl⟩

/-- Other registers where the footprint allows it. -/
theorem withR (h : StagedBy f s t) (r : Vector Word 16) (hr : ∀ j, j ∉ f.regs → r[j] = t.getR j) :
    StagedBy f s { t with r := r } :=
  { h with regs := fun j hj => (hr j hj).trans (h.regs j hj) }

/-- Other points where the footprint allows it. -/
theorem withQ (h : StagedBy f s t) (q : Vector Point 16) (hq : ∀ j, j ∉ f.pts → q[j] = t.getQ j) :
    StagedBy f s { t with q := q } :=
  { h with pts := fun j hj => (hq j hj).trans (h.pts j hj) }

theorem setR (h : StagedBy f s t) {i : RegIdx} {v : Word} (hi : i ∈ f.regs) : StagedBy f s (t.setR i v) :=
  h.withR _ fun j hj => (t.getR_setR i j v).trans (if_neg (by rintro rfl; exact hj hi))

theorem setQ (h : StagedBy f s t) {i : PtIdx} {p : Point} (hi : i ∈ f.pts) : StagedBy f s (t.setQ i p) :=
  h.withQ _ fun j hj => (t.getQ_setQ i j p).trans (if_neg (by rintro rfl; exact hj hi))

theorem mem_indices (i : Fin 16) {m k : Nat} (hm : m < k) : i + Fin.ofNat 16 m ∈ indices i k :=
  List.mem_map_of_mem (List.mem_range.mpr hm)

theorem setRegs (h : StagedBy f s t) {i : RegIdx} {vs : List Word} (hi : f.regs = indices i vs.length) :
    StagedBy f s (t.setRegs i vs) := by
  rw [State.setRegs_frame]
  exact h.withR _ fun j hj => t.getR_setRegs_of_ne i j vs fun m hm e => hj (by rw [e, hi]; exact mem_indices i hm)

theorem setPts (h : StagedBy f s t) {i : PtIdx} {ps : List Point} (hi : f.pts = indices i ps.length) :
    StagedBy f s (t.setPts i ps) := by
  rw [State.setPts_frame]
  exact h.withQ _ fun j hj => t.getQ_setPts_of_ne i j ps fun m hm e => hj (by rw [e, hi]; exact mem_indices i hm)

theorem writeBuf (h : StagedBy f s t) {a : Nat} {b : List Byte} (hr : f.region = (a, b.length)) :
    StagedBy f s (t.writeBuf a b) :=
  { h with buf := fun x hx => (t.sameOutside_writeBuf a b x (by rw [hr] at hx; exact hx)).trans (h.buf x hx) }

theorem setRes (h : StagedBy f s t) {c : Bool} (hf : f.res = true) : StagedBy f s (t.setRes c) :=
  { h with res := fun e => nomatch hf.symm.trans e }

theorem withRecid (h : StagedBy f s t) {v : BitVec 2} (hf : f.recid = false → v = t.recid) :
    StagedBy f s { t with recid := v } :=
  { h with recid := fun e => (hf e).trans (h.recid e) }

theorem withOlen (h : StagedBy f s t) {v : BitVec 13} (hf : f.olen = true) : StagedBy f s { t with olen := v } :=
  { h with olen := fun e => nomatch hf.symm.trans e }

theorem withDrbgcnt (h : StagedBy f s t) {v : BitVec 11} (hf : f.drbgcnt = true) : StagedBy f s { t with drbgcnt := v } :=
  { h with drbgcnt := fun e => nomatch hf.symm.trans e }

theorem withCache (h : StagedBy f s t) {c : Option CacheSlot} (hf : f.cache = true) : StagedBy f s { t with cache := c } :=
  { h with cache := fun e => nomatch hf.symm.trans e }

theorem withDraws (h : StagedBy f s t) {n : Nat} (hf : f.draws = true) : StagedBy f s { t with draws := n } :=
  { h with draws := fun e => nomatch hf.symm.trans e }

theorem writeStatus (h : StagedBy f s t) {v : Cmd} (hr : f.res = true) (ho : f.ovr = true) : StagedBy f s (t.writeStatus v) :=
  { h with
    res := fun e => nomatch hr.symm.trans e
    ovr := fun e => nomatch ho.symm.trans e
    report := fun e => nomatch ho.symm.trans e }

theorem writeCtrl (h : StagedBy f s t) {v : Cmd} (hc : f.ctrl = true) (ha : f.cache = true) : StagedBy f s (t.writeCtrl v) :=
  { h with
    ctrl := fun e => nomatch hc.symm.trans e
    cache := fun e => nomatch ha.symm.trans e }

theorem setProduct (h : StagedBy f s t) {i : PtIdx} {a p : Point} (hi : i ∈ f.pts) (hf : f.draws = true) :
    StagedBy f s (t.setProduct i a p) := by
  rw [State.setProduct]
  split
  · exact h.setQ hi
  · exact (h.withDraws hf).setQ hi

theorem writeSig (h : StagedBy f s t) {i : RegIdx} {sig : EcdsaSig} {cnt : Nat} (hi : f.regs = indices i 2)
    (hr : f.recid = true) (hd : f.drbgcnt = true) : StagedBy f s (t.writeSig i sig cnt) := by
  have hregs := h.setRegs (vs := [BitVec.ofNat 256 sig.r, BitVec.ofNat 256 sig.s]) hi
  exact (hregs.withRecid (v := sig.recid) fun e => nomatch hr.symm.trans e).withDrbgcnt hd

theorem emit (h : StagedBy f s t) {addr : BitVec 12} {out : List Byte} (hr : f.region = (addr.toNat, out.length)) :
    Yields (StagedBy f s) (t.emit addr out) := by
  rw [State.emit_eq]
  exact .ite (fun _ => .ok (h.writeBuf hr)) fun _ => .error _

theorem emitWithLength (h : StagedBy f s t) {addr : BitVec 12} {out : List Byte} (hr : f.region = (addr.toNat, out.length))
    (hf : f.olen = true) : Yields (StagedBy f s) (t.emitWithLength addr out) :=
  .bind fun _ hu => .ok ((h.emit hr _ hu).withOlen hf)

/-- The end of a command, by its error or its success, is no write beside DONE and the error report. -/
theorem markDone (h : StagedBy f s t) : WritesOnly f s t.markDone := { h with }

theorem raise (h : StagedBy f s t) (e : Err) : WritesOnly f s (t.raise e) := { h with }

end StagedBy

/-! ### The frame of each command -/

/-- What a write of CSR n is (10_state R40, R51). -/
theorem State.csrWrite_cases (s : State) (n : Nat) (v : Cmd) :
    (n = 1 ∧ s.csrWrite n v = s.writeStatus v) ∨ (n = 4 ∧ s.csrWrite n v = s.writeCtrl v) ∨
    (n = 5 ∧ s.csrWrite n v = s.writeRecid v) ∨ s.csrWrite n v = s := by
  unfold State.csrWrite
  split
  · exact .inl ⟨rfl, rfl⟩
  · exact .inr (.inl ⟨rfl, rfl⟩)
  · exact .inr (.inr (.inl ⟨rfl, rfl⟩))
  · exact .inr (.inr (.inr rfl))

theorem length_compact (r v : Word) : (compact r v).length = 64 := by simp [compact]

theorem length_getRegs (s : State) (i : RegIdx) (k : Nat) : (s.getRegs i k).length = k := by simp [State.getRegs]

theorem length_batchNorm_getPts (s : State) (i : PtIdx) (k : Nat) : (batchNorm (s.getPts i k)).length = k := by
  simp [batchNorm, State.getPts]

/-- CSRW's write is within its footprint. -/
theorem stagedBy_csrWrite (a : RegIdx) (csr : BitVec 16) (s : State) (v : Cmd) :
    StagedBy (footprint s (.csrw a csr)) s (s.csrWrite csr.toNat v) := by
  have named {k : BitVec 16} (h : csr.toNat = k.toNat) : (csr == k) = true := beq_iff_eq.mpr (BitVec.eq_of_toNat_eq h)
  rcases s.csrWrite_cases csr.toNat v with ⟨h, e⟩ | ⟨h, e⟩ | ⟨h, e⟩ | e <;> rw [e]
  · exact .writeStatus .refl (named h) (named h)
  · exact .writeCtrl .refl (named h) (named h)
  · exact .withRecid .refl fun h' => nomatch (named (k := 5) h).symm.trans h'
  · exact .refl

/-- ESIGN's extra entropy consumes draws only. -/
theorem stagedBy_entropy {f : Footprint} (s : State) (addr len : BitVec 12) (ent : BitVec 2) (hf : f.draws = true) :
    StagedBy f s (s.entropy addr len ent).2 := by
  unfold State.entropy
  split
  · exact .refl
  · exact .withDraws .refl hf
  · exact .refl

/-- SSIGN's auxiliary randomness consumes draws only. -/
theorem stagedBy_auxRand {f : Footprint} (s : State) (addr len : BitVec 12) (auxbuf : Bool) (hf : f.draws = true) :
    StagedBy f s (s.auxRand addr len auxbuf).2 := by
  unfold State.auxRand
  split
  · exact .refl
  · exact .withDraws .refl hf

open StagedBy in
/-- Every command ends with only such writes staged as its footprint allows. -/
theorem exec_stagedBy (i : Instr) (s : State) : Ends (StagedBy (footprint s i) s) (exec i s) := by
  cases i
  case nop => exact .complete refl (.ok refl)
  case nchk | pchk => exact .complete refl (.bind fun _ _ => .ok refl)
  case ldi | mov | fadd | fsub | fmul | fsqr | fneg | fpow | fred | nadd | nsub | nmul | nneg | nred | pwei =>
    exact .complete refl (.ok (refl.setR List.mem_cons_self))
  case finv | ninv | csrr | spub => exact .complete refl (.bind fun _ _ => .ok (refl.setR List.mem_cons_self))
  case ld => exact .complete refl (.bind fun _ _ => .bind fun _ _ => .ok (refl.setR List.mem_cons_self))
  case ldc d k =>
    refine .complete refl ?_
    split
    · exact .ok (refl.setR List.mem_cons_self)
    · exact .error _
  case fsqrt => exact .complete refl (.ok ((refl.setR List.mem_cons_self).setRes rfl))
  case snorm d a flip =>
    refine .complete refl (.bind fun _ _ => .ite (fun _ => .ok (.withRecid ((refl.setR List.mem_cons_self).setRes rfl) ?_))
      fun _ => .ok ((refl.setR List.mem_cons_self).setRes rfl))
    rintro rfl; rfl
  case rcmp | rodd | peq => exact .complete refl (.ok (refl.setRes rfl))
  case shighs | everify | sverify => exact .complete refl (.bind fun _ _ => .ok (refl.setRes rfl))
  case pget | pgetj => exact .complete refl (.ok (refl.setRegs rfl))
  case derdec => exact .complete refl (.bind fun _ _ => .bind fun _ _ => .ok (refl.setRegs rfl))
  case nsplit | sigdec | schdec => exact .complete refl (.bind fun _ _ => .bind fun _ _ => .ok (refl.setRegs rfl))
  case rsigdec =>
    exact .complete refl (.bind fun _ _ => .bind fun _ _ => .bind fun _ _ => .ok ((refl.setRegs rfl).withRecid nofun))
  case fbinv d a cnt =>
    refine .complete refl (.bind fun _ _ => .ok (refl.setRegs ?_))
    rw [length_batchInv, length_getRegs]; rfl
  case paffb d a cnt =>
    refine .complete refl (.bind fun _ _ => .ok (refl.setPts ?_))
    rw [length_batchNorm_getPts]; rfl
  case pldg | pzero | pmov | pneg | pdbl | padd | paff | pendo => exact .complete refl (.ok (refl.setQ List.mem_cons_self))
  case pset | ptdec => exact .complete refl (.bind fun _ _ => .bind fun _ _ => .ok (refl.setQ List.mem_cons_self))
  case psetj =>
    exact .complete refl (.bind fun _ _ => .bind fun _ _ => .bind fun _ _ => .ok (refl.setQ List.mem_cons_self))
  case erecover =>
    exact .complete refl (.bind fun _ _ => .bind fun _ _ => .bind fun _ _ => .bind fun _ _ => .bind fun _ _ =>
      .ok (refl.setQ List.mem_cons_self))
  case mul => exact .complete refl (.bind fun _ _ => .bind fun _ _ => .ok (refl.setProduct List.mem_cons_self rfl))
  case mulu => exact .complete refl (.bind fun _ _ => .ok (refl.setProduct List.mem_cons_self rfl))
  case precomp => exact .complete refl (.bind fun _ _ => .ok (refl.withCache rfl))
  case cinv => exact .complete refl (.ok (refl.withCache rfl))
  case csrw a csr => exact .complete refl (.bind fun _ _ => .bind fun _ _ => .ok (stagedBy_csrWrite a csr s _))
  case st a addr len =>
    refine .complete refl (.bind fun _ _ => .bind fun _ _ => .bind fun _ _ => .ok (refl.writeBuf ?_))
    rw [length_beBytes]; rfl
  case sigenc | schenc =>
    refine .complete refl (.bind fun _ _ => refl.emit ?_)
    rw [length_compact]; rfl
  case rsigenc =>
    refine .complete refl (.bind fun _ _ => refl.emit ?_)
    rw [List.length_cons, length_compact]; rfl
  case derenc => exact .complete refl (.bind fun _ _ => refl.emitWithLength rfl rfl)
  case ptenc a addr fmt =>
    refine .complete refl (.bind fun _ _ => .bind fun p hp => refl.emitWithLength ?_ rfl)
    rw [assertValid_eq] at hp
    split at hp <;> cases hp
    rfl
  case esign d a addr len nocanon ent =>
    have he := stagedBy_entropy (f := footprint s (.esign d a addr len nocanon ent)) s addr len ent rfl
    exact .esign refl he fun _ => he.writeSig rfl rfl rfl
  case ssign d a addr len auxbuf =>
    have hx := stagedBy_auxRand (f := footprint s (.ssign d a addr len auxbuf)) s addr len auxbuf rfl
    exact .ssign refl hx fun _ => hx.setRegs rfl

/-- Settles O14: every command stages only writes of its footprint, and how it ends adds DONE or the error report. -/
theorem commandsWriteOnlyTheirFootprint : Obligations.CommandsWriteOnlyTheirFootprint :=
  fun i s _ h => (exec_stagedBy i s).of_next h (fun _ => StagedBy.markDone) fun _ e hu => hu.raise e

end Sys2Proof.Machine
end

section
/-! PROOFS. What every step keeps of the control state: the cache's table, the error report, DONE under BUSY, the ranges of OLEN and
DRBGCNT (10_state R43 to R53, 70_reset R621). -/

namespace Sys2Proof.Machine

/-! ### What a step can do -/

/-- What one move of the host can make of a state (70_reset R620 to R623). -/
inductive HostEffect (s : State) : State → Prop where
  | same : HostEffect s s
  | reply (v : BitVec 64) : HostEffect s { s with reply := some v }
  | overrun : HostEffect s s.overrun
  | writeBuf (a : Nat) (b : List Byte) : HostEffect s (s.writeBuf a b)
  | writeStatus (v : Cmd) : HostEffect s (s.writeStatus v)
  | csrWrite (n : Nat) (v : Cmd) : HostEffect s (s.csrWrite n v)
  | issue (w : Cmd) : HostEffect s (s.issue w)
  | reset : HostEffect s s.resetStep

theorem State.hostWrite_effect (s : State) (off w : Nat) (data : BitVec 64) : HostEffect s (s.hostWrite off w data) := by
  unfold State.hostWrite
  split
  · split
    · exact .overrun
    · exact .writeBuf _ _
  · split
    · exact .writeStatus _
    · split
      · exact .overrun
      · exact .csrWrite _ _
  · exact .issue _
  · exact .same

theorem State.hostMove_effect (s : State) (op : HostOp) : HostEffect s (s.hostMove op) := by
  cases op with
  | read addr w =>
    simp only [State.hostMove]
    split
    · exact .reply _
    · exact .same
  | write addr w data =>
    simp only [State.hostMove]
    split
    · exact s.hostWrite_effect _ w data
    · exact .same
  | reset => exact .reset
  | pass => exact .same

/-- The last line of the execute step, on what a command answers (70_reset R630). -/
theorem Ends.retire {L : State → Prop} {o : Outcome} (h : Ends L o) :
    ∃ u, L u ∧ (retireOutcome o = .next u.markDone.retire ∨ ∃ e, retireOutcome o = .next (u.raise e).retire) := by
  obtain ⟨u, hu, rfl | ⟨e, rfl⟩⟩ := h
  · exact ⟨u, hu, .inl rfl⟩
  · exact ⟨u, hu, .inr ⟨e, rfl⟩⟩

/-- The execute step ends as its command does, or with the refusal of a word that decodes as no row, and the command is retired
(70_reset R630). -/
theorem executeStep_ends {L : State → Prop} (w : Cmd) {s : State} (hs : L s) (hexec : ∀ i, Ends L (exec i s)) :
    ∃ u, L u ∧ (executeStep w s = .next u.markDone.retire ∨ ∃ e, executeStep w s = .next (u.raise e).retire) := by
  refine Ends.retire ?_
  split
  · exact hexec _
  · exact .complete hs (.error _)

/-- The induction over steps, packaged: K is kept by every step when it does not speak of the host's moves, every move of the host keeps
it, and it holds again after a command that began under it; L is what is known of the states that such a command ends in. -/
theorem step_keeps {K L : State → Prop} (hhost : ∀ s rest, K s → K { s with host := rest })
    (hmove : ∀ s t, HostEffect s t → K s → K t) (hlaunch : ∀ s, K s → L s) (hexec : ∀ i s, K s → Ends L (exec i s))
    (hdone : ∀ u, L u → K u.markDone.retire) (hraise : ∀ u e, L u → K (u.raise e).retire)
    {s t : State} (h : step s = .next t) (hs : K s) : K t := by
  have turn {s : State} (h : engineTurn s = .next t) (hs : K s) : K t := by
    unfold engineTurn at h
    split at h
    · obtain ⟨u, hu, e | ⟨_, e⟩⟩ := executeStep_ends _ (hlaunch s hs) fun i => hexec i s hs
      · cases h.symm.trans e; exact hdone u hu
      · cases h.symm.trans e; exact hraise u _ hu
    · cases h; exact hs
  rcases step_cases s with ⟨-, e⟩ | ⟨rest, -, e⟩ | ⟨op, rest, -, -, e⟩ <;> rw [e] at h
  · exact turn h hs
  · exact turn h (hhost s rest hs)
  · cases h; exact hmove _ _ (State.hostMove_effect _ op) (hhost s rest hs)

/-! ### Which commands touch the control state -/

theorem footprint_cache {s : State} {i : Instr} (h : (footprint s i).cache = true) :
    (∃ a csr, i = .csrw a csr) ∨ (∃ a, i = .precomp a) ∨ i = .cinv := by
  cases i <;> simp [footprint] at h ⊢

theorem footprint_ovr {s : State} {i : Instr} (h : (footprint s i).ovr = true) : ∃ a csr, i = .csrw a csr := by
  cases i <;> simp [footprint] at h ⊢

theorem footprint_ctrl {s : State} {i : Instr} (h : (footprint s i).cache = false) : (footprint s i).ctrl = false := by
  cases i
  case csrw a csr => exact h
  all_goals rfl

theorem footprint_olen {s : State} {i : Instr} (h : (footprint s i).olen = true) :
    (∃ a addr fmt, i = .ptenc a addr fmt) ∨ ∃ a b addr, i = .derenc a b addr := by
  cases i <;> simp [footprint] at h ⊢

theorem footprint_drbgcnt {s : State} {i : Instr} (h : (footprint s i).drbgcnt = true) :
    ∃ d a addr len nocanon ent, i = .esign d a addr len nocanon ent := by
  cases i <;> simp [footprint] at h ⊢

/-! ### The cache (10_state R45, R53) -/

theorem State.CacheConsistent.of_eq {s t : State} (h : s.CacheConsistent) (hc : t.cache = s.cache) (hw : t.wlog2 = s.wlog2) :
    t.CacheConsistent := by
  unfold State.CacheConsistent; rw [hc, hw]; exact h

theorem State.CacheConsistent.of_none {s : State} (h : s.cache = none) : s.CacheConsistent :=
  fun _ hc => nomatch h.symm.trans hc

/-- A write of CTRL that changes WLOG2 drops the table (10_state R45). -/
theorem State.CacheConsistent.csrWrite {s : State} (h : s.CacheConsistent) (n : Nat) (v : Cmd) : (s.csrWrite n v).CacheConsistent := by
  rcases s.csrWrite_cases n v with ⟨-, e⟩ | ⟨-, e⟩ | ⟨-, e⟩ | e <;> rw [e]
  · exact h
  · by_cases hw : v.extractLsb' 1 2 = s.wlog2
    · exact h.of_eq (if_pos hw) hw
    · exact .of_none (if_neg hw)
  · exact h
  · exact h

theorem exec_keeps_cacheConsistent (i : Instr) {s : State} (h : s.CacheConsistent) : Ends State.CacheConsistent (exec i s) := by
  cases hc : (footprint s i).cache
  · exact (exec_stagedBy i s).mono fun u hu => h.of_eq (hu.cache hc) (hu.ctrl (footprint_ctrl hc)).2
  · obtain ⟨a, csr, rfl⟩ | ⟨a, rfl⟩ | rfl := footprint_cache hc
    · exact .complete h (.bind fun _ _ => .bind fun _ _ => .ok (h.csrWrite _ _))
    · refine .complete h (.bind fun p hp => .ok ?_)
      rw [assertValid_eq] at hp
      split at hp <;> cases hp
      rintro _ ⟨⟩
      exact ⟨‹_›, rfl, rfl⟩
    · exact .complete h (.ok (.of_none rfl))

theorem HostEffect.keeps_cacheConsistent {s t : State} (h : HostEffect s t) (hs : s.CacheConsistent) : t.CacheConsistent := by
  cases h with
  | csrWrite n v => exact hs.csrWrite n v
  | issue w => unfold State.issue; split <;> exact hs
  | reset => exact .of_none rfl
  | same | reply | overrun | writeBuf | writeStatus => exact hs

/-! ### The error report (10_state R43, R44) -/

theorem State.ErrorReportConsistent.of_eq {s t : State} (h : s.ErrorReportConsistent)
    (ht : t.err = s.err ∧ t.errcode = s.errcode ∧ t.errcmd = s.errcmd) : t.ErrorReportConsistent := by
  obtain ⟨he, hc, hm⟩ := ht
  unfold State.ErrorReportConsistent; rw [he, hc, hm]; exact h

/-- Clearing ERR clears the report (10_state R42). -/
theorem State.ErrorReportConsistent.writeStatus {s : State} (h : s.ErrorReportConsistent) (v : Cmd) :
    (s.writeStatus v).ErrorReportConsistent := by
  unfold State.ErrorReportConsistent State.writeStatus
  cases v.getLsbD 2 <;> simp
  exact h

/-- The first error is captured, a later one changes nothing (60_exceptions R510). -/
theorem State.ErrorReportConsistent.raise {s : State} (h : s.ErrorReportConsistent) (e : Err) : (s.raise e).ErrorReportConsistent := by
  cases hs : s.err <;> simp [State.ErrorReportConsistent, hs]
  exact h.1 hs

theorem State.ErrorReportConsistent.csrWrite {s : State} (h : s.ErrorReportConsistent) (n : Nat) (v : Cmd) :
    (s.csrWrite n v).ErrorReportConsistent := by
  rcases s.csrWrite_cases n v with ⟨-, e⟩ | ⟨-, e⟩ | ⟨-, e⟩ | e <;> rw [e]
  · exact h.writeStatus v
  · exact h
  · exact h
  · exact h

theorem exec_keeps_errorReportConsistent (i : Instr) {s : State} (h : s.ErrorReportConsistent) :
    Ends State.ErrorReportConsistent (exec i s) := by
  cases ho : (footprint s i).ovr
  · exact (exec_stagedBy i s).mono fun u hu => h.of_eq (hu.report ho)
  · obtain ⟨a, csr, rfl⟩ := footprint_ovr ho
    exact .complete h (.bind fun _ _ => .bind fun _ _ => .ok (h.csrWrite _ _))

theorem HostEffect.keeps_errorReportConsistent {s t : State} (h : HostEffect s t) (hs : s.ErrorReportConsistent) :
    t.ErrorReportConsistent := by
  cases h with
  | writeStatus v => exact hs.writeStatus v
  | csrWrite n v => exact hs.csrWrite n v
  | issue w => unfold State.issue; split <;> exact hs
  | reset => exact ⟨nofun, fun _ => ⟨rfl, rfl⟩⟩
  | same | reply | overrun | writeBuf => exact hs

/-! ### DONE under BUSY (70_reset R621) -/

theorem HostEffect.keeps_busyHidesDone {s t : State} (h : HostEffect s t) (hs : s.BusyHidesDone) : t.BusyHidesDone := by
  have status (v : Cmd) : (s.writeStatus v).BusyHidesDone := fun hb => by simp [hs hb]
  cases h with
  | writeStatus v => exact status v
  | csrWrite n v =>
    rcases s.csrWrite_cases n v with ⟨-, e⟩ | ⟨-, e⟩ | ⟨-, e⟩ | e <;> rw [e]
    · exact status v
    · exact hs
    · exact hs
    · exact hs
  | issue w =>
    unfold State.issue
    split
    · exact hs
    · exact fun _ => rfl
  | reset => exact fun _ => rfl
  | same | reply | overrun | writeBuf => exact hs

/-! ### OLEN and DRBGCNT (10_state R47, R49) -/

theorem length_encodePoint_le (a : AffPoint) (fmt : BitVec 2) : (encodePoint a fmt).length ≤ 65 := by
  unfold encodePoint
  split <;> simp

theorem length_derContent_le (v : Word) : (derContent v).length ≤ 33 := by
  have h : ((be32 v).dropWhile (fun x => x == 0)).length ≤ 32 :=
    (List.dropWhile_suffix _).length_le.trans (length_be32 v).le
  simp only [derContent]
  split
  · exact Nat.succ_le_succ h
  · exact h.trans (Nat.le_succ _)

/-- OLEN's bound is reached by a signature of two 33-byte INTEGERs (44_codec R371). -/
theorem length_der_le (r v : Word) : (der r v).length ≤ 72 := by
  have hr := length_derContent_le r
  have hv := length_derContent_le v
  simp only [der, derInt, List.length_cons, List.length_append]
  omega

/-- What PTENC and DERENC leave in OLEN. -/
theorem State.CountersBounded.emitWithLength {s : State} (h : s.CountersBounded) (addr : BitVec 12) {out : List Byte}
    (ho : out.length ≤ 72) : Yields State.CountersBounded (s.emitWithLength addr out) := by
  rw [State.emitWithLength_eq]
  exact .ite (fun _ => .ok ⟨(Nat.mod_le _ _).trans ho, h.2⟩) fun _ => .error _

theorem State.CountersBounded.entropy {s : State} (h : s.CountersBounded) (addr len : BitVec 12) (ent : BitVec 2) :
    (s.entropy addr len ent).2.CountersBounded := by
  unfold State.entropy
  split <;> exact h

/-- What ESIGN leaves in DRBGCNT: the count of candidates, at most DRBG_CAP (45_ecdsa R424). -/
theorem State.CountersBounded.writeSig {s : State} (h : s.CountersBounded) (d : RegIdx) (sig : EcdsaSig) {cnt : Nat}
    (hc : cnt ≤ 1000) : (s.writeSig d sig cnt).CountersBounded :=
  ⟨(congrArg BitVec.toNat (s.setRegs_olen d _)).trans_le h.1, (Nat.mod_le _ _).trans hc⟩

theorem exec_keeps_countersBounded (i : Instr) {s : State} (h : s.CountersBounded) : Ends State.CountersBounded (exec i s) := by
  cases ho : (footprint s i).olen
  · cases hd : (footprint s i).drbgcnt
    · exact (exec_stagedBy i s).mono fun u hu => ⟨(hu.olen ho).symm ▸ h.1, (hu.drbgcnt hd).symm ▸ h.2⟩
    · obtain ⟨d, a, addr, len, nocanon, ent, rfl⟩ := footprint_drbgcnt hd
      have he := h.entropy addr len ent
      refine .esign h he fun {key m sc} hr => ?_
      rcases esignRun_cases nocanon key m (s.entropy addr len ent).1 with e | ⟨sig, cnt, e, -, hcnt, -⟩
      · cases hr.symm.trans e
      · cases hr.symm.trans e
        exact he.writeSig d sig hcnt
  · obtain ⟨a, addr, fmt, rfl⟩ | ⟨a, b, addr, rfl⟩ := footprint_olen ho
    · exact .complete h (.bind fun _ _ => .bind fun p _ =>
        h.emitWithLength addr ((length_encodePoint_le p fmt).trans (by decide)))
    · exact .complete h (.bind fun _ _ => h.emitWithLength addr (length_der_le _ _))

theorem HostEffect.keeps_countersBounded {s t : State} (h : HostEffect s t) (hs : s.CountersBounded) : t.CountersBounded := by
  cases h with
  | csrWrite n v =>
    rcases s.csrWrite_cases n v with ⟨-, e⟩ | ⟨-, e⟩ | ⟨-, e⟩ | e <;> rw [e] <;> exact hs
  | issue w => unfold State.issue; split <;> exact hs
  | reset => exact ⟨Nat.zero_le _, Nat.zero_le _⟩
  | same | reply | overrun | writeBuf | writeStatus => exact hs

/-- Settles O59: each of the four invariants is kept by commands, by the refusal of an illegal word and by the host's moves. -/
theorem stepsKeepTheControlStateConsistent : Obligations.StepsKeepTheControlStateConsistent := by
  intro s t h
  refine ⟨?cache, ?report, ?done, ?counters⟩
  case cache =>
    exact step_keeps (L := State.CacheConsistent) (fun _ _ hs => hs) (fun _ _ => HostEffect.keeps_cacheConsistent) (fun _ hs => hs)
      (fun i _ => exec_keeps_cacheConsistent i) (fun _ hu => hu) (fun _ _ hu => hu) h
  case report =>
    exact step_keeps (L := State.ErrorReportConsistent) (fun _ _ hs => hs) (fun _ _ => HostEffect.keeps_errorReportConsistent)
      (fun _ hs => hs) (fun i _ => exec_keeps_errorReportConsistent i) (fun _ hu => hu) (fun _ e hu => hu.raise e) h
  case done =>
    exact step_keeps (L := fun _ => True) (fun _ _ hs => hs) (fun _ _ => HostEffect.keeps_busyHidesDone) (fun _ _ => trivial)
      (fun i s _ => (exec_stagedBy i s).mono fun _ _ => trivial) (fun _ _ => nofun) (fun _ _ _ => nofun) h
  case counters =>
    exact step_keeps (L := State.CountersBounded) (fun _ _ hs => hs) (fun _ _ => HostEffect.keeps_countersBounded) (fun _ hs => hs)
      (fun i _ => exec_keeps_countersBounded i) (fun _ hu => hu) (fun _ _ hu => hu) h

end Sys2Proof.Machine
end

section
/-! PROOFS. MUL and MULU of the identity and by the scalar 1, and what smul is (43_scalar R329 to R338, 10_state R53). -/

namespace Sys2Proof.Machine

/-! ### Triples with Z = 0 stay so -/

theorem zeroJ_z : zeroJ.z = 0 := rfl

theorem fMul_zero (a : Word) : fMul a 0 = 0 := by
  apply BitVec.eq_of_toNat_eq
  rw [fMul_toNat]; simp [F]

/-- A sum with the identity on the left is the other summand (42_curve R272). -/
theorem add_of_left_zero {t : Point} (ht : t.z = 0) (u : Point) : add t u = u := if_pos ht

theorem add_of_right_zero {t u : Point} (ht : t.z ≠ 0) (hu : u.z = 0) : add t u = t := (if_neg ht).trans (if_pos hu)

theorem add_z_of_zero {t u : Point} (ht : t.z = 0) (hu : u.z = 0) : (add t u).z = 0 := by rwa [add_of_left_zero ht]

theorem dbl_z_of_zero {t : Point} (ht : t.z = 0) : (dbl t).z = 0 := by
  show fMul _ t.z = 0
  rw [ht, fMul_zero]

theorem getD_z_of_zero {l : List Point} (h : ∀ p ∈ l, p.z = 0) (i : Nat) : (l.getD i zeroJ).z = 0 := by
  rw [List.getD_eq_getElem?_getD]
  cases hi : l[i]? with
  | none => rfl
  | some p => exact h p (List.mem_of_getElem? hi)

theorem multiples_z_of_zero {p : Point} (hp : p.z = 0) (m : Nat) {base : Point} (hb : base.z = 0) :
    ∀ q ∈ multiples p m base, q.z = 0 := by
  induction m generalizing base with
  | zero => simpa [multiples] using hb
  | succ m ih => exact List.forall_mem_cons.mpr ⟨hb, ih (add_z_of_zero hb hp)⟩

theorem getLastD_z_of_zero {l : List Point} {p : Point} (h : ∀ q ∈ l, q.z = 0) (hp : p.z = 0) : (l.getLastD p).z = 0 := by
  rcases List.mem_cons.mp (List.getLastD_mem_cons (l := l) (a := p)) with e | e
  · rw [e]; exact hp
  · exact h _ e

theorem windows_z_of_zero (half m : Nat) {p : Point} (hp : p.z = 0) : ∀ q ∈ windows half m p, q.z = 0 := by
  induction m generalizing p with
  | zero => exact fun _ hq => nomatch hq
  | succ m ih =>
    have htab := multiples_z_of_zero hp (half - 1) hp
    have hnext := ih (dbl_z_of_zero (getLastD_z_of_zero htab hp))
    rw [windows]
    exact List.forall_mem_append.mpr ⟨htab, hnext⟩

theorem wnafLoop_z_of_zero {tab : List Point} (htab : ∀ q ∈ tab, q.z = 0) (w m i k : Nat) {p : Point} (hp : p.z = 0) (f : Point) :
    (wnafLoop tab w m i k p f).1.z = 0 := by
  induction m generalizing i k p f with
  | zero => exact hp
  | succ m ih =>
    have hget := getD_z_of_zero htab
    have hneg (j : Nat) : (neg (tab.getD j zeroJ)).z = 0 := hget j
    simp only [wnafLoop]
    split
    · exact ih _ _ (add_z_of_zero hp (hneg _)) _
    · split
      · exact ih _ _ hp _
      · exact ih _ _ (add_z_of_zero hp (hget _)) _

theorem mulSplit_z_of_zero {tab : List Point} (htab : ∀ q ∈ tab, q.z = 0) (w : Nat) (k : Split) : (mulSplit tab w k).z = 0 := by
  have hwnaf (n : Nat) (c : Bool) : (if c then neg (wnaf n tab w).1 else (wnaf n tab w).1).z = 0 := by
    have h := wnafLoop_z_of_zero htab w (128 / w + 1) 0 n zeroJ_z pointG
    split <;> exact h
  exact add_z_of_zero (hwnaf k.k1 k.k1neg) (hwnaf k.k2 k.k2neg)

theorem doubleAndAdd_z_of_zero (m k : Nat) {d acc : Point} (hd : d.z = 0) (ha : acc.z = 0) : (doubleAndAdd m k d acc).z = 0 := by
  induction m generalizing k d acc with
  | zero => exact ha
  | succ m ih =>
    unfold doubleAndAdd
    split
    · exact ha
    · refine ih _ (dbl_z_of_zero hd) ?_
      split
      · exact add_z_of_zero ha hd
      · exact ha

/-- The identity never hits the cache (43_scalar R332). -/
theorem lookupTable_of_zero (c : Option CacheSlot) {t : Point} (ht : t.z = 0) : lookupTable c t = (precompute t 1, 1) := by
  cases c with
  | none => rfl
  | some c => simp [lookupTable, cacheHit, ht]

/-! ### Normalisation -/

theorem norm_of_zero {t : Point} (ht : t.z = 0) : norm t = zeroJ := by simp [norm, aff, fromAff, ht]

theorem z_ne_zero_of_valid {t : Point} (h : valid (aff t) = true) : t.z ≠ 0 := fun hz => by
  simp [aff, hz, valid] at h

theorem fInv_one : fInv 1 = 1 := by decide +kernel

theorem fMul_one_of_lt {x : Word} (h : x.toNat < P) : fMul x 1 = x := by
  apply BitVec.eq_of_toNat_eq
  rw [fMul_toNat, F_of_lt h, F_of_lt (by decide : (1 : Word).toNat < P)]
  simpa using Nat.mod_eq_of_lt h

/-- `aff` undoes `fromAff` (42_curve R270, R274). -/
theorem aff_fromAff {a : AffPoint} (hx : a.x.toNat < P) (hy : a.y.toNat < P) : aff (fromAff a) = a := by
  have hone : fMul 1 1 = 1 := fMul_one_of_lt (by decide)
  have hne : (1 : Word) ≠ 0 := by decide
  unfold fromAff
  split
  · rename_i h; rw [h]; rfl
  · have haff : aff ⟨a.x, a.y, 1⟩ = ⟨fMul a.x (fSqr (fInv 1)), fMul a.y (fMul (fSqr (fInv 1)) (fInv 1))⟩ := if_neg hne
    rw [haff, fInv_one, fSqr, hone, hone, fMul_one_of_lt hx, fMul_one_of_lt hy]

theorem aff_norm (t : Point) : aff (norm t) = aff t := aff_fromAff (aff_lt t).1 (aff_lt t).2

/-! ### The scalar 1 -/

/-- A windowed multiplication with no digit left adds nothing (43_scalar R331). -/
theorem wnafLoop_zero (tab : List Point) (w m i : Nat) (p f : Point) : (wnafLoop tab w m i 0 p f).1 = p := by
  induction m generalizing i f with
  | zero => rfl
  | succ m ih => simp [wnafLoop, ih]

/-- The scalar 1 has the one digit 1, which takes the table's first entry. -/
theorem wnaf_one (tab : List Point) {w : Nat} (hw : 1 ≤ w) : (wnaf 1 tab w).1 = tab.getD 0 zeroJ := by
  have hpow : 2 ≤ 2 ^ w := Nat.pow_le_pow_right (n := 2) (by decide) hw
  have hhalf : ¬2 ^ (w - 1) < 1 := Nat.not_lt.mpr Nat.one_le_two_pow
  have hmod : 1 % 2 ^ w = 1 := Nat.mod_eq_of_lt hpow
  have hdiv : 1 / 2 ^ w = 0 := Nat.div_eq_of_lt hpow
  simp only [wnaf, wnafLoop, hmod, hdiv, if_neg hhalf, one_ne_zero, if_false, wnafLoop_zero, add_of_left_zero zeroJ_z]
  simp

theorem split_one : split 1 = .ok ⟨false, 1, false, 0⟩ := by decide +kernel

theorem mulSplit_one {tab : List Point} {w : Nat} (hw : 1 ≤ w) (h : (tab.getD 0 zeroJ).z ≠ 0) :
    mulSplit tab w ⟨false, 1, false, 0⟩ = tab.getD 0 zeroJ := by
  have hzero : (wnaf 0 tab w).1 = zeroJ := wnafLoop_zero tab w _ 0 zeroJ pointG
  show add (wnaf 1 tab w).1 (endo (wnaf 0 tab w).1) = _
  rw [wnaf_one tab hw, hzero]
  exact add_of_right_zero h rfl

theorem mulPlain_one (t : Point) : mulPlain t 1 = t := by
  have hzero (m : Nat) (d acc : Point) : doubleAndAdd m 0 d acc = acc := by cases m <;> rfl
  rw [mulPlain, doubleAndAdd, if_neg one_ne_zero, if_pos rfl, show 1 / 2 = 0 from rfl, hzero, add_of_left_zero zeroJ_z]

/-- The table starts with its point (43_scalar R330). -/
theorem precompute_eq_cons (t : Point) (w : Nat) : ∃ l, precompute t w = t :: l := by
  unfold precompute windows multiples
  split <;> exact ⟨_, rfl⟩

/-- The table that MUL uses starts with a triple of the same affine point, whether it is cached or transient (43_scalar R332, 10_state R53). -/
theorem lookupTable_head {s : State} (hs : s.CacheConsistent) (t : Point) :
    aff ((lookupTable s.cache t).1.getD 0 zeroJ) = aff t ∧ 1 ≤ (lookupTable s.cache t).2 := by
  have transient : aff ((precompute t 1).getD 0 zeroJ) = aff t := by
    obtain ⟨l, e⟩ := precompute_eq_cons t 1
    rw [e]; rfl
  cases hc : s.cache with
  | none => exact ⟨transient, le_rfl⟩
  | some c =>
    simp only [lookupTable]
    split
    · rename_i hhit
      obtain ⟨-, -, htab⟩ := hs c hc
      have hpt : aff t = c.cpoint := beq_iff_eq.mp (Bool.and_eq_true_iff.mp hhit).2
      obtain ⟨l, e⟩ := precompute_eq_cons (fromAff c.cpoint) (2 ^ c.twlog2.toNat)
      refine ⟨?_, Nat.one_le_two_pow⟩
      rw [htab, cacheTable, e, ← hpt]
      exact (aff_norm (norm t)).trans (aff_norm t)
    · exact ⟨transient, le_rfl⟩

/-! ### The GLV split of every scalar succeeds (43_scalar R329) -/

/-- `divNearest` by n is off by at most half (43_scalar R329). -/
theorem divNearest_N_bounds (a : Nat) : 2 * a < 2 * N * divNearest a N + N ∧ 2 * N * divNearest a N < 2 * a + N := by
  have h := Nat.div_add_mod (a + N / 2) N
  have hm := Nat.mod_lt (a + N / 2) N_pos
  have hN : N = 2 * (N / 2) + 1 := by decide
  rw [mul_assoc]
  unfold divNearest
  omega

/-- The first half of the split as an integer, before it is reduced mod n (43_scalar R329). -/
def glvHalf1 (k : Nat) : Int :=
  k - divNearest (glvB2.toNat * k) N * glvA1 - divNearest ((-glvB1).toNat * k) N * glvA2

/-- The second half. -/
def glvHalf2 (k : Nat) : Int :=
  -(divNearest (glvB2.toNat * k) N * glvB1) - divNearest ((-glvB1).toNat * k) N * glvB2

/-- The rounding errors leave each half at most half the sum of its two basis coordinates. -/
theorem glvHalves_lt (k : Nat) : |glvHalf1 k| < 2 ^ 128 ∧ |glvHalf2 k| < 2 ^ 128 := by
  have h1 := divNearest_N_bounds (glvB2.toNat * k)
  have h2 := divNearest_N_bounds ((-glvB1).toNat * k)
  have hA1 : glvA1 = 0x3086D221A7D46BCDE86C90E49284EB15 := rfl
  have hB1 : glvB1 = -0xE4437ED6010E88286F547FA90ABFE4C3 := rfl
  have hA2 : glvA2 = 0x114CA50F7A8E2F3F657C1108D9D44CFD8 := rfl
  have hb1 : (-glvB1).toNat = 0xE4437ED6010E88286F547FA90ABFE4C3 := rfl
  have hb2 : glvB2.toNat = 0x3086D221A7D46BCDE86C90E49284EB15 := rfl
  have hN : N = 0xFFFFFFFFFFFFFFFFFFFFFFFFFFFFFFFEBAAEDCE6AF48A03BBFD25E8CD0364141 := rfl
  unfold glvHalf1 glvHalf2
  generalize divNearest (glvB2.toNat * k) N = c1 at *
  generalize divNearest ((-glvB1).toNat * k) N = c2 at *
  rw [hb1, hN] at h2
  rw [hb2, hN] at h1
  rw [hA1, hA2, hB1, show glvB2 = glvA1 from rfl, hA1, abs_lt, abs_lt]
  omega

/-- The sign that the split finds gives back the half's absolute value. -/
theorem glvHalf_reduced_lt {x : Int} (hx : |x| < 2 ^ 128) :
    (if decide (2 ^ 128 ≤ (x % N).toNat) = true then N - (x % N).toNat else (x % N).toNat) < 2 ^ 128 := by
  have hN : N = 0xFFFFFFFFFFFFFFFFFFFFFFFFFFFFFFFEBAAEDCE6AF48A03BBFD25E8CD0364141 := rfl
  obtain ⟨hl, hu⟩ := abs_lt.mp hx
  split
  · rename_i h
    have h := of_decide_eq_true h
    rw [hN] at h ⊢
    omega
  · rename_i h
    exact Nat.not_le.mp fun hc => h (decide_eq_true hc)

/-- E_ENDO is never raised (43_scalar R329). -/
theorem split_ok (k : Nat) : ∃ r, split k = .ok r :=
  have ⟨h1, h2⟩ := glvHalves_lt k
  ⟨_, if_neg (not_or.mpr ⟨Nat.not_le.mpr (glvHalf_reduced_lt h1), Nat.not_le.mpr (glvHalf_reduced_lt h2)⟩)⟩

/-! ### What MUL and MULU write -/

/-- MULU of the identity or a valid point (43_scalar R334). -/
theorem exec_mulu (d a : PtIdx) (b : RegIdx) (s : State) (hk : 0 < (s.getR b).toNat ∧ (s.getR b).toNat < N)
    (ht : (s.getQ a).z = 0 ∨ valid (aff (s.getQ a)) = true) :
    exec (.mulu d a b) s = .next (s.setQ d (norm (mulPlain (s.getQ a) (s.getR b).toNat))).markDone := by
  show execMulu d a b s = _
  rw [execMulu, checkScalar_bind, if_pos hk, State.setProduct_multipliable _ _ _ _ ht]
  rfl

/-- MUL of the identity or a valid point (43_scalar R333). -/
theorem exec_mul (d a : PtIdx) (b : RegIdx) (s : State) (hk : 0 < (s.getR b).toNat ∧ (s.getR b).toNat < N)
    (ht : (s.getQ a).z = 0 ∨ valid (aff (s.getQ a)) = true) {r : Split} (hr : split (s.getR b).toNat = .ok r) :
    exec (.mul d a b) s = .next (s.setQ d (norm
      (mulSplit (lookupTable s.cache (s.getQ a)).1 (lookupTable s.cache (s.getQ a)).2 r))).markDone := by
  show execMul d a b s = _
  rw [execMul, checkScalar_bind, if_pos hk, hr, ok_bind, State.setProduct_multipliable _ _ _ _ ht]
  rfl

theorem exec_mul_identity (d a : PtIdx) (b : RegIdx) (s : State) (hk : 0 < (s.getR b).toNat ∧ (s.getR b).toNat < N)
    (hz : (s.getQ a).z = 0) : exec (.mul d a b) s = .next (s.setQ d zeroJ).markDone := by
  obtain ⟨r, hr⟩ := split_ok (s.getR b).toNat
  have hprod : (mulSplit (precompute (s.getQ a) 1) 1 r).z = 0 := mulSplit_z_of_zero (windows_z_of_zero _ _ hz) 1 r
  rw [exec_mul d a b s hk (.inl hz) hr, lookupTable_of_zero _ hz, norm_of_zero hprod]

theorem exec_mulu_identity (d a : PtIdx) (b : RegIdx) (s : State) (hk : 0 < (s.getR b).toNat ∧ (s.getR b).toNat < N)
    (hz : (s.getQ a).z = 0) : exec (.mulu d a b) s = .next (s.setQ d zeroJ).markDone := by
  have hprod : (mulPlain (s.getQ a) (s.getR b).toNat).z = 0 := doubleAndAdd_z_of_zero 256 _ hz zeroJ_z
  rw [exec_mulu d a b s hk (.inl hz), norm_of_zero hprod]

theorem one_inScalarRange {v : Word} (h : v = 1) : 0 < v.toNat ∧ v.toNat < N := by subst h; decide

theorem exec_mul_one (d a : PtIdx) (b : RegIdx) (s : State) (hb : s.getR b = 1) (hv : valid (aff (s.getQ a)) = true)
    (hs : s.CacheConsistent) : exec (.mul d a b) s = .next (s.setQ d (norm (s.getQ a))).markDone := by
  obtain ⟨hhead, hw⟩ := lookupTable_head hs (s.getQ a)
  have hz := z_ne_zero_of_valid (hhead ▸ hv)
  rw [exec_mul d a b s (one_inScalarRange hb) (.inr hv) (by rw [hb]; exact split_one), mulSplit_one hw hz, norm, hhead]
  rfl

theorem exec_mulu_one (d a : PtIdx) (b : RegIdx) (s : State) (hb : s.getR b = 1) (hv : valid (aff (s.getQ a)) = true) :
    exec (.mulu d a b) s = .next (s.setQ d (norm (s.getQ a))).markDone := by
  rw [exec_mulu d a b s (one_inScalarRange hb) (.inr hv), hb]
  exact congrArg (fun p => Host.Outcome.next (s.setQ d (norm p)).markDone) (mulPlain_one _)

theorem smul_eq_zeroJ {t : Point} {k : Nat} (h : k % N = 0 ∨ t.z = 0) : smul t k = zeroJ := if_pos h

theorem smul_eq_norm {t : Point} {k : Nat} (hk : k % N ≠ 0) (ht : t.z ≠ 0) : smul t k = norm (mulPlain t (k % N)) :=
  if_neg (not_or.mpr ⟨hk, ht⟩)

/-- Settles O38: a product of the identity keeps Z = 0, and the scalar 1 splits into 1 and 0, so that MUL takes one table entry. -/
theorem multiplesOfIdentityAndByOne : Obligations.MultiplesOfIdentityAndByOne := by
  intro d a b s
  refine ⟨fun h0 hN hz => ⟨exec_mul_identity d a b s ⟨h0, hN⟩ hz, exec_mulu_identity d a b s ⟨h0, hN⟩ hz⟩,
    fun hb hv => ⟨fun hc => ?_, fun hs => exec_mul_one d a b s hb hv hs, exec_mulu_one d a b s hb hv⟩,
    fun k => ⟨smul_eq_zeroJ, fun h0 hk hv => ?_⟩⟩
  · exact exec_mul_one d a b s hb hv fun c h => nomatch hc.symm.trans h
  · have hN : (s.getR b).toNat < N := hk ▸ Nat.mod_lt k N_pos
    rw [exec_mulu d a b s ⟨h0, hN⟩ (.inr hv), smul_eq_norm (by omega) (z_ne_zero_of_valid hv), hk]
    rfl

end Sys2Proof.Machine
end

section
/-! PROOFS. What every step keeps of BUF and the point registers: the canonical form of the written bytes (20_memory R80) and coordinates
below P (10_state R34). -/

namespace Sys2Proof.Machine

/-! ### Points that come from checked bytes, registers or a batch -/

theorem checkCoord_ok {v : Word} {u : Unit} (h : checkCoord v = .ok u) : v.toNat < P := of_decide_eq_true (require_ok h)

/-- The coordinates of a valid affine point are below P (42_curve R275). -/
theorem valid_lt {a : AffPoint} (h : valid a = true) : a.x.toNat < P ∧ a.y.toNat < P := by
  obtain ⟨hrange, -⟩ := Bool.and_eq_true_iff.mp h
  obtain ⟨-, hx, -, hy⟩ := of_decide_eq_true hrange
  exact ⟨hx, hy⟩

/-- A lifted point keeps its x, which the check bounds, and has a y of the field unit (42_curve R276). -/
theorem lift_lt {x : Word} {par : Nat} {a : AffPoint} (h : lift x par = .ok a) : a.x.toNat < P ∧ a.y.toNat < P := by
  unfold lift at h
  split at h
  · rename_i hx
    dsimp only at h
    split at h <;> cases h
    refine ⟨hx.2, ?_⟩
    dsimp only
    split
    · exact fPow_lt _ _
    · exact fNeg_lt _
  · cases h

/-- A decoded public key has coordinates below P, whatever its format (44_codec R373). -/
theorem decodePoint_lt {b : List Byte} {a : AffPoint} (h : decodePoint b = .ok a) : a.x.toNat < P ∧ a.y.toNat < P := by
  unfold decodePoint at h
  split at h
  · exact lift_lt h
  · rw [require_bind] at h
    split at h
    · exact lift_lt h
    · cases h
  · rw [require_bind] at h
    split at h
    · rw [require_bind] at h
      split at h <;> cases h
      exact valid_lt ‹_›
    · cases h
  · cases h

/-- Every point of a batch normalisation is canonical (42_curve R293). -/
theorem batchNorm_canonical (ts : List Point) : ∀ p ∈ batchNorm ts, p.Canonical := by
  intro p hp
  obtain ⟨i, hi, rfl⟩ := List.getElem_of_mem hp
  simp only [batchNorm, List.getElem_zipWith]
  split
  · exact zeroJ_canonical
  · exact (fromAff_canonical _ (fMul_lt _ _) (fMul_lt _ _)).1

/-! ### The writes that keep both forms -/

/-- What leads from s to t keeps BUF's canonical form, and keeps all point coordinates below P. -/
structure KeepsForms (s t : State) : Prop where
  buf : Mem.wf s.buf → Mem.wf t.buf
  pts : s.PointsCanonical → t.PointsCanonical

namespace KeepsForms

variable {s t u : State}

theorem of_eq (hb : t.buf = s.buf) (hq : t.q = s.q) : KeepsForms s t where
  buf := by rw [hb]; exact id
  pts := by unfold State.PointsCanonical State.getQ; rw [hq]; exact id

theorem refl : KeepsForms s s := ⟨id, id⟩

theorem trans (h : KeepsForms s t) (h' : KeepsForms t u) : KeepsForms s u := ⟨h'.buf ∘ h.buf, h'.pts ∘ h.pts⟩

theorem setR {i : RegIdx} {v : Word} : KeepsForms s (s.setR i v) := .of_eq rfl rfl

theorem setRes {c : Bool} : KeepsForms s (s.setRes c) := .of_eq rfl rfl

theorem withCache {c : Option CacheSlot} : KeepsForms s { s with cache := c } := .of_eq rfl rfl

theorem setRegs {i : RegIdx} {vs : List Word} : KeepsForms s (s.setRegs i vs) :=
  .of_eq (s.setRegs_buf i vs) (s.setRegs_q i vs)

theorem setQ {i : PtIdx} {p : Point} (hp : s.PointsCanonical → p.Canonical) : KeepsForms s (s.setQ i p) where
  buf := id
  pts h j := by
    rw [State.getQ_setQ]
    split
    · exact hp h
    · exact h j

theorem setPts {i : PtIdx} {ps : List Point} (hp : ∀ p ∈ ps, p.Canonical) : KeepsForms s (s.setPts i ps) := by
  induction ps generalizing s i with
  | nil => exact .refl
  | cons p ps ih =>
    obtain ⟨hhead, htail⟩ := List.forall_mem_cons.mp hp
    exact (setQ fun _ => hhead).trans (ih htail)

/-- A product is normalised before it is written, the free point of an off-curve operand too (43_scalar R333, R334). -/
theorem setProduct {i : PtIdx} {a p : Point} : KeepsForms s (s.setProduct i a p) := by
  unfold State.setProduct
  split
  · exact .setQ fun _ => (norm_canonical p).1
  · exact (of_eq (s := s) (t := { s with draws := s.draws + 1 }) rfl rfl).trans (.setQ fun _ => (norm_canonical _).1)

/-- A write inside BUF (20_memory R84). -/
theorem writeBuf {a : Nat} {b : List Byte} (h : a + b.length ≤ 4096) : KeepsForms s (s.writeBuf a b) where
  buf hs := Mem.wf_setBytes hs a b h
  pts := id

theorem emit (addr : BitVec 12) (out : List Byte) : Yields (KeepsForms s) (s.emit addr out) := by
  rw [State.emit_eq]
  exact .ite (fun h => .ok (.writeBuf h)) fun _ => .error _

theorem emitWithLength (addr : BitVec 12) (out : List Byte) : Yields (KeepsForms s) (s.emitWithLength addr out) :=
  .bind fun t ht => .ok ((emit addr out t ht).trans (.of_eq rfl rfl))

theorem csrWrite (n : Nat) (v : Cmd) : KeepsForms s (s.csrWrite n v) := by
  rcases s.csrWrite_cases n v with ⟨-, e⟩ | ⟨-, e⟩ | ⟨-, e⟩ | e <;> rw [e] <;> exact .of_eq rfl rfl

theorem entropy (addr len : BitVec 12) (ent : BitVec 2) : KeepsForms s (s.entropy addr len ent).2 := by
  unfold State.entropy
  split <;> exact .of_eq rfl rfl

theorem auxRand (addr len : BitVec 12) (auxbuf : Bool) : KeepsForms s (s.auxRand addr len auxbuf).2 := by
  unfold State.auxRand
  split <;> exact .of_eq rfl rfl

end KeepsForms

/-! ### Commands, the engine's turn, and the host -/

open KeepsForms in
/-- Every command stores inside BUF only, and every point it writes has coordinates below P if its operands have. -/
theorem exec_keepsForms (i : Instr) (s : State) : Ends (KeepsForms s) (exec i s) := by
  cases i
  case nop => exact .complete refl (.ok refl)
  case nchk | pchk => exact .complete refl (.bind fun _ _ => .ok refl)
  case ldi | mov | fadd | fsub | fmul | fsqr | fneg | fpow | fred | nadd | nsub | nmul | nneg | nred | pwei =>
    exact .complete refl (.ok .setR)
  case finv | ninv | csrr | spub => exact .complete refl (.bind fun _ _ => .ok .setR)
  case ld => exact .complete refl (.bind fun _ _ => .bind fun _ _ => .ok .setR)
  case ldc d k =>
    refine .complete refl ?_
    split
    · exact .ok .setR
    · exact .error _
  case fsqrt => exact .complete refl (.ok (setR.trans .setRes))
  case snorm =>
    exact .complete refl (.bind fun _ _ => .ite (fun _ => .ok (.of_eq rfl rfl)) fun _ => .ok (setR.trans .setRes))
  case rcmp | rodd | peq => exact .complete refl (.ok .setRes)
  case shighs | everify | sverify => exact .complete refl (.bind fun _ _ => .ok .setRes)
  case precomp => exact .complete refl (.bind fun _ _ => .ok .withCache)
  case cinv => exact .complete refl (.ok .withCache)
  case csrw => exact .complete refl (.bind fun _ _ => .bind fun _ _ => .ok (.csrWrite _ _))
  case pget | pgetj => exact .complete refl (.ok .setRegs)
  case fbinv => exact .complete refl (.bind fun _ _ => .ok .setRegs)
  case nsplit | derdec | sigdec | schdec => exact .complete refl (.bind fun _ _ => .bind fun _ _ => .ok .setRegs)
  case rsigdec =>
    exact .complete refl (.bind fun _ _ => .bind fun _ _ => .bind fun _ _ => .ok (setRegs.trans (.of_eq rfl rfl)))
  case esign d a addr len nocanon ent =>
    have he := entropy (s := s) addr len ent
    exact .esign refl he fun _ => he.trans (setRegs.trans (.of_eq rfl rfl))
  case ssign d a addr len auxbuf =>
    have hx := auxRand (s := s) addr len auxbuf
    exact .ssign refl hx fun _ => hx.trans .setRegs
  case st =>
    refine .complete refl (.bind fun _ _ => .bind fun _ hbuf => .bind fun _ _ => .ok (.writeBuf ?_))
    rw [length_beBytes]; exact checkBuf_ok hbuf
  case sigenc | schenc | rsigenc => exact .complete refl (.bind fun _ _ => .emit _ _)
  case derenc => exact .complete refl (.bind fun _ _ => .emitWithLength _ _)
  case ptenc => exact .complete refl (.bind fun _ _ => .bind fun _ _ => .emitWithLength _ _)
  case pldg => exact .complete refl (.ok (.setQ fun _ => pointG_canonical))
  case pzero => exact .complete refl (.ok (.setQ fun _ => zeroJ_canonical))
  case pmov d a => exact .complete refl (.ok (.setQ fun h => h a))
  case pneg d a => exact .complete refl (.ok (.setQ fun h => neg_canonical (h a)))
  case pdbl => exact .complete refl (.ok (.setQ fun _ => dbl_canonical _))
  case padd d a b => exact .complete refl (.ok (.setQ fun h => add_canonical (h a) (h b)))
  case pendo d a => exact .complete refl (.ok (.setQ fun h => endo_canonical (h a)))
  case paff => exact .complete refl (.ok (.setQ fun _ => (norm_canonical _).1))
  case paffb => exact .complete refl (.bind fun _ _ => .ok (.setPts (batchNorm_canonical _)))
  case pset =>
    exact .complete refl (.bind fun _ hx => .bind fun _ hy => .ok (.setQ fun _ =>
      (fromAff_canonical _ (checkCoord_ok hx) (checkCoord_ok hy)).1))
  case psetj =>
    exact .complete refl (.bind fun _ hx => .bind fun _ hy => .bind fun _ hz => .ok (.setQ fun _ =>
      ⟨checkCoord_ok hx, checkCoord_ok hy, checkCoord_ok hz⟩))
  case ptdec =>
    refine .complete refl (.bind fun _ _ => .bind fun p hp => .ok (.setQ fun _ => ?_))
    obtain ⟨hx, hy⟩ := decodePoint_lt hp
    exact ⟨hx, hy, P_gt_one⟩
  case erecover =>
    exact .complete refl (.bind fun _ _ => .bind fun _ _ => .bind fun _ _ => .bind fun _ _ => .bind fun _ _ =>
      .ok (.setQ fun _ => (norm_canonical _).1))
  case mul => exact .complete refl (.bind fun _ _ => .bind fun _ _ => .ok .setProduct)
  case mulu => exact .complete refl (.bind fun _ _ => .ok .setProduct)

theorem engineTurn_keepsForms {s t : State} (h : engineTurn s = .next t) : KeepsForms s t := by
  unfold engineTurn at h
  split at h
  · obtain ⟨u, hu, e | ⟨_, e⟩⟩ := executeStep_ends _ KeepsForms.refl fun i => exec_keepsForms i s
    · cases h.symm.trans e; exact hu.trans (.of_eq rfl rfl)
    · cases h.symm.trans e; exact hu.trans (.of_eq rfl rfl)
  · cases h; exact .refl

/-- A naturally aligned access to BUF stays inside it (20_memory R91). -/
theorem target_buf_le {off w a : Nat} (h : target off w = .buf a) : a + w ≤ 4096 := by
  unfold target at h
  split_ifs at h with hlegal hoff
  cases h
  obtain ⟨hw, hmod⟩ : legalWidth w = true ∧ off % w = 0 := by simpa using hlegal
  obtain rfl | rfl | rfl | rfl : w = 1 ∨ w = 2 ∨ w = 4 ∨ w = 8 := by simpa [legalWidth, or_assoc] using hw
  all_goals omega

theorem length_laneBytes (order : WordOrder) (w : Nat) (data : BitVec 64) : (laneBytes order w data).length = w := by
  cases order <;> simp [laneBytes]

/-- A write of the host reaches BUF at aligned offsets only, and no point (70_reset R622, R623). -/
theorem State.hostWrite_keepsForms (s : State) (off w : Nat) (data : BitVec 64) : KeepsForms s (s.hostWrite off w data) := by
  unfold State.hostWrite
  split
  · split
    · exact .of_eq rfl rfl
    · refine .writeBuf ?_
      rw [length_laneBytes]; exact target_buf_le ‹_›
  · split
    · exact .of_eq rfl rfl
    · split
      · exact .of_eq rfl rfl
      · exact .csrWrite _ _
  · unfold State.issue
    split <;> exact .of_eq rfl rfl
  · exact .refl

theorem State.resetStep_keepsForms (s : State) : KeepsForms s s.resetStep where
  buf _ := ⟨.nil, nofun⟩
  pts _ i := by
    have h : s.resetStep.getQ i = zeroJ := Vector.getElem_replicate i.isLt
    rw [h]; exact zeroJ_canonical

theorem State.hostMove_keepsForms (s : State) (op : HostOp) : KeepsForms s (s.hostMove op) := by
  cases op with
  | read addr w =>
    simp only [State.hostMove]
    split <;> exact .of_eq rfl rfl
  | write addr w data =>
    simp only [State.hostMove]
    split
    · exact s.hostWrite_keepsForms _ w data
    · exact .refl
  | reset => exact s.resetStep_keepsForms
  | pass => exact .refl

theorem step_keepsForms {s t : State} (h : step s = .next t) : KeepsForms s t := by
  have next (rest : List HostOp) : KeepsForms s { s with host := rest } := .of_eq rfl rfl
  rcases step_cases s with ⟨-, e⟩ | ⟨rest, -, e⟩ | ⟨op, rest, -, -, e⟩ <;> rw [e] at h
  · exact engineTurn_keepsForms h
  · exact (next rest).trans (engineTurn_keepsForms h)
  · cases h; exact (next rest).trans (State.hostMove_keepsForms _ op)

/-- Settles O58: commands, the refusal of an illegal word and the host's moves each keep both forms. -/
theorem stepsKeepMemoryAndPointsCanonical : Obligations.StepsKeepMemoryAndPointsCanonical :=
  fun _ _ h => ⟨(step_keepsForms h).buf, (step_keepsForms h).pts⟩

end Sys2Proof.Machine
end

section
/-! PROOFS. LD and ST where their checks pass, and a load of part of a stored region (20_memory R83, 40_move_control R205, R206). -/

namespace Sys2Proof.Machine

theorem checkMoveLen_of_le {len : BitVec 12} (h1 : 1 ≤ len.toNat) (h2 : len.toNat ≤ 32) : checkMoveLen len = .ok () := by
  simp [checkMoveLen, h1, h2]

theorem checkBuf_of_le {addr k : Nat} (h : addr + k ≤ 4096) : checkBuf addr k = .ok () := by
  simp [checkBuf, bufSize, h]

/-- LD of 1 to 32 bytes inside BUF (40_move_control R205). -/
theorem exec_ld (d : RegIdx) {addr len : BitVec 12} (s : State) (h1 : 1 ≤ len.toNat) (h2 : len.toNat ≤ 32)
    (hb : addr.toNat + len.toNat ≤ 4096) :
    exec (.ld d addr len) s = .next (s.setR d (wordOf (s.readBuf addr.toNat len.toNat))).markDone := by
  show execLd d addr len s = _
  rw [execLd, checkMoveLen_of_le h1 h2, checkBuf_of_le hb]
  rfl

/-- ST of a value that fits into 1 to 32 bytes inside BUF (40_move_control R206). -/
theorem exec_st (a : RegIdx) {addr len : BitVec 12} (s : State) (h1 : 1 ≤ len.toNat) (h2 : len.toNat ≤ 32)
    (hb : addr.toNat + len.toNat ≤ 4096) (hv : (s.getR a).toNat < 2 ^ (8 * len.toNat)) :
    exec (.st a addr len) s = .next (s.writeBuf addr.toNat (beBytes len.toNat (s.getR a).toNat)).markDone := by
  show execSt a addr len s = _
  rw [execSt, checkMoveLen_of_le h1 h2, checkBuf_of_le hb, decide_eq_true hv]
  rfl

/-- A digit to base 256 below the k-th is not changed by a reduction mod 256^k. -/
theorem mod_pow_digit (x : Nat) {i k : Nat} (h : i < k) : x % 256 ^ k / 256 ^ i % 256 = x / 256 ^ i % 256 := by
  obtain ⟨m, rfl⟩ := Nat.exists_eq_add_of_lt h
  have hk : 256 ^ (i + m + 1) = 256 ^ i * (256 * 256 ^ m) := by ring
  rw [hk, Nat.mod_mul_right_div_self, Nat.mod_mul_right_mod]

/-- A part of a region that holds v holds the digits of v at its place (20_memory R81, R83). -/
theorem State.HoldsBytes.part {s : State} {a n v : Nat} (h : s.HoldsBytes a n v) {a' k : Nat} (ha : a ≤ a') (hk : a' + k ≤ a + n) :
    s.HoldsBytes a' k (v / 256 ^ (a + n - (a' + k)) % 256 ^ k) := by
  intro j hj
  have hbyte := h (a' - a + j) (by omega)
  rw [show a + (a' - a + j) = a' + j by omega] at hbyte
  rw [hbyte, mod_pow_digit _ (by omega), Nat.div_div_eq_div_mul, ← pow_add]
  congr 3
  omega

/-- Settles O19: the loaded region is part of the stored one, so it holds the stored value's digits at its place. -/
theorem loadsSeePartsOfAStore : Obligations.LoadsSeePartsOfAStore := by
  intro a d addr n addr' k s hn1 hn2 hbuf hfit hk1 hlo hhi
  have hstored : (s.writeBuf addr.toNat (beBytes n.toNat (s.getR a).toNat)).markDone.HoldsBytes addr.toNat n.toNat (s.getR a).toNat :=
    s.holdsBytes_writeBuf addr.toNat n.toNat (s.getR a).toNat
  refine ⟨_, exec_st a s hn1 hn2 hbuf hfit, ?_⟩
  rw [exec_ld d _ hk1 (by omega) (by omega), wordOf, State.be_readBuf _ _ _ _ (Nat.mod_lt _ (by positivity)) (hstored.part hlo hhi)]
  rfl

end Sys2Proof.Machine
end

section
/-! PROOFS. The decoder and the encoder are inverse to each other (30_encoding R120, R122, R127): a row's mask leaves exactly the bits
that its command uses. -/

namespace Sys2Proof

/-! ### A word from its fields (R120) -/

/-- The opcode and the fields cover the word. -/
theorem word_opcode_ofWord (w : Cmd) : word (opcode w) (Fields.ofWord w) = w := by
  have hreg (x : BitVec 4) : BitVec.ofFin (w := 4) x.toFin = x := rfl
  simp only [word, opcode, Fields.ofWord, hreg]
  apply BitVec.eq_of_getLsbD_eq; intro i hi
  interval_cases i <;> simp

theorem cmd_ext {v w : Cmd} (hop : opcode v = opcode w) (hf : Fields.ofWord v = Fields.ofWord w) : v = w := by
  rw [← word_opcode_ofWord v, hop, hf, word_opcode_ofWord]

/-- A word whose fields are those of w outside a mask that covers the opcode byte is its opcode's pattern with w's bits outside the mask. -/
theorem word_eq_pattern_or {op : BitVec 8} {m w : Cmd} {f : Fields} (hm : opcode (~~~m) = 0)
    (hf : f = Fields.ofWord (op.setWidth 64 <<< 56 ||| (w &&& ~~~m))) :
    word op f = op.setWidth 64 <<< 56 ||| (w &&& ~~~m) := by
  refine cmd_ext ?_ ((ofWord_word op f).trans hf)
  have hop : opcode (op.setWidth 64 <<< 56) = op := by
    simpa [word] using opcode_word op {}
  rw [opcode_word, opcode, BitVec.extractLsb'_or, BitVec.extractLsb'_and, ← opcode, ← opcode, ← opcode, hop, hm]
  simp

/-! ### The low bits of IMM (R121, R123) -/

/-- A field in the low k bits, with 0 above it, is what the mask of k ones leaves. -/
theorem zero_append_extractLsb' {m k : Nat} (x : BitVec (m + k)) :
    0#m ++ x.extractLsb' 0 k = x &&& (BitVec.allOnes k).setWidth (m + k) := by
  apply BitVec.eq_of_getLsbD_eq; intro i hi
  rw [BitVec.getLsbD_append]
  by_cases h : i < k <;> simp [h, hi]

theorem ofBool_getLsbD_zero (x : BitVec 16) : BitVec.ofBool (x.getLsbD 0) = x.extractLsb' 0 1 := by
  apply BitVec.eq_of_getLsbD_eq; intro i hi
  interval_cases i; simp

/-- cnt of FBINV and PAFFB. -/
theorem imm_low_five (x : BitVec 16) : 0#11 ++ x.extractLsb' 0 5 = x &&& 31#16 :=
  zero_append_extractLsb' (m := 11) (k := 5) x

/-- fmt of PTENC. -/
theorem imm_low_two (x : BitVec 16) : 0#14 ++ x.extractLsb' 0 2 = x &&& 3#16 :=
  zero_append_extractLsb' (m := 14) (k := 2) x

/-- The one-bit suffixes. -/
theorem imm_low_one (x : BitVec 16) : 0#15 ++ BitVec.ofBool (x.getLsbD 0) = x &&& 1#16 := by
  rw [ofBool_getLsbD_zero]; exact zero_append_extractLsb' (m := 15) (k := 1) x

/-- ENT and NOCANON of ESIGN. -/
theorem imm_low_three (x : BitVec 16) : 0#13 ++ x.extractLsb' 1 2 ++ BitVec.ofBool (x.getLsbD 0) = x &&& 7#16 := by
  have hjoin : x.extractLsb' 1 2 ++ x.extractLsb' 0 1 = x.extractLsb' 0 3 :=
    BitVec.extractLsb'_append_extractLsb'_eq_extractLsb' rfl
  calc 0#13 ++ x.extractLsb' 1 2 ++ BitVec.ofBool (x.getLsbD 0)
      = 0#13 ++ (x.extractLsb' 1 2 ++ x.extractLsb' 0 1) := by rw [ofBool_getLsbD_zero]; exact BitVec.append_assoc ..
    _ = x &&& 7#16 := by rw [hjoin]; exact zero_append_extractLsb' (m := 13) (k := 3) x

/-- A one-bit field at the low end reads back. -/
theorem getLsbD_append_ofBool {m : Nat} (x : BitVec m) (b : Bool) : (x ++ BitVec.ofBool b).getLsbD 0 = b := by
  rw [BitVec.getLsbD_append]; simp

/-! ### The opcode table (R122, R127) -/

/-- A row's mask covers the opcode byte, so it leaves the pattern as it is. -/
theorem pattern_and_mask : ∀ r ∈ rows, r.pattern &&& r.mask = r.pattern := by decide

/-- A word that is a pattern under the mask and any bits outside it passes the mask's test. -/
theorem pattern_or_and_mask {p m w : Cmd} (h : p &&& m = p) : (p ||| (w &&& ~~~m)) &&& m = p := by
  rw [BitVec.and_comm, BitVec.and_or_distrib_left, BitVec.and_comm m p, h, BitVec.and_comm w, ← BitVec.and_assoc, BitVec.and_not_self]
  simp

/-- What a row builds from a word is encoded as the row's pattern with the word's bits outside the mask. Row by row: the mask has a 0
exactly at the bits of the fields that the command uses. -/
theorem encode_build {r : Row} (hr : r ∈ rows) (w : Cmd) :
    encode (r.build (Fields.ofWord w)) = r.pattern ||| (w &&& ~~~r.mask) := by
  have h4 (x : BitVec 4) : x &&& 0xF#4 = x := BitVec.and_allOnes
  have h12 (x : BitVec 12) : x &&& 0xFFF#12 = x := BitVec.and_allOnes
  have h16 (x : BitVec 16) : x &&& 0xFFFF#16 = x := BitVec.and_allOnes
  fin_cases hr
  all_goals
    refine word_eq_pattern_or rfl ?_
    simp only [Fields.ofWord, BitVec.extractLsb'_or, BitVec.extractLsb'_and, imm_low_five, imm_low_two, imm_low_one, imm_low_three]
    simp [h4, h12, h16]

/-- A word of an assigned opcode is read by that opcode's row. -/
theorem exists_row_word {op : BitVec 8} {f : Fields} {r : Row} {i : Instr} (hr : rowOf op = some r) (hb : r.build f = i) :
    ∃ r, rowOf (opcode (word op f)) = some r ∧ r.build (Fields.ofWord (word op f)) = i :=
  ⟨r, by rw [opcode_word, hr], by rw [ofWord_word, hb]⟩

/-- The row of a command's opcode builds the command from its word. -/
theorem exists_row_encode (i : Instr) :
    ∃ r, rowOf (opcode (encode i)) = some r ∧ r.build (Fields.ofWord (encode i)) = i := by
  cases i
  case fbinv | paffb | ptenc => exact exists_row_word rfl (congrArg _ (BitVec.extractLsb'_append_eq_right ..))
  case snorm | everify | ssign => exact exists_row_word rfl (congrArg _ (getLsbD_append_ofBool ..))
  case esign d a addr len nocanon ent =>
    have hent : (0#13 ++ ent ++ BitVec.ofBool nocanon).extractLsb' 1 2 = ent :=
      (BitVec.extractLsb'_append_eq_of_le (by decide)).trans (BitVec.extractLsb'_append_eq_right ..)
    exact exists_row_word rfl (congrArg₂ _ (getLsbD_append_ofBool ..) hent)
  all_goals exact exists_row_word rfl rfl

/-! ### Decoding -/

theorem mem_rows_of_rowOf {op : BitVec 8} {r : Row} (h : rowOf op = some r) : r ∈ rows := List.mem_of_find?_eq_some h

/-- A word decodes as a row exactly when its bits under the mask are the row's pattern (R122). -/
theorem decode_eq_ok_iff {w : Cmd} {i : Instr} :
    decode w = .ok i ↔ ∃ r, rowOf (opcode w) = some r ∧ w &&& r.mask = r.pattern ∧ r.build (Fields.ofWord w) = i := by
  unfold decode
  cases rowOf (opcode w) with
  | none => simp
  | some r => by_cases h : w &&& r.mask = r.pattern <;> simp [h]

/-- Settles O2: the encoded word is its row's pattern and bits outside the mask, so it passes the row's test. -/
theorem decodingAnEncodedCommandGivesItBack : Obligations.DecodingAnEncodedCommandGivesItBack := by
  intro i
  obtain ⟨r, hr, hb⟩ := exists_row_encode i
  have hmem := mem_rows_of_rowOf hr
  have henc : encode i = r.pattern ||| (encode i &&& ~~~r.mask) := by
    rw [← encode_build hmem, hb]
  refine decode_eq_ok_iff.2 ⟨r, hr, ?_, hb⟩
  rw [henc, pattern_or_and_mask (pattern_and_mask r hmem)]

theorem decode_of_encode {w : Cmd} {i : Instr} (h : encode i = w) : decode w = .ok i :=
  h ▸ decodingAnEncodedCommandGivesItBack i

/-- Settles O3: the word is its bits under the mask, which are the pattern, and its bits outside the mask. -/
theorem everyDecodedWordIsItsCommandsEncoding : Obligations.EveryDecodedWordIsItsCommandsEncoding := by
  intro w i h
  obtain ⟨r, hr, hmask, rfl⟩ := decode_eq_ok_iff.1 h
  rw [encode_build (mem_rows_of_rowOf hr), ← hmask, ← BitVec.and_or_distrib_left, BitVec.or_not_self, BitVec.and_allOnes]

end Sys2Proof
end

section
/-! PROOFS. Words and field values that are refused with E_ILLEGAL (30_encoding R125, R128, R141). -/

namespace Sys2Proof.Machine

/-! ### Reserved values (R123, R125) -/

theorem complete_require_false {c : Bool} (hc : c = false) (s : State) (e : Err) (f : Unit → Except Err State) :
    complete s (require c e >>= f) = .next (s.raise e) := by
  rw [hc]; rfl

theorem constant_eq_none {k : Nat} (h : 9 < k) : constant k = none := by
  obtain ⟨m, rfl⟩ := Nat.exists_eq_add_of_lt h
  rw [show 9 + m + 1 = m + 10 by omega]; rfl

/-- A reserved value in a used field is refused by the command's own check. (log 18) -/
theorem exec_of_not_wellFormed {i : Instr} (h : i.wellFormed = false) (s : State) : exec i s = .next (s.raise .illegal) := by
  cases i
  case ldc d k =>
    show execLdc d k s = _
    rw [execLdc, constant_eq_none (Nat.lt_of_not_le (of_decide_eq_false h))]; rfl
  case ld | st | csrr | fbinv | paffb => exact complete_require_false h ..
  case csrw a csr =>
    show complete s (require (decide (csr.toNat ≤ 8)) .illegal >>= fun _ => require (csrWritable csr) .illegal >>= _) = _
    rw [require_bind]
    split
    · exact complete_require_false h ..
    · rfl
  case ptenc a addr fmt =>
    have hfmt : fmt.toNat = 3 := not_not.1 (of_decide_eq_false h)
    exact complete_require_false (by rw [hfmt]; rfl) ..
  case esign d a addr len nocanon ent =>
    show execEsign .. = _
    rw [execEsign, esignInput_eq, if_pos (not_not.1 (of_decide_eq_false h))]; rfl
  all_goals exact absurd h nofun

theorem csrWritable_eq_false {csr : BitVec 16} (h : csr.toNat ≠ 1 ∧ csr.toNat ≠ 4 ∧ csr.toNat ≠ 5) : csrWritable csr = false := by
  simpa [csrWritable, and_assoc] using h

/-- Settles O5: each value makes the command ill-formed. -/
theorem reservedFieldValuesAreIllegal : Obligations.ReservedFieldValuesAreIllegal := by
  intro s
  have ill {i : Instr} (h : i.wellFormed = false) : exec i s = .next (s.raise .illegal) := exec_of_not_wellFormed h s
  refine ⟨fun d k h => ill ?ldc, fun d csr h => ill ?csrr, fun a csr h => ill ?csrwAbove, fun a csr h => ill ?csrwReadOnly,
    fun d a cnt h => ill ?fbinv, fun d a cnt h => ill ?paffb, fun a addr => ill rfl, fun d a addr len nocanon => ill rfl,
    fun d addr len h => ill ?ld, fun a addr len h => ill ?st⟩
  case csrwAbove => exact csrWritable_eq_false (by omega)
  case csrwReadOnly =>
    simp only [List.mem_cons, List.not_mem_nil, or_false] at h
    exact csrWritable_eq_false (by omega)
  all_goals exact decide_eq_false (by omega)

/-! ### Illegal words (R128) -/

theorem executeStep_of_error {w : Cmd} {e : DecodeError} (h : decode w = .error e) (s : State) :
    executeStep w s = .next { s.raise .illegal with inflight := none } := by
  rw [executeStep, h]; rfl

/-- The reserved ranges of the opcode byte (R128). -/
def reservedOpcodes : List (Nat × Nat) :=
  [(0x0A, 0x0F), (0x1A, 0x1F), (0x28, 0x2F), (0x44, 0x4F), (0x5C, 0x5F), (0x63, 0x6F), (0x73, 0xFF)]

theorem op_not_reserved : ∀ r ∈ rows, ∀ p ∈ reservedOpcodes, ¬ (p.1 ≤ r.op.toNat ∧ r.op.toNat ≤ p.2) := by
  decide

theorem rowOf_eq_none_of_reserved {op : BitVec 8} {p : Nat × Nat} (hp : p ∈ reservedOpcodes) (h : p.1 ≤ op.toNat ∧ op.toNat ≤ p.2) :
    rowOf op = none := by
  refine List.find?_eq_none.2 fun r hr hop => op_not_reserved r hr p hp ?_
  rwa [eq_of_beq hop]

/-- Settles O4: a reserved opcode has no row, and the encoding of a command that is not well-formed is refused by that command. -/
theorem wordsThatEncodeNoCommandAreIllegal : Obligations.WordsThatEncodeNoCommandAreIllegal := by
  refine ⟨decode_of_encode rfl, ?_, ?_⟩
  · rintro w s ⟨lo, hi, hp, h⟩
    have hd : decode w = .error (.reservedOpcode (opcode w)) := by
      rw [decode, rowOf_eq_none_of_reserved (op := opcode w) hp h]
    exact executeStep_of_error hd s
  · intro w s hw
    cases hd : decode w with
    | error e => exact executeStep_of_error hd s
    | ok i =>
      have hi : i.wellFormed = false :=
        Bool.eq_false_iff.2 fun hi => hw i hi (everyDecodedWordIsItsCommandsEncoding w i hd)
      rw [executeStep, hd]
      exact congrArg retireOutcome (exec_of_not_wellFormed hi s)

/-- Settles O1: the words are the commands' encodings, and a NOP with D = 1 fails the test of NOP's row. -/
theorem wordsOfTheSpecDecode : Obligations.WordsOfTheSpecDecode := by
  refine ⟨?_, ?_, ?_, ?_, ?_, ?_, ?_, ?_, ?_, ?_, ?_, ?nopWithD⟩
  case nopWithD => exact executeStep_of_error (e := .nonzeroUnusedField "NOP") rfl
  all_goals exact decode_of_encode rfl

end Sys2Proof.Machine
end

section
/-! PROOFS. The move, memory, CSR and compare commands (40_move_control R201 to R210). -/

namespace Sys2Proof.Machine

/-! ### LD and ST (R205, R206) -/

theorem movesLegal_eq_false {len : BitVec 12} (h : len.toNat = 0 ∨ 32 < len.toNat) : movesLegal len = false :=
  decide_eq_false (by omega)

theorem checkBuf_of_gt {addr k : Nat} (h : 4096 < addr + k) : checkBuf addr k = .error .bufRange := by
  rw [checkBuf, bufSize, decide_eq_false (Nat.not_le_of_lt h)]; rfl

/-- The value of at most 32 bytes fits a register, so it loses nothing there (00_scope R14). -/
theorem toNat_wordOf {b : List Byte} (h : b.length ≤ 32) : (wordOf b).toNat = be b := by
  have hfit : 256 ^ b.length ≤ 2 ^ 256 := Nat.pow_le_pow_right (j := 32) (by decide) h
  rw [wordOf, BitVec.toNat_ofNat, Nat.mod_eq_of_lt ((be_lt b).trans_le hfit)]

theorem exec_ld_of_past_buf (d : RegIdx) {addr len : BitVec 12} (s : State) (h1 : 1 ≤ len.toNat) (h2 : len.toNat ≤ 32)
    (hb : 4096 < addr.toNat + len.toNat) : exec (.ld d addr len) s = .next (s.raise .bufRange) := by
  show execLd d addr len s = _
  rw [execLd, checkMoveLen_of_le h1 h2, checkBuf_of_gt hb]
  rfl

theorem exec_st_of_past_buf (a : RegIdx) {addr len : BitVec 12} (s : State) (h1 : 1 ≤ len.toNat) (h2 : len.toNat ≤ 32)
    (hb : 4096 < addr.toNat + len.toNat) : exec (.st a addr len) s = .next (s.raise .bufRange) := by
  show execSt a addr len s = _
  rw [execSt, checkMoveLen_of_le h1 h2, checkBuf_of_gt hb]
  rfl

theorem exec_st_of_too_wide (a : RegIdx) {addr len : BitVec 12} (s : State) (h1 : 1 ≤ len.toNat) (h2 : len.toNat ≤ 32)
    (hb : addr.toNat + len.toNat ≤ 4096) (hv : 2 ^ (8 * len.toNat) ≤ (s.getR a).toNat) :
    exec (.st a addr len) s = .next (s.raise .encoding) := by
  show execSt a addr len s = _
  rw [execSt, checkMoveLen_of_le h1 h2, checkBuf_of_le hb, decide_eq_false (Nat.not_lt_of_le hv)]
  rfl

/-- Settles O17: the value loaded is `be` of the region's bytes, at most 32 of them. -/
theorem ldLoadsBigEndian : Obligations.LdLoadsBigEndian := by
  intro d addr len s
  refine ⟨rfl, fun h => exec_of_not_wellFormed (i := .ld d addr len) (movesLegal_eq_false h) s,
    exec_ld_of_past_buf d s, fun h1 h2 hb => ⟨_, exec_ld d s h1 h2 hb, ?_⟩⟩
  have hlen : (s.readBuf addr.toNat len.toNat).length = len.toNat := s.length_readBuf ..
  rw [toNat_wordOf (hlen.trans_le h2)]
  exact ⟨(be_lt _).trans_eq (by rw [hlen]), s.holdsBytes_readBuf _ _⟩

/-- Settles O18: ST's one write is `be_LEN` of the register at ADDR. -/
theorem stStoresBigEndian : Obligations.StStoresBigEndian := by
  intro a addr len s
  refine ⟨rfl, fun h => exec_of_not_wellFormed (i := .st a addr len) (movesLegal_eq_false h) s,
    exec_st_of_past_buf a s, exec_st_of_too_wide a s,
    fun h1 h2 hb hv => ⟨_, exec_st a s h1 h2 hb hv, rfl, s.holdsBytes_writeBuf _ _ _, ?outside⟩⟩
  case outside =>
    have hout := s.sameOutside_writeBuf addr.toNat (beBytes len.toNat (s.getR a).toNat)
    rwa [length_beBytes] at hout

/-! ### CSRR and CSRW (R207, R208) -/

theorem toNat_zero_append {m n : Nat} (x : BitVec n) : (0#m ++ x).toNat = x.toNat := by
  simp [BitVec.toNat_append]

/-- One more bit below a word doubles the word's value and adds the bit. -/
theorem toNat_append_ofBool {n : Nat} (x : BitVec n) (b : Bool) : (x ++ BitVec.ofBool b).toNat = x.toNat * 2 + b.toNat :=
  BitVec.toNat_concat x b

/-- STATUS is the sum of its flags at bits 0 to 4 (10_state R42). -/
theorem State.toNat_statusWord (s : State) (busy : Bool) :
    (s.statusWord busy).toNat =
      busy.toNat + 2 * s.done.toNat + 4 * s.err.toNat + 8 * s.res.toNat + 16 * s.ovr.toNat := by
  simp only [State.statusWord, toNat_append_ofBool, BitVec.toNat_ofNat]
  omega

/-- CTRL is IE at bit 0 and WLOG2 above it (10_state R45). -/
theorem toNat_ctrlWord (wlog2 : BitVec 2) (ie : Bool) :
    (0#61 ++ wlog2 ++ BitVec.ofBool ie).toNat = ie.toNat + 2 * wlog2.toNat := by
  rw [toNat_append_ofBool, toNat_zero_append]
  omega

/-- CACHE is VALID at bit 0 and TWLOG2 above it, and 0 with no table (10_state R50). -/
theorem toNat_cacheWord (c : Option CacheSlot) :
    (cacheWord c).toNat = match c with | none => 0 | some c => 1 + 2 * c.twlog2.toNat := by
  cases c with
  | none => rfl
  | some c => exact toNat_ctrlWord c.twlog2 true

/-- CSRR of an assigned CSR writes the CSR's value (R207). -/
theorem exec_csrr (d : RegIdx) {csr : BitVec 16} (s : State) (h : csr.toNat ≤ 8) {v : Nat}
    (hv : (s.csrRead csr.toNat true).toNat = v) :
    exec (.csrr d csr) s = .next { s with r := s.r.set d (BitVec.ofNat 256 v), done := true } := by
  show execCsrr d csr s = _
  rw [execCsrr, checkCsr, decide_eq_true h, ← hv, BitVec.ofNat_toNat]
  rfl

/-- Settles O20: the value of each CSR is its word's value. -/
theorem csrrReadsTheRegister : Obligations.CsrrReadsTheRegister := by
  refine ⟨fun d s => ?values, fun d csr s => ⟨rfl, fun h => ?unassigned⟩, by decide⟩
  case unassigned => exact exec_of_not_wellFormed (i := .csrr d csr) (decide_eq_false (Nat.not_le_of_lt h)) s
  have reads {n : BitVec 16} {v : Nat} (h : n.toNat ≤ 8) (hv : (s.csrRead n.toNat true).toNat = v) := exec_csrr d s h hv
  exact ⟨reads (by decide) rfl,
    reads (by decide) (s.toNat_statusWord true),
    reads (by decide) (toNat_zero_append _),
    reads (by decide) rfl,
    reads (by decide) (toNat_ctrlWord s.wlog2 s.ie),
    reads (by decide) (toNat_zero_append _),
    reads (by decide) (toNat_zero_append _),
    reads (by decide) (toNat_zero_append _),
    reads (by decide) (toNat_cacheWord s.cache)⟩

/-- CSRW of a writable CSR writes the low 64 bits of the register to it (R208). -/
theorem exec_csrw (a : RegIdx) {csr : BitVec 16} (s : State) (h : csrWritable csr = true) :
    exec (.csrw a csr) s = .next (s.csrWrite csr.toNat ((s.getR a).setWidth 64)).markDone := by
  have hassigned : csr.toNat ≤ 8 := by
    simp only [csrWritable, Bool.or_eq_true, beq_iff_eq] at h
    omega
  have hwritable : checkCsrWritable csr = .ok () := congrArg (require · .illegal) h
  show execCsrw a csr s = _
  rw [execCsrw, checkCsr, decide_eq_true hassigned, hwritable]
  rfl

theorem getLsbD_setWidth_of_lt {n m i : Nat} (x : BitVec n) (h : i < m) : (x.setWidth m).getLsbD i = x.getLsbD i := by
  simp [h]

/-- Settles O21: STATUS, CTRL and RECID are the writable CSRs, and their fields lie in the low 64 bits of the register. -/
theorem csrwWritesTheRegister : Obligations.CsrwWritesTheRegister := by
  intro a csr s
  refine ⟨rfl, ?status, ?ctrl, ?recid, fun h1 h4 h5 => ?readOnly⟩
  case status =>
    rintro rfl
    have bit {i : Nat} (hi : i < 64) := getLsbD_setWidth_of_lt (s.getR a) hi
    rw [exec_csrw a s rfl, ← bit (i := 2) (by decide), ← bit (i := 3) (by decide), ← bit (i := 4) (by decide)]
    rfl
  case ctrl =>
    rintro rfl
    rw [exec_csrw a s rfl, ← getLsbD_setWidth_of_lt (m := 64) (s.getR a) (by decide),
      ← BitVec.extractLsb'_setWidth_of_le (b := s.getR a) (w' := 64) (by decide)]
    rfl
  case recid =>
    rintro rfl
    rw [exec_csrw a s rfl, ← BitVec.extractLsb'_setWidth_of_le (b := s.getR a) (w' := 64) (by decide)]
    rfl
  case readOnly =>
    have hne : csr.toNat ≠ 1 ∧ csr.toNat ≠ 4 ∧ csr.toNat ≠ 5 :=
      ⟨BitVec.toNat_ne.1 h1, BitVec.toNat_ne.1 h4, BitVec.toNat_ne.1 h5⟩
    exact exec_of_not_wellFormed (i := .csrw a csr) (csrWritable_eq_false hne) s

/-! ### Moves, constants and compares (R201 to R204, R209, R210) -/

/-- LDC of an index that has a constant (R203). -/
theorem exec_ldc (d : RegIdx) {k : BitVec 16} {v : Word} (s : State) (h : constant k.toNat = some v) :
    exec (.ldc d k) s = .next (s.setR d v).markDone := by
  show execLdc d k s = _
  rw [execLdc, h]
  rfl

/-- Settles O16: LDC writes what the table gives, which is compared with the listed numbers index by index. -/
theorem ldcLoadsTheConstant : Obligations.LdcLoadsTheConstant := by
  intro d k s
  refine ⟨rfl, fun h => exec_of_not_wellFormed (i := .ldc d k) (decide_eq_false (Nat.not_le_of_lt h)) s,
    fun v hv => exec_ldc d s ?_⟩
  exact (by decide : ∀ p ∈ (_ : List (Nat × Nat)), constant p.1 = some (BitVec.ofNat 256 p.2)) _ hv

/-- A word with opcode 0 and any other bit set fails the test of NOP's row (30_encoding R122, 40_move_control R201). -/
theorem decode_of_nop_opcode {w : Cmd} (hop : opcode w = 0x00) (hw : w ≠ 0) : decode w = .error (.nonzeroUnusedField "NOP") := by
  have hrow : rowOf 0x00 = some ⟨"NOP", 0x00#8, 0xFFFFFFFFFFFFFFFF#64, fun _ => .nop⟩ := rfl
  have htest : w &&& 0xFFFFFFFFFFFFFFFF#64 ≠ 0 := by
    rwa [show 0xFFFFFFFFFFFFFFFF#64 = BitVec.allOnes 64 from rfl, BitVec.and_allOnes]
  rw [decode, hop, hrow]
  exact if_neg htest

/-- Settles O15: the five commands have no check, so each ends with its one write; NOP's row tests every bit of the word. -/
theorem movesAndCompares : Obligations.MovesAndCompares := by
  refine ⟨⟨rfl, fun _ => rfl⟩, fun w s hop hw => executeStep_of_error (decode_of_nop_opcode hop hw) s,
    fun d imm16 s => ⟨rfl, ?ldi⟩, fun _ _ _ => ⟨rfl, rfl⟩, fun a b s => ⟨rfl, rfl⟩, fun a s => ⟨rfl, rfl⟩⟩
  case ldi => rw [BitVec.ofNat_toNat]; rfl

end Sys2Proof.Machine
end

section
/-! PROOFS. The field commands, PWEI and NINV (41_field R230 to R241, 42_curve R295, 43_scalar R325). -/

namespace Sys2Proof.Machine

/-! ### Sums, products and the like (R232 to R236, R241, R295) -/

/-- A value below m in the residue class of an integer z is z's representative in [0, m) (R230). -/
theorem eq_ofInt_emod {m : Nat} {v : Word} {z : Int} (hlt : v.toNat < m) (h : (v.toNat : ZMod m) = z) :
    v = BitVec.ofInt 256 (z % m) := by
  have hz : (v.toNat : Int) % m = z % m := (ZMod.intCast_eq_intCast_iff' _ _ m).1 (by rwa [Int.cast_natCast])
  rw [← hz, Int.emod_eq_of_lt (Int.natCast_nonneg _) (Int.ofNat_lt.2 hlt), BitVec.ofInt_natCast, BitVec.ofNat_toNat,
    BitVec.setWidth_eq]

/-- A command that ends with the write of a canonical value of z's residue class writes z mod P. -/
theorem next_setR_eq_of_residue (s : State) (d : RegIdx) {v : Word} {z : Int} (hlt : v.toNat < P) (h : residue v = z) :
    (.next (s.setR d v).markDone : Outcome) =
      .next { s with r := s.r.set d (BitVec.ofInt 256 (z % P)), done := true } := by
  rw [← eq_ofInt_emod hlt h]; rfl

/-- Settles O22: each command has no check and writes a canonical value, whose residue class is that of the integer. -/
theorem fieldArithmeticModP : Obligations.FieldArithmeticModP := by
  intro d a b s x y writes
  refine ⟨⟨rfl, rfl, rfl, rfl, rfl, rfl, rfl⟩, ?fadd, ?fsub, ?fmul, ?fsqr, ?fneg, ?fred, ?pwei⟩
  case fadd => exact next_setR_eq_of_residue s d (fAdd_lt _ _) (by rw [residue_fAdd]; simp [x, y])
  case fsub => exact next_setR_eq_of_residue s d (fSub_lt _ _) (by rw [residue_fSub]; simp [x, y])
  case fmul => exact next_setR_eq_of_residue s d (fMul_lt _ _) (by rw [residue_fMul]; simp [x, y])
  case fsqr => exact next_setR_eq_of_residue s d (fMul_lt _ _) (by rw [residue_fSqr]; simp [x])
  case fneg => exact next_setR_eq_of_residue s d (fNeg_lt _) (by rw [residue_fNeg]; simp [x])
  case fred => exact next_setR_eq_of_residue s d (modP_lt _) (by rw [residue_modP]; simp [x])
  case pwei => exact next_setR_eq_of_residue s d (fAdd_lt _ _) (by rw [residue_weierstrass]; simp [x])

/-! ### Powers and square roots (R237, R239) -/

/-- Settles O23: the loop's value is the power, and a register's value is below 2^256. -/
theorem fpowRaisesToTheRawExponent : Obligations.FpowRaisesToTheRawExponent :=
  fun _ a b s => ⟨rfl, _, rfl, fPow_toNat (s.getR a) _ (s.getR b).isLt⟩

/-- RES of FSQRT (R239): the square of x is a mod P. -/
theorem isRoot_eq_decide {x : Word} (hx : x.toNat < P) (a : Word) :
    isRoot x a = decide (x.toNat * x.toNat % P = a.toNat % P) := by
  have hsq : (fSqr x).toNat = x.toNat * x.toNat % P := by rw [fSqr, fMul_toNat, F_of_lt hx]
  rw [isRoot, beq_eq_decide, decide_eq_decide, ← BitVec.toNat_inj, hsq, modP_toNat, F, Nat.mod_mod]

/-- Settles O25: the exponent (P+1)/4 is fixed, and RES compares the root's square with the value. -/
theorem fsqrtWritesTheRootAndRes : Obligations.FsqrtWritesTheRootAndRes := by
  intro d a s
  refine ⟨rfl, fSqrt (s.getR a), fPow_toNat (s.getR a) _ (by decide), ?_⟩
  rw [← isRoot_eq_decide (x := fSqrt (s.getR a)) (fPow_lt _ _)]
  rfl

/-! ### Inverses (R238, R325) -/

theorem pos_of_mul_mod_eq_one {a v m : Nat} (h : a * v % m = 1) : 1 ≤ v := by
  refine Nat.pos_of_ne_zero fun hv => ?_
  simp [hv] at h

theorem gcd_mod_ne_one_of_mod_eq_zero {a m : Nat} (hm : 1 < m) (h : a % m = 0) : Nat.gcd (a % m) m ≠ 1 := by
  rw [h, Nat.gcd_zero_left]; exact hm.ne'

/-- FINV of a value coprime to P (R238). -/
theorem exec_finv (d : RegIdx) {a : RegIdx} {s : State} (h : Nat.gcd (F (s.getR a)) P = 1) :
    exec (.finv d a) s = .next (s.setR d (fInv (s.getR a))).markDone := by
  show execFinv d a s = _
  rw [execFinv, fInvChecked, if_pos h]
  rfl

theorem exec_finv_of_not_coprime (d : RegIdx) {a : RegIdx} {s : State} (h : Nat.gcd (F (s.getR a)) P ≠ 1) :
    exec (.finv d a) s = .next (s.raise .noInv) := by
  show execFinv d a s = _
  rw [execFinv, fInvChecked, if_neg h]
  rfl

/-- NINV of a value coprime to n (43_scalar R325). -/
theorem exec_ninv (d : RegIdx) {a : RegIdx} {s : State} (h : Nat.gcd (Nn (s.getR a)) N = 1) :
    exec (.ninv d a) s = .next (s.setR d (modN (nInv (Nn (s.getR a))))).markDone := by
  show execNinv d a s = _
  rw [execNinv, h]
  rfl

theorem exec_ninv_of_not_coprime (d : RegIdx) {a : RegIdx} {s : State} (h : Nat.gcd (Nn (s.getR a)) N ≠ 1) :
    exec (.ninv d a) s = .next (s.raise .noInv) :=
  complete_require_false (beq_false_of_ne h) ..

/-- NINV's value is the inverse (43_scalar R325). -/
theorem modN_nInv_spec {v : Word} (h : Nat.gcd (Nn v) N = 1) : v.toNat * (modN (nInv (Nn v))).toNat % N = 1 := by
  obtain ⟨hlt, hinv⟩ := nInv_spec (Nn v) (by rwa [Nn, Nat.mod_mod])
  rw [modN_toNat, Nat.mod_eq_of_lt hlt, ← Nat.mod_mul_mod]
  exact hinv

/-- Settles O24: the Euclidean algorithm gives the inverse of a value coprime to the modulus, and 0 is not coprime to it. -/
theorem inversesModPAndN : Obligations.InversesModPAndN := by
  intro d a s
  refine ⟨⟨rfl, rfl⟩, fun h => ⟨_, exec_finv d h, ?finvValue⟩, exec_finv_of_not_coprime d,
    fun h0 => exec_finv_of_not_coprime d (gcd_mod_ne_one_of_mod_eq_zero P_gt_one h0),
    fun h => ⟨_, exec_ninv d h, ?ninvValue⟩, exec_ninv_of_not_coprime d,
    fun h0 => exec_ninv_of_not_coprime d (gcd_mod_ne_one_of_mod_eq_zero N_gt_one h0)⟩
  case finvValue =>
    have hinv : (s.getR a).toNat * (fInv (s.getR a)).toNat % P = 1 := by
      rw [← Nat.mod_mul_mod]; exact fInv_spec _ h
    exact ⟨pos_of_mul_mod_eq_one hinv, fInv_lt _, hinv⟩
  case ninvValue =>
    have hinv := modN_nInv_spec h
    exact ⟨pos_of_mul_mod_eq_one hinv, (modN_toNat _).trans_lt (Nat.mod_lt _ N_pos), hinv⟩

/-! ### Batch inversion (R240) -/

/-- FBINV of 1 to 16 elements. -/
theorem exec_fbinv (d a : RegIdx) {cnt : BitVec 5} (s : State) (h1 : 1 ≤ cnt.toNat) (h2 : cnt.toNat ≤ 16) :
    exec (.fbinv d a cnt) s = .next (s.setRegs d (batchInv (s.getRegs a cnt.toNat))).markDone := by
  have hcount : checkCount cnt = .ok () := congrArg (require · .illegal) (decide_eq_true ⟨h1, h2⟩)
  show execFbinv d a cnt s = _
  rw [execFbinv, hcount]
  rfl

theorem State.getD_getRegs (s : State) (i : RegIdx) {k m : Nat} (hm : m < k) :
    (s.getRegs i k).getD m 0 = s.getR (i + Fin.ofNat 16 m) := by
  simp [State.getRegs, hm]

/-- Settles O26: the sources are read as one list, inverted element by element, and written from rD on. -/
theorem fbinvInvertsEachElement : Obligations.FbinvInvertsEachElement := by
  intro d a cnt s
  have hlen : (batchInv (s.getRegs a cnt.toNat)).length = cnt.toNat := by rw [length_batchInv, length_getRegs]
  refine ⟨?encoding, fun h => exec_of_not_wellFormed (i := .fbinv d a cnt) (decide_eq_false (by omega)) s,
    fun h1 h2 => ⟨_, exec_fbinv d a s h1 h2, ?frame, fun j hj => ?others, fun hsrc m hm => ?values⟩⟩
  case encoding => rw [BitVec.setWidth_eq_append (by decide : 5 ≤ 16)]; rfl
  case frame => rw [State.setRegs_frame]; rfl
  case others => exact s.getR_setRegs_of_ne d j _ fun m hm e => hj (e ▸ StagedBy.mem_indices d (hlen ▸ hm))
  case values =>
    have hwritten : (s.setRegs d (batchInv (s.getRegs a cnt.toNat))).markDone.getR (d + Fin.ofNat 16 m) =
        (batchInv (s.getRegs a cnt.toNat)).getD m 0 := by
      rw [List.getD_eq_getElem _ _ (hlen.symm ▸ hm)]
      exact s.getR_setRegs d _ (hlen.trans_le h2) m _
    have hcoprime : ∀ v ∈ s.getRegs a cnt.toNat, F v = 0 ∨ Nat.gcd (F v) P = 1 := by
      intro v hv
      obtain ⟨k, hk, rfl⟩ := List.mem_map.1 hv
      exact hsrc k (List.mem_range.1 hk)
    have hspec := batchInv_spec _ hcoprime m (by rwa [length_getRegs])
    rw [← hwritten, s.getD_getRegs a hm, F, Nat.mod_mul_mod] at hspec
    exact hspec

end Sys2Proof.Machine
end

section
/-! PROOFS. The point commands of 42_curve but the multiplications, and lift (R270 to R294). -/

namespace Sys2Proof.Machine

/-! ### Register values and their residue classes (41_field R230) -/

theorem residue_ofNat (k : Nat) : residue (BitVec.ofNat 256 k) = (k % 2 ^ 256 : Nat) := by rw [residue, BitVec.toNat_ofNat]

/-- A value below P in the residue class of a number is the number mod P. -/
theorem toNat_eq_mod_of_residue {v : Word} {k : Nat} (hlt : v.toNat < P) (h : residue v = (k : ZMod P)) : v.toNat = k % P := by
  rw [← Nat.mod_eq_of_lt hlt]
  exact (residue_eq_iff _ _).1 h

theorem eq_zero_iff_residue {v : Word} (hlt : v.toNat < P) : v = 0 ↔ residue v = 0 :=
  ⟨fun h => by rw [h]; rfl, fun h => eq_of_residue hlt P_pos (h.trans Nat.cast_zero.symm)⟩

theorem fMul_eq_ofNat (a b : Word) : fMul a b = BitVec.ofNat 256 (a.toNat * b.toNat % P) := by
  rw [fMul, modP, F, F, ← Nat.mul_mod]

theorem fMul_eq_fMul_iff (a b c d : Word) : fMul a b = fMul c d ↔ residue a * residue b = residue c * residue d := by
  rw [← residue_fMul, ← residue_fMul]
  exact ⟨congrArg residue, eq_of_residue (fMul_lt _ _) (fMul_lt _ _)⟩

theorem residue_mul_fInv {v : Word} (h : Nat.gcd (F v) P = 1) : residue v * residue (fInv v) = 1 := by
  rw [residue_mul_eq_one_iff, ← Nat.mod_mul_mod]
  exact fInv_spec v h

/-- Inverses mod P are unique below P. -/
theorem eq_fInv {v w : Word} (h : Nat.gcd (F v) P = 1) (hlt : w.toNat < P) (hw : residue v * residue w = 1) : w = fInv v := by
  refine eq_of_residue hlt (fInv_lt v) (left_inv_eq_right_inv ?_ (residue_mul_fInv h))
  rw [mul_comm, hw]

/-! ### Moves of points (R280, R281, R283 to R287) -/

theorem checkCoord_bind {α : Type} (v : Word) (f : Unit → Except Err α) :
    (checkCoord v >>= f) = if v.toNat < P then f () else .error .point := by
  rw [checkCoord, require_bind]
  simp

/-- `fromAff` by coordinates (R270). -/
theorem fromAff_mk (x y : Word) : fromAff ⟨x, y⟩ = if x = 0 ∧ y = 0 then ⟨0, 1, 0⟩ else ⟨x, y, 1⟩ := by
  simp only [fromAff, AffPoint.mk.injEq, zeroJ]

/-- PSET with its checks (R280). -/
theorem exec_pset (d : PtIdx) (x y : RegIdx) (s : State) :
    exec (.pset d x y) s = .next (if (s.getR x).toNat < P ∧ (s.getR y).toNat < P then
      (s.setQ d (fromAff ⟨s.getR x, s.getR y⟩)).markDone else s.raise .point) := by
  show execPset d x y s = _
  rw [execPset, checkCoord_bind, checkCoord_bind, ite_and]
  split_ifs <;> rfl

/-- PSETJ with its checks (R281). -/
theorem exec_psetj (d : PtIdx) (x y z : RegIdx) (s : State) :
    exec (.psetj d x y z) s = .next (if (s.getR x).toNat < P ∧ (s.getR y).toNat < P ∧ (s.getR z).toNat < P then
      (s.setQ d ⟨s.getR x, s.getR y, s.getR z⟩).markDone else s.raise .point) := by
  show execPsetj d x y z s = _
  rw [execPsetj, checkCoord_bind, checkCoord_bind, checkCoord_bind, ite_and, ite_and]
  split_ifs <;> rfl

theorem neg_eq (t : Point) : neg t = ⟨t.x, BitVec.ofInt 256 (((P : Int) - t.y.toNat) % P), t.z⟩ := by
  have hres : residue (fNeg t.y) = ((P : Int) - t.y.toNat : Int) := by rw [residue_fNeg]; simp
  rw [neg, eq_ofInt_emod (fNeg_lt t.y) hres]

/-- Three registers in a row, as PGETJ writes them (R283). -/
theorem State.setRegs_three (s : State) (i : RegIdx) (x y z : Word) :
    s.setRegs i [x, y, z] = ((s.setR i x).setR (i + 1) y).setR (i + 2) z := by
  have hi : i + 1 + 1 = i + 2 := add_assoc i 1 1
  rw [← hi]; rfl

/-- Settles O30: PSET and PSETJ test each coordinate, the other commands have no check. -/
theorem pointMoves : Obligations.PointMoves := by
  intro d a rd x y z s
  refine ⟨fun h => ?psetError, fun hx hy => ?pset, fun h => ?psetjError, fun hx hy hz => ?psetj, ?pgetj, rfl, rfl, rfl, ?pneg⟩
  case psetError => rw [exec_pset, if_neg (by omega)]
  case pset => rw [exec_pset, if_pos ⟨hx, hy⟩, fromAff_mk]; rfl
  case psetjError => rw [exec_psetj, if_neg (by omega)]
  case psetj => rw [exec_psetj, if_pos ⟨hx, hy, hz⟩]; rfl
  case pgetj => exact congrArg (fun t : State => (.next t.markDone : Outcome)) (s.setRegs_three rd ..)
  case pneg => rw [← neg_eq]; rfl

/-! ### Affine coordinates (R274, R282) -/

theorem aff_of_z_eq_zero {t : Point} (h : t.z = 0) : aff t = ⟨0, 0⟩ := if_pos h

theorem aff_of_z_ne_zero {t : Point} (h : t.z ≠ 0) :
    aff t = ⟨fMul t.x (fSqr (fInv t.z)), fMul t.y (fMul (fSqr (fInv t.z)) (fInv t.z))⟩ := if_neg h

theorem ne_zero_of_coprime {v : Word} (h : Nat.gcd (F v) P = 1) : v ≠ 0 := by
  rintro rfl
  exact gcd_mod_ne_one_of_mod_eq_zero P_gt_one (Nat.zero_mod P) h

/-- What defines the affine coordinates in Z/P: x·Z^2 = X and y·Z^3 = Y. -/
theorem residue_aff {t : Point} (h : Nat.gcd (F t.z) P = 1) :
    residue (aff t).x * residue t.z ^ 2 = residue t.x ∧ residue (aff t).y * residue t.z ^ 3 = residue t.y := by
  have hinv := residue_mul_fInv h
  rw [aff_of_z_ne_zero (ne_zero_of_coprime h)]
  simp only [residue_fMul, residue_fSqr]
  generalize residue (fInv t.z) = zi at hinv ⊢
  constructor
  · calc residue t.x * zi ^ 2 * residue t.z ^ 2 = residue t.x * (residue t.z * zi) ^ 2 := by ring
      _ = residue t.x := by rw [hinv, one_pow, mul_one]
  · calc residue t.y * (zi ^ 2 * zi) * residue t.z ^ 3 = residue t.y * (residue t.z * zi) ^ 3 := by ring
      _ = residue t.y := by rw [hinv, one_pow, mul_one]

/-- Settles O31: with the inverse of Z, the products with Z^2 and Z^3 give X and Y back. -/
theorem pgetWritesTheAffineCoordinates : Obligations.PgetWritesTheAffineCoordinates := by
  intro d a s
  refine ⟨(aff (s.getQ a)).x, (aff (s.getQ a)).y, rfl, rfl, fun hz => ?identity, fun hz => ?coordinates⟩
  case identity => rw [aff_of_z_eq_zero hz]; exact ⟨rfl, rfl⟩
  case coordinates =>
    obtain ⟨hxlt, hylt⟩ := aff_lt (s.getQ a)
    obtain ⟨hx, hy⟩ := residue_aff hz
    exact ⟨hxlt, hylt, (residue_eq_iff _ _).1 (by push_cast; exact hx), (residue_eq_iff _ _).1 (by push_cast; exact hy)⟩

/-! ### Doubling and addition (R271, R272) -/

theorem residue_two : residue 2 = 2 := residue_ofNat 2

theorem residue_three : residue 3 = 3 := residue_ofNat 3

theorem residue_eight : residue 8 = 8 := residue_ofNat 8

/-- Settles O32: each operation of the formula is the one of Z/P, and its last ones give values below P. -/
theorem pdblWritesTheDoublingFormula : Obligations.PdblWritesTheDoublingFormula := by
  intro d a s
  refine ⟨dbl (s.getQ a), rfl, dbl_canonical _, ?_⟩
  simp only [dbl, residue_fSub, residue_fMul, residue_fSqr, residue_fAdd, residue_two, residue_three, residue_eight,
    and_self]

/-- R272's H: the difference of the cross-multiplied X. -/
def addH (t u : Point) : Word := fSub (fMul u.x (fSqr t.z)) (fMul t.x (fSqr u.z))

/-- R272's r: the difference of the cross-multiplied Y. -/
def addR (t u : Point) : Word := fSub (fMul (fMul u.y t.z) (fSqr t.z)) (fMul (fMul t.y u.z) (fSqr u.z))

theorem residue_addH (t u : Point) :
    residue (addH t u) = residue u.x * residue t.z ^ 2 - residue t.x * residue u.z ^ 2 := by
  simp only [addH, residue_fSub, residue_fMul, residue_fSqr]

theorem residue_addR (t u : Point) :
    residue (addR t u) = residue u.y * residue t.z ^ 3 - residue t.y * residue u.z ^ 3 := by
  simp only [addR, residue_fSub, residue_fMul, residue_fSqr]
  ring

theorem addH_eq_zero_iff (t u : Point) :
    addH t u = 0 ↔ residue u.x * residue t.z ^ 2 - residue t.x * residue u.z ^ 2 = 0 := by
  rw [← residue_addH]; exact eq_zero_iff_residue (fSub_lt _ _)

theorem addR_eq_zero_iff (t u : Point) :
    addR t u = 0 ↔ residue u.y * residue t.z ^ 3 - residue t.y * residue u.z ^ 3 = 0 := by
  rw [← residue_addR]; exact eq_zero_iff_residue (fSub_lt _ _)

section
variable {t u : Point} (ht : t.z ≠ 0) (hu : u.z ≠ 0)
include ht hu

theorem add_of_equal (hh : addH t u = 0) (hr : addR t u = 0) : add t u = dbl t :=
  (if_neg ht).trans ((if_neg hu).trans ((if_pos hh).trans (if_pos hr)))

theorem add_of_opposite (hh : addH t u = 0) (hr : addR t u ≠ 0) : add t u = zeroJ :=
  (if_neg ht).trans ((if_neg hu).trans ((if_pos hh).trans (if_neg hr)))

/-- The general case of R272, in terms of H and r. -/
theorem add_of_distinct (hh : addH t u ≠ 0) :
    let v := fMul (fMul t.x (fSqr u.z)) (fSqr (addH t u))
    let hhh := fMul (addH t u) (fSqr (addH t u))
    let x3 := fSub (fSub (fSqr (addR t u)) hhh) (fMul 2 v)
    add t u = ⟨x3, fSub (fMul (addR t u) (fSub v x3)) (fMul (fMul (fMul t.y u.z) (fSqr u.z)) hhh),
      fMul (fMul t.z u.z) (addH t u)⟩ :=
  (if_neg ht).trans ((if_neg hu).trans (if_neg hh))

end

/-- Settles O33: R272's two tests for 0 are tests for 0 in Z/P, and its general case computes in Z/P. -/
theorem paddWritesTheAdditionFormula : Obligations.PaddWritesTheAdditionFormula := by
  intro d a b s
  refine ⟨add (s.getQ a) (s.getQ b), rfl, fun ht => add_of_left_zero ht _, add_of_right_zero, fun ht hu => ?_⟩
  have hH := addH_eq_zero_iff (s.getQ a) (s.getQ b)
  have hR := addR_eq_zero_iff (s.getQ a) (s.getQ b)
  refine ⟨fun hh hr => add_of_equal ht hu (hH.2 hh) (hR.2 hr),
    fun hh hr => add_of_opposite ht hu (hH.2 hh) (mt hR.1 hr), fun hh => ?general⟩
  case general =>
    rw [add_of_distinct ht hu (mt hH.1 hh)]
    refine ⟨⟨fSub_lt _ _, fSub_lt _ _, fMul_lt _ _⟩, ?_⟩
    simp only [residue_fSub, residue_fMul, residue_fSqr, residue_two, residue_addH, residue_addR]
    refine ⟨?x, ?y, trivial⟩ <;> ring

/-! ### Predicates (R273, R275, R290, R291) -/

theorem ptEq_eq_decide (t u : Point) :
    ptEq t u = decide (t.x.toNat * u.z.toNat ^ 2 % P = u.x.toNat * t.z.toNat ^ 2 % P ∧
      t.y.toNat * u.z.toNat ^ 3 % P = u.y.toNat * t.z.toNat ^ 3 % P) := by
  rw [ptEq, beq_eq_decide, beq_eq_decide, ← Bool.decide_and, decide_eq_decide, fMul_eq_fMul_iff, fMul_eq_fMul_iff,
    ← residue_eq_iff, ← residue_eq_iff]
  simp only [residue_fMul, residue_fSqr, ← pow_succ, Nat.cast_mul, Nat.cast_pow]

theorem toNat_fSqr (y : Word) : (fSqr y).toNat = y.toNat ^ 2 % P :=
  toNat_eq_mod_of_residue (fMul_lt _ _) (by rw [residue_fSqr]; push_cast; rfl)

theorem toNat_weierstrass (x : Word) : (weierstrass x).toNat = (x.toNat ^ 3 + 7) % P :=
  toNat_eq_mod_of_residue (fAdd_lt _ _) (by rw [residue_weierstrass]; push_cast; rfl)

/-- R275's test of an affine point on integers. -/
theorem valid_iff (a : AffPoint) :
    valid a = true ↔ 0 < a.x.toNat ∧ a.x.toNat < P ∧ 0 < a.y.toNat ∧ a.y.toNat < P ∧
      a.y.toNat ^ 2 % P = (a.x.toNat ^ 3 + 7) % P := by
  rw [valid, Bool.and_eq_true, decide_eq_true_iff, beq_iff_eq, ← BitVec.toNat_inj, toNat_fSqr, toNat_weierstrass]
  simp only [and_assoc]

/-- PCHK with its check (R291). -/
theorem exec_pchk (a : PtIdx) (s : State) :
    exec (.pchk a) s = .next (if valid (aff (s.getQ a)) = true then s.markDone else s.raise .point) := by
  show execPchk a s = _
  rw [execPchk, assertValid_eq]
  split_ifs <;> rfl

/-- Settles O34: both commands test what the integers say, and PCHK stages no write. -/
theorem pointPredicates : Obligations.PointPredicates := by
  intro a b s
  refine ⟨⟨rfl, rfl⟩, ?peq, ?pchk⟩
  case peq => rw [← ptEq_eq_decide]; rfl
  case pchk => rw [exec_pchk]; simp only [valid_iff]; rfl

/-! ### Normalisation (R270, R292, R293) -/

/-- Batch inversion gives each element that is coprime to P its inverse (41_field R240). -/
theorem batchInv_getElem {vs : List Word} (h : ∀ v ∈ vs, F v = 0 ∨ Nat.gcd (F v) P = 1) {i : Nat} (hi : i < vs.length)
    (hv : Nat.gcd (F vs[i]) P = 1) : (batchInv vs)[i]'(by rwa [length_batchInv]) = fInv vs[i] := by
  have hne : F vs[i] ≠ 0 := fun h0 => gcd_mod_ne_one_of_mod_eq_zero P_gt_one h0 hv
  have hspec := (batchInv_spec vs h i hi).2
  rw [List.getD_eq_getElem _ _ hi, List.getD_eq_getElem _ _ (by rwa [length_batchInv])] at hspec
  obtain ⟨hlt, hmul⟩ := hspec hne
  refine eq_fInv hv hlt ?_
  rwa [residue_mul_eq_one_iff, ← Nat.mod_mul_mod]

/-- Batch normalisation normalises each triple (R293). -/
theorem batchNorm_eq_map_norm {ts : List Point} (h : ∀ t ∈ ts, t.z = 0 ∨ Nat.gcd (F t.z) P = 1) :
    batchNorm ts = ts.map norm := by
  have hzs : ∀ v ∈ ts.map Point.z, F v = 0 ∨ Nat.gcd (F v) P = 1 := by
    intro v hv
    obtain ⟨t, ht, rfl⟩ := List.mem_map.1 hv
    exact (h t ht).imp_left fun h0 => by rw [h0]; rfl
  refine List.ext_getElem (by simp [batchNorm]) fun i _ hi => ?_
  rw [List.length_map] at hi
  simp only [batchNorm, List.getElem_zipWith, List.getElem_map]
  by_cases hz : ts[i].z = 0
  · rw [if_pos hz, norm_of_zero hz]
  · have hlen : i < (ts.map Point.z).length := by rwa [List.length_map]
    have hg : Nat.gcd (F (ts.map Point.z)[i]) P = 1 := by
      rw [List.getElem_map]; exact (h _ (List.getElem_mem hi)).resolve_left hz
    rw [if_neg hz, batchInv_getElem hzs hlen hg, List.getElem_map, norm, aff_of_z_ne_zero hz]

/-- PAFFB of 1 to 16 points. -/
theorem exec_paffb (d a : PtIdx) {cnt : BitVec 5} (s : State) (h1 : 1 ≤ cnt.toNat) (h2 : cnt.toNat ≤ 16) :
    exec (.paffb d a cnt) s = .next (s.setPts d (batchNorm (s.getPts a cnt.toNat))).markDone := by
  have hcount : checkCount cnt = .ok () := congrArg (require · .illegal) (decide_eq_true ⟨h1, h2⟩)
  show execPaffb d a cnt s = _
  rw [execPaffb, hcount]
  rfl

/-- Settles O35: the sources are read as one list, normalised triple by triple, and written from QD on. -/
theorem normalisationOneByOneAndInBatches : Obligations.NormalisationOneByOneAndInBatches := by
  refine ⟨fun d a s => rfl, fun d a cnt s => ?_⟩
  have hlen := length_batchNorm_getPts s a cnt.toNat
  refine ⟨fun h => exec_of_not_wellFormed (i := .paffb d a cnt) (decide_eq_false (by omega)) s,
    fun h1 h2 => ⟨_, exec_paffb d a s h1 h2, ?frame, fun j hj => ?others, fun hsrc m hm => ?values⟩⟩
  case frame => rw [State.setPts_frame]; rfl
  case others => exact s.getQ_setPts_of_ne d j _ fun m hm e => hj (e ▸ StagedBy.mem_indices d (hlen ▸ hm))
  case values =>
    have hnorm : batchNorm (s.getPts a cnt.toNat) = (s.getPts a cnt.toNat).map norm := by
      refine batchNorm_eq_map_norm fun t ht => ?_
      obtain ⟨k, hk, rfl⟩ := List.mem_map.1 ht
      exact hsrc k (List.mem_range.1 hk)
    have hwritten : (s.setPts d (batchNorm (s.getPts a cnt.toNat))).markDone.getQ (d + Fin.ofNat 16 m) =
        norm (s.getQ (a + Fin.ofNat 16 m)) := by
      refine (s.getQ_setPts d _ (hlen.trans_le h2) m (hlen.symm ▸ hm)).trans ((List.getElem_of_eq hnorm _).trans ?_)
      simp only [State.getPts, List.getElem_map, List.getElem_range]
    rw [hwritten]
    rfl

/-! ### The endomorphism (R277, R294) -/

theorem endo_eq (t : Point) : endo t = ⟨BitVec.ofNat 256 (beta.toNat * t.x.toNat % P), t.y, t.z⟩ := by
  rw [endo, fMul_eq_ofNat]

/-- beta is a cube root of 1 mod P (10_state R48). -/
theorem residue_beta_cubed : residue beta ^ 3 = 1 := by
  have h : beta.toNat ^ 3 % P = 1 % P := by decide +kernel
  have hcast := (residue_eq_iff _ _).2 h
  rwa [Nat.cast_pow, Nat.cast_one] at hcast

theorem endo_endo_endo {t : Point} (h : t.x.toNat < P) : endo (endo (endo t)) = t := by
  have hx : fMul beta (fMul beta (fMul beta t.x)) = t.x := by
    refine eq_of_residue (fMul_lt _ _) h ?_
    calc residue (fMul beta (fMul beta (fMul beta t.x))) = residue beta ^ 3 * residue t.x := by
          simp only [residue_fMul]; ring
      _ = residue t.x := by rw [residue_beta_cubed, one_mul]
  simp only [endo, hx]

theorem State.setQ_setQ (s : State) (i : PtIdx) (p p' : Point) : (s.setQ i p).setQ i p' = s.setQ i p' := by
  simp [State.setQ]

/-- PENDO of a point register onto itself, after a write of that register. -/
theorem exec_pendo_setQ (d : PtIdx) (p : Point) (s : State) :
    exec (.pendo d d) (s.setQ d p).markDone = .next (s.setQ d (endo p)).markDone := by
  show (.next ((s.setQ d p).setQ d (endo ((s.setQ d p).getQ d))).markDone : Outcome) = _
  rw [State.getQ_setQ_same, State.setQ_setQ]

/-- Settles O36: three applications multiply X by beta^3 = 1. -/
theorem pendoHasOrderThree : Obligations.PendoHasOrderThree := by
  intro d a s
  refine ⟨rfl, by rw [← endo_eq]; rfl, fun hx => ⟨_, _, rfl, exec_pendo_setQ d (endo (s.getQ a)) s, ?thrice⟩⟩
  case thrice =>
    rw [exec_pendo_setQ, endo_endo_endo hx]
    rfl

/-! ### Lifting an x coordinate (R276) -/

theorem lift_of_out_of_range {x : Word} (par : Nat) (h : ¬(0 < x.toNat ∧ x.toNat < P)) : lift x par = .error .point := if_neg h

theorem lift_of_not_root {x : Word} (par : Nat) (h : 0 < x.toNat ∧ x.toNat < P)
    (hroot : fSqr (fSqrt (weierstrass x)) ≠ weierstrass x) : lift x par = .error .point :=
  (if_pos h).trans (if_neg hroot)

theorem lift_of_root {x : Word} (par : Nat) (h : 0 < x.toNat ∧ x.toNat < P)
    (hroot : fSqr (fSqrt (weierstrass x)) = weierstrass x) :
    lift x par = .ok ⟨x, if (fSqrt (weierstrass x)).toNat % 2 = par then fSqrt (weierstrass x)
      else fNeg (fSqrt (weierstrass x))⟩ :=
  (if_pos h).trans (if_pos hroot)

/-- Settles O41: the root lift finds is the power y, and its test y^2 = c is the one on integers. -/
theorem liftFindsThePointOfAnX : Obligations.LiftFindsThePointOfAnX := by
  intro x par c y _ hc hy
  have hcx : (weierstrass x).toNat = c := by rw [toNat_weierstrass, hc]
  have hyx : (fSqrt (weierstrass x)).toNat = y := by rw [hy, ← hcx]; exact fPow_toNat _ _ (by decide)
  have hroot : fSqr (fSqrt (weierstrass x)) = weierstrass x ↔ y ^ 2 % P = c := by
    rw [← BitVec.toNat_inj, toNat_fSqr, hyx, hcx]
  refine ⟨fun h => lift_of_out_of_range par (by omega), fun h0 hP h => lift_of_not_root par ⟨h0, hP⟩ (mt hroot.1 h),
    fun h0 hP h => ?_⟩
  have hneg : (fNeg (fSqrt (weierstrass x))).toNat = (P - y) % P := by
    rw [fNeg_toNat, fSqrt, F_of_lt (fPow_lt _ _), ← fSqrt, hyx]
  rw [lift_of_root par ⟨h0, hP⟩ (hroot.2 h), ← hneg, ← hyx, ← apply_ite BitVec.toNat, BitVec.ofNat_toNat, BitVec.setWidth_eq]

end Sys2Proof.Machine
end

section
/-! PROOFS. The scalar commands of 43_scalar but the multiplications, and the low-S commands (43_scalar R320 to R329, 44_codec R382, R383). -/

namespace Sys2Proof.Machine

/-! ### Sums, products and the like (R321 to R324, R326) -/

theorem Nn_lt (v : Word) : Nn v < N := Nat.mod_lt _ N_pos

@[simp] theorem natCast_Nn (v : Word) : ((Nn v : Nat) : ZMod N) = v.toNat := by rw [Nn, ZMod.natCast_mod]

/-- A command that ends with the write of a number of z's residue class, reduced mod n, writes z mod n. -/
theorem next_setR_modN (s : State) (d : RegIdx) {k : Nat} {z : Int} (h : (k : ZMod N) = z) :
    (.next (s.setR d (modN k)).markDone : Outcome) =
      .next { s with r := s.r.set d (BitVec.ofInt 256 (z % N)), done := true } := by
  have hlt : (modN k).toNat < N := (modN_toNat k).trans_lt (Nat.mod_lt _ N_pos)
  have hres : ((modN k).toNat : ZMod N) = z := by rw [modN_toNat, ZMod.natCast_mod, h]
  rw [← eq_ofInt_emod hlt hres]; rfl

/-- Settles O27: each command has no check and writes a number reduced mod n, whose residue class is that of the integer. -/
theorem scalarArithmeticModN : Obligations.ScalarArithmeticModN := by
  intro d a b s x y writes
  have hneg (v : Word) : ((N - Nn v : Nat) : ZMod N) = -(v.toNat : ZMod N) := by
    rw [Nat.cast_sub (Nn_lt v).le]; simp
  refine ⟨⟨rfl, rfl, rfl, rfl, rfl⟩, ?nadd, ?nsub, ?nmul, ?nneg, ?nred⟩
  case nadd => exact next_setR_modN s d (by simp [x, y])
  case nsub => exact next_setR_modN s d (by rw [Nat.cast_add, hneg]; simp [x, y, sub_eq_add_neg])
  case nmul => exact next_setR_modN s d (by simp [x, y])
  case nneg => exact next_setR_modN s d (by rw [hneg]; simp [x])
  case nred => exact next_setR_modN s d (by simp [x])

/-! ### The check of a scalar (R327) -/

/-- A command whose first check is that of a scalar, for a value outside (0, n). -/
theorem complete_checkScalar_of_out {v : Word} (h : v.toNat = 0 ∨ N ≤ v.toNat) (s : State) (f : Unit → Except Err State) :
    complete s (checkScalar v >>= f) = .next (s.raise .range) := by
  rw [checkScalar_bind, if_neg (by omega)]; rfl

/-- The same for a scalar in (0, n): the rest of the command follows. -/
theorem complete_checkScalar_of_range {v : Word} (h0 : 0 < v.toNat) (hN : v.toNat < N) (s : State)
    (f : Unit → Except Err State) : complete s (checkScalar v >>= f) = complete s (f ()) := by
  rw [checkScalar_bind, if_pos ⟨h0, hN⟩]

theorem isHigh_eq_decide (v : Word) : isHigh v = decide (N / 2 < v.toNat) := by rw [isHigh, halfN_eq]

/-- SNORM of a scalar in (0, n) (44_codec R383). -/
theorem exec_snorm (d a : RegIdx) (flip : Bool) (s : State) (h0 : 0 < (s.getR a).toNat) (hN : (s.getR a).toNat < N) :
    exec (.snorm d a flip) s = complete s (if isHigh (s.getR a) then
        .ok { (s.setR d (BitVec.ofNat 256 (N - (s.getR a).toNat))).setRes true with
          recid := if flip then s.recid ^^^ 1 else s.recid }
      else .ok ((s.setR d (s.getR a)).setRes false)) :=
  complete_checkScalar_of_range h0 hN s _

/-- Settles O28: the three commands have one check, and SNORM then one test, s > HALF_N. -/
theorem scalarChecksAndLowS : Obligations.ScalarChecksAndLowS := by
  intro d a flip s
  refine ⟨⟨rfl, rfl, by cases flip <;> rfl⟩,
    fun h => ⟨complete_checkScalar_of_out h s _, complete_checkScalar_of_out h s _, complete_checkScalar_of_out h s _⟩,
    fun h0 hN => ⟨complete_checkScalar_of_range h0 hN s _, ?shighs, fun hle => ?low, fun hlt => ⟨?bound, ?high⟩⟩⟩
  case shighs =>
    rw [← isHigh_eq_decide]
    exact complete_checkScalar_of_range h0 hN s _
  case low =>
    rw [exec_snorm d a flip s h0 hN, if_neg (by simpa [isHigh_eq_decide] using hle)]
    rfl
  case bound =>
    have hodd : N = 2 * (N / 2) + 1 := by decide
    omega
  case high =>
    rw [exec_snorm d a flip s h0 hN, if_pos (by simpa [isHigh_eq_decide] using hlt)]
    rfl

/-! ### The GLV split (R328, R329) -/

/-- The sign that the split gives a half, which it has reduced mod n (R329). -/
def glvNeg (x : Int) : Bool := decide (2 ^ 128 ≤ (x % N).toNat)

/-- The absolute value that the split gives a half. -/
def glvAbs (x : Int) : Nat := if glvNeg x then N - (x % N).toNat else (x % N).toNat

theorem glvAbs_lt {x : Int} (h : |x| < 2 ^ 128) : glvAbs x < 2 ^ 128 := glvHalf_reduced_lt h

/-- The split in terms of its two halves as integers (R329). -/
theorem split_eq (k : Nat) :
    split k = .ok ⟨glvNeg (glvHalf1 k), glvAbs (glvHalf1 k), glvNeg (glvHalf2 k), glvAbs (glvHalf2 k)⟩ :=
  have ⟨h1, h2⟩ := glvHalves_lt k
  if_neg (not_or.mpr ⟨Nat.not_le.mpr (glvAbs_lt h1), Nat.not_le.mpr (glvAbs_lt h2)⟩)

/-- A half's sign and absolute value give it back mod n. -/
theorem glvSigned_modEq (x : Int) : (if glvNeg x then -(glvAbs x : Int) else glvAbs x) ≡ x [ZMOD N] := by
  have hN : (N : Int) ≠ 0 := by decide
  have hpos : (0 : Int) < N := by decide
  have hx : ((x % N).toNat : Int) = x % N := Int.toNat_of_nonneg (Int.emod_nonneg x hN)
  have hlt : (x % N).toNat < N := by
    have := Int.emod_lt_of_pos x hpos
    omega
  unfold glvAbs
  split
  · rw [Nat.cast_sub hlt.le, hx, neg_sub]
    exact (Int.ModEq.sub_right _ (Int.mod_modEq x N)).trans (by simp [Int.ModEq])
  · rw [hx]; exact Int.mod_modEq x N

/-- The two basis vectors of the split lie in the lattice of (x, y) with x + y·lambda = 0 mod n (10_state R48). -/
theorem glvBasis_dvd : (N : Int) ∣ glvA1 + glvB1 * lambda.toNat ∧ (N : Int) ∣ glvA2 + glvB2 * lambda.toNat := by
  decide

/-- The halves differ from (k, 0) by a vector of the lattice. -/
theorem glvHalves_modEq (k : Nat) : glvHalf1 k + glvHalf2 k * lambda.toNat ≡ k [ZMOD N] := by
  obtain ⟨h1, h2⟩ := glvBasis_dvd
  refine (Int.modEq_iff_dvd.mpr ?_)
  unfold glvHalf1 glvHalf2
  generalize divNearest (glvB2.toNat * k) N = c1
  generalize divNearest ((-glvB1).toNat * k) N = c2
  have e : (k : Int) - ((k : Int) - c1 * glvA1 - c2 * glvA2 + (-(c1 * glvB1) - c2 * glvB2) * lambda.toNat) =
      c1 * (glvA1 + glvB1 * lambda.toNat) + c2 * (glvA2 + glvB2 * lambda.toNat) := by ring
  rw [e]
  exact dvd_add (h1.mul_left _) (h2.mul_left _)

/-- NSPLIT of a scalar in (0, n) (R328). -/
theorem exec_nsplit (d a : RegIdx) (s : State) (h0 : 0 < (s.getR a).toNat) (hN : (s.getR a).toNat < N) {k : Split}
    (hk : split (s.getR a).toNat = .ok k) :
    exec (.nsplit d a) s = .next (s.setRegs d [BitVec.ofNat 256 k.k1, BitVec.ofNat 256 k.k2,
      BitVec.ofNat 256 ((if k.k1neg then 1 else 0) + (if k.k2neg then 2 else 0))]).markDone := by
  refine (complete_checkScalar_of_range h0 hN s _).trans ?_
  rw [hk]; rfl

theorem signBits_eq (c1 c2 : Bool) : (if c1 then 1 else 0) + (if c2 then 2 else 0) = c1.toNat + 2 * c2.toNat := by
  cases c1 <;> cases c2 <;> rfl

/-- Settles O29: both halves are short, and their signed values are mod n the halves of a split of k. -/
theorem nsplitGivesShortHalves : Obligations.NsplitGivesShortHalves := by
  intro d a s
  refine ⟨fun h => complete_checkScalar_of_out h s _, fun h0 hN => ?_⟩
  have ⟨h1, h2⟩ := glvHalves_lt (s.getR a).toNat
  have hsplit := split_eq (s.getR a).toNat
  refine ⟨_, _, _, _, glvAbs_lt h1, glvAbs_lt h2, ?congruence, hsplit, ?writes⟩
  case congruence =>
    refine (Int.modEq_iff_dvd.mp (Int.ModEq.trans ?_ (glvHalves_modEq _)).symm)
    exact (glvSigned_modEq _).add ((glvSigned_modEq _).mul_right _)
  case writes =>
    rw [exec_nsplit d a s h0 hN hsplit, State.setRegs_three, signBits_eq]
    rfl

end Sys2Proof.Machine
end

section
/-! PROOFS. The scalar multiplications MUL and MULU, their windowed products, and the table that PRECOMP builds (43_scalar R330 to R336). -/

namespace Sys2Proof.Machine

/-! ### The table (R330) -/

/-- Each multiple adds the point to the one before it. -/
theorem getD_multiples_succ (p : Point) {m : Nat} (base : Point) {j : Nat} (hj : j < m) :
    (multiples p m base).getD (j + 1) zeroJ = add ((multiples p m base).getD j zeroJ) p := by
  induction m generalizing base j with
  | zero => omega
  | succ m ih =>
    cases j with
    | zero => cases m <;> rfl
    | succ j => exact ih (add base p) (Nat.lt_of_succ_lt_succ hj)

theorem getD_multiples_zero (p : Point) (m : Nat) (base : Point) : (multiples p m base).getD 0 zeroJ = base := by
  cases m <;> rfl

theorem getLastD_multiples (p : Point) (m : Nat) (base default : Point) :
    (multiples p m base).getLastD default = (multiples p m base).getD m zeroJ := by
  have hlen := length_multiples p m base
  rw [List.getLastD_eq_getLast?, List.getLast?_eq_getElem?, hlen, List.getD_eq_getElem?_getD]
  simp [hlen]

/-- The next window starts with twice the last multiple of the window of p (R330). -/
def nextBase (half : Nat) (p : Point) : Point := dbl ((multiples p (half - 1) p).getD (half - 1) zeroJ)

/-- The point whose multiples fill window w of a table that begins with p. -/
def windowBase (half : Nat) (p : Point) (w : Nat) : Point := (nextBase half)^[w] p

theorem windowBase_succ (half : Nat) (p : Point) (w : Nat) : windowBase half p (w + 1) = nextBase half (windowBase half p w) :=
  Function.iterate_succ_apply' ..

theorem windows_succ (half m : Nat) (p : Point) :
    windows half (m + 1) p = multiples p (half - 1) p ++ windows half m (nextBase half p) := by
  rw [windows, getLastD_multiples]; rfl

/-- Window w of the table holds the multiples of its base. -/
theorem getD_windows {half : Nat} (hh : 0 < half) {m w j : Nat} (p : Point) (hw : w < m) (hj : j < half) :
    (windows half m p).getD (w * half + j) zeroJ =
      (multiples (windowBase half p w) (half - 1) (windowBase half p w)).getD j zeroJ := by
  have hlen (q : Point) : (multiples q (half - 1) q).length = half := by rw [length_multiples]; omega
  induction w generalizing m p with
  | zero =>
    obtain ⟨m, rfl⟩ : ∃ n, m = n + 1 := ⟨m - 1, by omega⟩
    rw [windows_succ, Nat.zero_mul, Nat.zero_add, List.getD_append _ _ _ _ (by rwa [hlen])]
    rfl
  | succ w ih =>
    obtain ⟨m, rfl⟩ : ∃ n, m = n + 1 := ⟨m - 1, by omega⟩
    have hidx : (w + 1) * half + j = half + (w * half + j) := by ring
    rw [windows_succ, List.getD_append_right _ _ _ _ (by rw [hlen]; omega), hlen, hidx, Nat.add_sub_cancel_left,
      ih (nextBase half p) (by omega)]
    rfl

/-! ### PRECOMP and CINV (R335, R336) -/

theorem exec_precomp (a : PtIdx) (s : State) :
    exec (.precomp a) s = .next (if valid (aff (s.getQ a)) = true then
      { s with cache := some ⟨s.wlog2, aff (s.getQ a), cacheTable (aff (s.getQ a)) s.wlog2⟩, done := true }
      else s.raise .point) := by
  show execPrecomp a s = _
  rw [execPrecomp, assertValid_eq]
  split_ifs <;> rfl

/-- Settles O39: the table is read window by window, and each window as the multiples of its base. -/
theorem precompBuildsTheTable : Obligations.PrecompBuildsTheTable := by
  refine ⟨fun s => rfl, fun a s => ⟨fun h => ?invalid, fun h => ⟨_, ?runs, rfl, ?length, ?normalised⟩⟩,
    fun T W half _ hhalf => ?entries⟩
  case invalid => rw [exec_precomp, if_neg (by simp [h])]
  case runs => rw [exec_precomp, if_pos h]; rfl
  case length => rw [List.length_map, length_precompute]
  case normalised =>
    intro p hp
    obtain ⟨q, -, rfl⟩ := List.mem_map.1 hp
    exact norm_canonical q
  case entries =>
    intro e
    have hpos : 0 < half := hhalf ▸ Nat.two_pow_pos _
    have entry {w j : Nat} (hw : w ≤ 128 / W) (hj : j < half) : e (w * half + j) =
        (multiples (windowBase half T w) (half - 1) (windowBase half T w)).getD j zeroJ := by
      subst hhalf
      exact getD_windows hpos T (Nat.lt_succ_of_le hw) hj
    have first {w : Nat} (hw : w ≤ 128 / W) : e (w * half) = windowBase half T w :=
      (entry hw hpos).trans (getD_multiples_zero ..)
    refine ⟨?start, fun w hw j hj => ?next, fun w hw => ?nextWindow⟩
    case start => exact (congrArg e (Nat.zero_mul half)).symm.trans (first (Nat.zero_le _))
    case next =>
      rw [add_assoc, entry hw hj, entry hw (Nat.lt_of_succ_lt hj), first hw]
      exact getD_multiples_succ _ _ (by omega)
    case nextWindow =>
      rw [Nat.add_sub_assoc hpos, first (Nat.succ_le_of_lt hw), entry hw.le (Nat.sub_lt hpos Nat.one_pos)]
      exact windowBase_succ half T w

/-! ### The windowed product (R331) -/

/-- The result point of the windowed product before window i. -/
def wnafPoint (tab : List Point) (k w : Nat) : Nat → Point
  | 0 => zeroJ
  | i + 1 =>
    let entry := tab.getD (i * 2 ^ (w - 1) + (wnafDigit k w i).natAbs - 1) zeroJ
    if wnafDigit k w i = 0 then wnafPoint tab k w i
    else add (wnafPoint tab k w i) (if wnafDigit k w i < 0 then neg entry else entry)

theorem wnaf_eq_wnafPoint (tab : List Point) (k : Nat) {w : Nat} (hw : 1 ≤ w) :
    (wnaf k tab w).1 = wnafPoint tab k w (128 / w + 1) := by
  have h := wnafLoop_eq tab w k hw (wnafPoint tab k w) (fun _ => rfl) (128 / w + 1) 0 pointG
  rwa [Nat.zero_add] at h

/-- With no carry left after the last window, the digits weighted by their windows sum to k. -/
theorem sum_wnafDigit {k w : Nat} (hw : w ∈ [1, 2, 4, 8]) (hk : k < 2 ^ 128) :
    (Finset.range (128 / w + 1)).sum (fun i => wnafDigit k w i * 2 ^ (i * w)) = (k : Int) := by
  have h := wnafDigit_sum k w (128 / w + 1)
  rwa [wnafCarry_end k w hw hk, Nat.cast_zero, zero_mul, add_zero] at h

/-! ### MUL and MULU (R332 to R334) -/

/-- The table is cached when the slot's point is the operand's affine value and the operand is no identity (R332). -/
theorem cacheHit_iff (c : CacheSlot) (t : Point) : cacheHit c t = true ↔ t.z ≠ 0 ∧ aff t = c.cpoint := by
  simp [cacheHit]

/-- MUL's table and window, from what R332 says of them with and without a hit. -/
theorem eq_lookupTable {cache : Option CacheSlot} {t : Point} {tab : List Point} {W : Nat}
    (hit : ∀ c, cache = some c → t.z ≠ 0 → aff t = c.cpoint → tab = c.ctable ∧ W = 2 ^ c.twlog2.toNat)
    (miss : (∀ c, cache = some c → t.z = 0 ∨ aff t ≠ c.cpoint) → tab = precompute t 1 ∧ W = 1) :
    lookupTable cache t = (tab, W) := by
  rw [eq_comm, Prod.mk_inj]
  cases cache with
  | none => exact miss fun _ h => nomatch h
  | some c =>
    rw [lookupTable]
    split
    · rename_i h
      obtain ⟨hz, hp⟩ := (cacheHit_iff c t).1 h
      exact hit c rfl hz hp
    · rename_i h
      refine miss fun c' hc => ?_
      cases hc
      rw [cacheHit_iff] at h
      exact (not_and_or.1 h).imp_left not_not.1

/-- The product's destination for any operand: Q[D] gets a normalised triple, and the count of draws may advance (93 I5). -/
theorem State.setProduct_eq_setQ_norm (s : State) (d : PtIdx) (t p : Point) :
    ∃ (n : Nat) (r : Point), s.setProduct d t p = { s with draws := n }.setQ d (norm r) := by
  unfold State.setProduct
  split
  · exact ⟨s.draws, p, rfl⟩
  · exact ⟨s.draws + 1, _, rfl⟩

/-- A multiplication's answer for any operand: a normalised triple in Q[D], and no other change but the count of draws. -/
theorem next_setProduct (s : State) (d : PtIdx) (t p : Point) :
    ∃ u, (.next (s.setProduct d t p).markDone : Outcome) = .next u ∧
      u = { s with q := s.q.set d (u.getQ d), draws := u.draws, done := true } ∧
      (u.getQ d).Canonical ∧ ((u.getQ d).z = 1 ∨ u.getQ d = ⟨0, 1, 0⟩) := by
  obtain ⟨n, r, h⟩ := s.setProduct_eq_setQ_norm d t p
  have hget : (s.setProduct d t p).markDone.getQ d = norm r := by
    rw [h]; exact State.getQ_setQ_same _ d _
  refine ⟨_, rfl, ?_, ?_⟩
  · rw [hget, h]; rfl
  · rw [hget]; exact norm_canonical r

/-- Settles O37: each command checks its scalar and then always completes; the windowed product adds the entries of the digits. -/
theorem multiplicationsCompleteNormalised : Obligations.MultiplicationsCompleteNormalised := by
  refine ⟨fun d a b s f hf0 hf1 => ⟨fun h => ?range, fun h0 hN => ?scalar⟩, fun k W half tab hW hhalf hk => ?windowed⟩
  case range => exact ⟨complete_checkScalar_of_out h s _, complete_checkScalar_of_out h s _⟩
  case scalar =>
    obtain ⟨k, hk⟩ := split_ok (s.getR b).toNat
    refine ⟨fun ht => ⟨⟨k, hk, fun tab W hit miss => ?mul⟩, ?mulu⟩, ?mulAny, ?muluAny⟩
    case mul =>
      rw [exec_mul d a b s ⟨h0, hN⟩ ht hk, eq_lookupTable hit miss]
      rfl
    case mulu =>
      have hloop := doubleAndAdd_eq f hf0 hf1 256 (s.getR b).toNat (s.getQ a) zeroJ (s.getR b).isLt
      rw [exec_mulu d a b s ⟨h0, hN⟩ ht, mulPlain, hloop]
      rfl
    case mulAny =>
      have hrun : exec (.mul d a b) s = .next (s.setProduct d (s.getQ a)
          (mulSplit (lookupTable s.cache (s.getQ a)).1 (lookupTable s.cache (s.getQ a)).2 k)).markDone := by
        refine (complete_checkScalar_of_range h0 hN s _).trans ?_
        rw [hk]; rfl
      rw [hrun]
      exact next_setProduct s d _ _
    case muluAny =>
      have hrun : exec (.mulu d a b) s =
          .next (s.setProduct d (s.getQ a) (mulPlain (s.getQ a) (s.getR b).toNat)).markDone :=
        complete_checkScalar_of_range h0 hN s _
      rw [hrun]
      exact next_setProduct s d _ _
  case windowed =>
    have hW1 : 1 ≤ W := by
      simp only [List.mem_cons, List.not_mem_nil, or_false] at hW
      omega
    subst hhalf
    exact ⟨wnafDigit k W, wnafPoint tab k W, fun w _ => wnafDigit_range k W w hW1, sum_wnafDigit hW hk, rfl, fun _ _ => rfl,
      wnaf_eq_wnafPoint tab k hW1⟩

end Sys2Proof.Machine
end

section
/-! PROOFS. The Schnorr commands SPUB and SSIGN (46_schnorr R450 to R452). -/

namespace Sys2Proof.Machine

/-! ### SPUB (R451) -/

theorem valid_pointG : valid (aff pointG) = true := by decide +kernel

/-- For a scalar in (0, n), d·G and MULU's product of G have one affine value (43_scalar R337, R338). -/
theorem aff_smul_pointG {k : Nat} (h0 : 0 < k) (hN : k < N) : aff (smul pointG k) = aff (mulPlain pointG k) := by
  have hk : k % N = k := Nat.mod_eq_of_lt hN
  rw [smul_eq_norm (by omega) (z_ne_zero_of_valid valid_pointG), hk, aff_norm]

/-- PGET's first register is x, its second the next one (42_curve R282). -/
theorem getR_pget (d : RegIdx) (a : PtIdx) (s : State) :
    ∃ u, exec (.pget d a) s = .next u ∧ u.getR d = (aff (s.getQ a)).x := by
  have hne : d ≠ d + 1 := by simp
  exact ⟨_, rfl, (State.getR_setR _ _ _ _).trans ((if_neg hne).trans (State.getR_setR_same ..))⟩

/-! ### SSIGN (R452) -/

theorem taggedHash_eq_ofNat {tag : List Byte} {name : String} {b : List Byte}
    (h : (taggedHash tag b).toNat = taggedDigest name b) : taggedHash tag b = BitVec.ofNat 256 (taggedDigest name b) := by
  rw [← h, BitVec.ofNat_toNat, BitVec.setWidth_eq]

/-- SSIGN where one of its checks fails: it draws nothing. -/
theorem exec_ssign_of_error (d : RegIdx) {a : RegIdx} {addr len : BitVec 12} {auxbuf : Bool} {s : State} {e : Err}
    (h : ssignInput a addr len auxbuf s = .error e) : exec (.ssign d a addr len auxbuf) s = .next (s.raise e) := by
  show execSsign d a addr len auxbuf s = _
  rw [execSsign, h]; rfl

/-- SSIGN where its checks pass: the state t after the draw ends with the signature, or reports the error of a later step. -/
theorem exec_ssign_of_ok (d : RegIdx) {a : RegIdx} {addr len : BitVec 12} {auxbuf : Bool} {s t : State} {msg aux : List Byte}
    (h : ssignInput a addr len auxbuf s = .ok msg) (hrand : s.auxRand addr len auxbuf = (aux, t)) :
    exec (.ssign d a addr len auxbuf) s =
      complete t (schnorrSign (s.getR a) msg aux >>= fun rs => .ok (t.setRegs d [rs.1, rs.2])) := by
  show execSsign d a addr len auxbuf s = _
  rw [execSsign, h, hrand]

/-- SSIGN's checks where the region fits BUF and the key is in (0, n). -/
theorem ssignInput_ok {a : RegIdx} {addr len : BitVec 12} {auxbuf : Bool} {s : State}
    (hb : addr.toNat + len.toNat + (if auxbuf then 32 else 0) ≤ 4096) (h0 : 0 < (s.getR a).toNat) (hN : (s.getR a).toNat < N) :
    ssignInput a addr len auxbuf s = .ok (s.readBuf addr.toNat len.toNat) := by
  have hin : inScalarRange (s.getR a) = true := decide_eq_true ⟨h0, hN⟩
  rw [ssignInput_eq, if_pos (by rwa [← add_assoc]), if_pos hin]

theorem ssignInput_past_buf {a : RegIdx} {addr len : BitVec 12} {auxbuf : Bool} {s : State}
    (hb : 4096 < addr.toNat + len.toNat + (if auxbuf then 32 else 0)) : ssignInput a addr len auxbuf s = .error .bufRange := by
  rw [ssignInput_eq, if_neg (by rwa [← add_assoc, Nat.not_le])]

theorem ssignInput_of_out {a : RegIdx} {addr len : BitVec 12} {auxbuf : Bool} {s : State}
    (hb : addr.toNat + len.toNat + (if auxbuf then 32 else 0) ≤ 4096) (h : (s.getR a).toNat = 0 ∨ N ≤ (s.getR a).toNat) :
    ssignInput a addr len auxbuf s = .error .range := by
  have hout : inScalarRange (s.getR a) = false := decide_eq_false (by omega)
  rw [ssignInput_eq, if_pos (by rwa [← add_assoc]), hout]; rfl

/-- Settles O53: SSIGN's steps are R452's, with the tagged hashes and the verification in the terms of Safety. -/
theorem schnorrKeysAndSigning : Obligations.SchnorrKeysAndSigning := by
  intro d a addr len auxbuf s key need msg drawn aux p go
  refine ⟨fun h => complete_checkScalar_of_out h s _, fun h0 hN => ⟨complete_checkScalar_of_range h0 hN s _, fun q hq => ?mulu⟩,
    fun h => exec_ssign_of_error d (ssignInput_past_buf h), fun hb h => exec_ssign_of_error d (ssignInput_of_out hb h),
    fun hb h0 hN => ?signs⟩
  case mulu =>
    have hG : (s.getQ q).z = 0 ∨ valid (aff (s.getQ q)) = true := .inr (hq ▸ valid_pointG)
    obtain ⟨u, hu, hx⟩ := getR_pget d q (s.setQ q (norm (mulPlain (s.getQ q) key))).markDone
    refine ⟨_, u, exec_mulu q q a s ⟨h0, hN⟩ hG, hu, hx.trans ?_⟩
    show (aff ((s.setQ q _).getQ q)).x = p.x
    rw [State.getQ_setQ_same, aff_norm, hq, ← aff_smul_pointG h0 hN]
  case signs =>
    intro dk t k0 R k v
    have hrand : s.auxRand addr len auxbuf = (aux, drawn) := by cases auxbuf <;> rfl
    have hsteps : schnorrSign (s.getR a) msg aux = (require (k0 != 0) .nonce0 >>= fun _ =>
        require (verifyS R.x v p.x msg) .selfCheck >>= fun _ => .ok (R.x, v)) := by
      simp only [schnorrSign, taggedHash_eq_ofNat (taggedHash_aux _), taggedHash_nonce, challenge_eq]
      rfl
    have hrun : go = complete drawn (schnorrSign (s.getR a) msg aux >>= fun rs => .ok (drawn.setRegs d [rs.1, rs.2])) :=
      exec_ssign_of_ok d (ssignInput_ok hb h0 hN) hrand
    rw [hrun, hsteps, ← verifyS_iff]
    refine ⟨fun hk => ?nonce0, fun hk hbad => ?selfCheck, fun hk hgood => ?signature⟩
    case nonce0 => rw [hk]; rfl
    case selfCheck => rw [bne_iff_ne.2 hk, Bool.eq_false_of_not_eq_true hbad]; rfl
    case signature =>
      have hr : drawn.r = s.r := by cases auxbuf <;> rfl
      rw [bne_iff_ne.2 hk, hgood, ← hr]
      rfl

end Sys2Proof.Machine
end

section
/-! PROOFS. The steps that the codec commands share: checks in a row, the bytes of an output region, the parts of an input region
(44_codec R370, 20_memory R81). -/

namespace Sys2Proof.Machine

/-! ### Rules of several steps (00_scope R16) -/

theorem require_eq_ok {c : Bool} {e : Err} {u : Unit} : require c e = .ok u ↔ c = true := by
  cases c <;> simp [require]

theorem require_error {c : Bool} {e e' : Err} (h : require c e = .error e') : e' = e := by
  cases c <;> cases h
  rfl

theorem bind_eq_ok {α β : Type} {x : Except Err α} {f : α → Except Err β} {y : β} :
    (x >>= f) = .ok y ↔ ∃ a, x = .ok a ∧ f a = .ok y := by
  cases x <;> simp

theorem bind_eq_error {α β : Type} {x : Except Err α} {f : α → Except Err β} {e : Err} :
    (x >>= f) = .error e ↔ x = .error e ∨ ∃ a, x = .ok a ∧ f a = .error e := by
  cases x <;> simp

/-- A command whose first step passes goes on with the rest of its rule. -/
theorem complete_bind_of_ok {α : Type} {x : Except Err α} {y : α} (h : x = .ok y) (s : State) (f : α → Except Err State) :
    complete s (x >>= f) = complete s (f y) := by
  rw [h, ok_bind]

/-- A command whose first step fails reports that step's error. -/
theorem complete_bind_of_error {α : Type} {x : Except Err α} {e : Err} (h : x = .error e) (s : State) (f : α → Except Err State) :
    complete s (x >>= f) = .next (s.raise e) := by
  rw [h, error_bind, complete_error]

/-! ### Checks of signatures (R370, R380) -/

theorem isSchnorrSig_iff (r v : Word) : isSchnorrSig r v = true ↔ 0 < r.toNat ∧ r.toNat < P ∧ 0 < v.toNat ∧ v.toNat < N := by
  simp [isSchnorrSig, inFieldRange, inScalarRange, and_assoc]

theorem checkSig_of_sig {r v : Word} (h : isSig r v = true) : checkSig r v = .ok () := require_eq_ok.2 h

theorem checkSig_of_not_sig {r v : Word} (h : isSig r v = false) : checkSig r v = .error .range := by rw [checkSig, h]; rfl

theorem checkSchnorrSig_of_sig {r v : Word} (h : isSchnorrSig r v = true) : checkSchnorrSig r v = .ok () := require_eq_ok.2 h

theorem checkSchnorrSig_of_not_sig {r v : Word} (h : isSchnorrSig r v = false) : checkSchnorrSig r v = .error .range := by
  rw [checkSchnorrSig, h]; rfl

/-! ### Output regions (R370, 10_state R47) -/

theorem complete_emit_of_le {addr : BitVec 12} {out : List Byte} (s : State) (h : addr.toNat + out.length ≤ 4096) :
    complete s (s.emit addr out) = .next (s.writeBuf addr.toNat out).markDone := by
  rw [State.emit_eq, if_pos h, complete_ok]

theorem complete_emit_of_gt {addr : BitVec 12} {out : List Byte} (s : State) (h : 4096 < addr.toNat + out.length) :
    complete s (s.emit addr out) = .next (s.raise .bufRange) := by
  rw [State.emit_eq, if_neg (Nat.not_le_of_lt h), complete_error]

theorem complete_emitWithLength_of_le {addr : BitVec 12} {out : List Byte} (s : State) (h : addr.toNat + out.length ≤ 4096) :
    complete s (s.emitWithLength addr out) =
      .next { s.writeBuf addr.toNat out with olen := BitVec.ofNat 13 out.length, done := true } := by
  rw [State.emitWithLength_eq, if_pos h, complete_ok]
  rfl

theorem complete_emitWithLength_of_gt {addr : BitVec 12} {out : List Byte} (s : State) (h : 4096 < addr.toNat + out.length) :
    complete s (s.emitWithLength addr out) = .next (s.raise .bufRange) := by
  rw [State.emitWithLength_eq, if_neg (Nat.not_le_of_lt h), complete_error]

/-- OLEN and DONE do not change what a region holds. -/
theorem State.HoldsBytes.withLength {s : State} {a n v : Nat} (h : s.HoldsBytes a n v) (l : BitVec 13) :
    { s with olen := l, done := true }.HoldsBytes a n v := h

/-- A byte that holds p is p. -/
theorem State.HoldsBytes.toNat_bufByte {s : State} {a p : Nat} (h : s.HoldsBytes a 1 p) (hp : p < 256) : (s.bufByte a).toNat = p := by
  simpa [Nat.mod_eq_of_lt hp] using h 0 Nat.one_pos

theorem State.HoldsBytes.markDone {s : State} {a n v : Nat} (h : s.HoldsBytes a n v) : s.markDone.HoldsBytes a n v := h

/-- A write of a byte string makes the place of each part `be_n(v)` of it hold v (20_memory R81). -/
theorem State.holdsBytes_writeBuf_part (s : State) (a : Nat) (x : List Byte) (n v : Nat) (y : List Byte) :
    (s.writeBuf a (x ++ (beBytes n v ++ y))).HoldsBytes (a + x.length) n v := by
  intro j hj
  have hj' : j < (beBytes n v).length := by simpa using hj
  rw [State.bufByte_writeBuf, dif_pos (by simp only [List.length_append, length_beBytes]; omega), ← getElem_beBytes n v j hj']
  simp [show a + x.length + j - a = x.length + j by omega, List.getElem_append_right, List.getElem_append_left hj']

theorem State.holdsBytes_writeBuf_last (s : State) (a : Nat) (x : List Byte) (n v : Nat) :
    (s.writeBuf a (x ++ beBytes n v)).HoldsBytes (a + x.length) n v := by
  have h := s.holdsBytes_writeBuf_part a x n v []
  rwa [List.append_nil] at h

/-- A first byte p of a written byte string: its place holds p. -/
theorem State.holdsBytes_writeBuf_cons (s : State) (a p : Nat) (y : List Byte) :
    (s.writeBuf a (BitVec.ofNat 8 p :: y)).HoldsBytes a 1 p := by
  have h := s.holdsBytes_writeBuf_part a [] 1 p y
  rwa [beBytes, beBytes, pow_zero, Nat.div_one] at h

/-! ### Input regions (R370) -/

theorem State.readBuf_add (s : State) (a m k : Nat) : s.readBuf a (m + k) = s.readBuf a m ++ s.readBuf (a + m) k := by
  simp [State.readBuf, List.range_add, Function.comp_def, add_assoc]

theorem State.readBuf_succ (s : State) (a k : Nat) : s.readBuf a (k + 1) = s.bufByte a :: s.readBuf (a + 1) k := by
  rw [add_comm, s.readBuf_add a 1 k]
  rfl

/-- A 32-byte region that holds the value of a register reads as that register (00_scope R14). -/
theorem State.wordOf_readBuf {s : State} {a : Nat} {v : Word} (h : s.HoldsBytes a 32 v.toNat) : wordOf (s.readBuf a 32) = v := by
  rw [wordOf, s.be_readBuf a 32 v.toNat v.isLt h, BitVec.ofNat_toNat, BitVec.setWidth_eq]

theorem State.fetchExact_of_gt (s : State) {addr len : BitVec 12} (k : Nat) (hb : 4096 < addr.toNat + len.toNat) :
    s.fetchExact addr len k = .error .bufRange := by
  rw [State.fetchExact_eq, if_neg (Nat.not_le_of_lt hb)]

theorem State.fetchExact_of_ne (s : State) {addr len : BitVec 12} {k : Nat} (hb : addr.toNat + len.toNat ≤ 4096) (hl : len.toNat ≠ k) :
    s.fetchExact addr len k = .error .encoding := by
  rw [State.fetchExact_eq, if_pos hb, if_neg hl]

theorem State.fetchExact_of_eq (s : State) {addr len : BitVec 12} {k : Nat} (hb : addr.toNat + len.toNat ≤ 4096) (hl : len.toNat = k) :
    s.fetchExact addr len k = .ok (s.readBuf addr.toNat k) := by
  rw [State.fetchExact_eq, if_pos hb, if_pos hl]

end Sys2Proof.Machine
end

section
/-! PROOFS. The DER codec: its decoder accepts exactly the encoder's outputs, and the commands DERENC and DERDEC (44_codec R371, R376,
R377). -/

namespace Sys2Proof.Machine

/-! ### DER INTEGERs and signatures (R371) -/

theorem ne_zero_of_toNat_pos {v : Word} (h : 0 < v.toNat) : v ≠ 0 := by
  rintro rfl
  exact absurd h (by decide)

/-- A nonzero value has one DER INTEGER: `derIntDec` accepts no other bytes for it. -/
theorem derIntDec_eq_ok_iff {v : Word} (hv : v ≠ 0) {b rest : List Byte} :
    derIntDec b = .ok (v.toNat, rest) ↔ b = derInt v ++ rest := by
  constructor
  · intro h
    obtain ⟨c, hb, hval, hlen, -, hsign, hmin⟩ := derIntDec_ok h
    rw [hb, derContent_unique c v hv hval hlen hsign hmin]
    rfl
  · rintro rfl
    exact derIntDec_derInt v hv rest

/-- What `underive` accepts: tag 30 and the length of the body, then two INTEGERs in (0, n) and nothing after them. -/
theorem underive_eq_ok_iff {b : List Byte} {r v : Word} :
    underive b = .ok (r, v) ↔ isSig r v = true ∧ ∃ body rest, b = 0x30 :: BitVec.ofNat 8 body.length :: body ∧
      body.length < 0x80 ∧ derIntDec body = .ok (r.toNat, rest) ∧ derIntDec rest = .ok (v.toNat, []) := by
  have hN : N < 2 ^ 256 := by decide
  constructor
  · intro h
    match b, h with
    | tag :: l :: body, h =>
      simp only [underive, bind_eq_ok, require_eq_ok, checkSigNat, beq_iff_eq, decide_eq_true_eq, List.isEmpty_iff] at h
      obtain ⟨-, rfl, -, ⟨hl, hbody⟩, ⟨x, rest⟩, hx, ⟨y, _⟩, hy, -, rfl, -, ⟨hx0, hxN, hy0, hyN⟩, hrv⟩ := h
      obtain ⟨rfl, rfl⟩ := Prod.mk.inj (Except.ok.inj hrv)
      have hxw : (BitVec.ofNat 256 x).toNat = x := Nat.mod_eq_of_lt (hxN.trans hN)
      have hyw : (BitVec.ofNat 256 y).toNat = y := Nat.mod_eq_of_lt (hyN.trans hN)
      refine ⟨(isSig_iff _ _).2 (by rw [hxw, hyw]; exact ⟨hx0, hxN, hy0, hyN⟩), body, rest, ?_, by omega, by rw [hxw]; exact hx,
        by rw [hyw]; exact hy⟩
      rw [← hbody, BitVec.ofNat_toNat, BitVec.setWidth_eq]
  · rintro ⟨hsig, body, rest, rfl, hlen, hr, hv⟩
    have hl : (BitVec.ofNat 8 body.length).toNat = body.length := Nat.mod_eq_of_lt (hlen.trans (by decide))
    simp [underive, require_bind, checkSigNat, hl, hlen, hr, hv, (isSig_iff r v).1 hsig]

theorem underive_error {b : List Byte} {e : Err} (h : underive b = .error e) : e = .encoding ∨ e = .range := by
  match b, h with
  | [], h | [_], h => cases h; exact .inl rfl
  | tag :: l :: body, h =>
    simp only [underive, bind_eq_error] at h
    obtain h | ⟨-, -, h | ⟨-, -, h | ⟨x, -, h | ⟨y, -, h | ⟨-, -, h | ⟨-, -, h⟩⟩⟩⟩⟩⟩ := h
    · exact .inl (require_error h)
    · exact .inl (require_error h)
    · exact .inl (derIntDec_error h)
    · exact .inl (derIntDec_error h)
    · exact .inl (require_error h)
    · exact .inr (require_error h)
    · cases h

/-- The two INTEGERs of a signature fit the one length byte of its body. -/
theorem length_derInts_lt (r v : Word) : (derInt r ++ derInt v).length < 0x80 := by
  have h : (derInt r ++ derInt v).length + 2 ≤ 72 := length_der_le r v
  omega

/-- `underive` accepts a byte string exactly when it is the encoding of a signature. -/
theorem underive_eq_ok_iff_der {b : List Byte} {r v : Word} : underive b = .ok (r, v) ↔ isSig r v = true ∧ b = der r v := by
  rw [underive_eq_ok_iff]
  refine and_congr_right fun hsig => ?_
  obtain ⟨hr0, -, hv0, -⟩ := (isSig_iff r v).1 hsig
  simp only [derIntDec_eq_ok_iff (ne_zero_of_toNat_pos hr0), derIntDec_eq_ok_iff (ne_zero_of_toNat_pos hv0), List.append_nil]
  constructor
  · rintro ⟨_, _, rfl, -, rfl, rfl⟩
    rfl
  · intro hb
    exact ⟨derInt r ++ derInt v, derInt v, hb, length_derInts_lt r v, rfl, rfl⟩

/-- Settles O48: of what `underive` reads, each INTEGER has one encoding, and the body's length is its number of bytes. -/
theorem derDecoderAcceptsOnlyDer : Obligations.DerDecoderAcceptsOnlyDer :=
  fun _ => ⟨fun _ _ => underive_eq_ok_iff_der, fun _ => underive_error⟩

/-! ### DERENC and DERDEC (R376, R377) -/

theorem length_derContent_pos {v : Word} (hv : v ≠ 0) : 1 ≤ (derContent v).length := by
  obtain ⟨-, hpos, -⟩ := derContent_spec v hv
  exact hpos

theorem le_length_der {r v : Word} (h : isSig r v = true) : 8 ≤ (der r v).length := by
  obtain ⟨hr0, -, hv0, -⟩ := (isSig_iff r v).1 h
  have hr := length_derContent_pos (ne_zero_of_toNat_pos hr0)
  have hv := length_derContent_pos (ne_zero_of_toNat_pos hv0)
  simp only [der, derInt, List.length_cons, List.length_append]
  omega

theorem exec_derenc {a b : RegIdx} (addr : BitVec 12) {s : State} (h : isSig (s.getR a) (s.getR b) = true) :
    exec (.derenc a b addr) s = complete s (s.emitWithLength addr (der (s.getR a) (s.getR b))) :=
  complete_bind_of_ok (checkSig_of_sig h) s _

/-- DERDEC of a region in BUF ends as `underive` of its bytes does. -/
theorem exec_derdec (d : RegIdx) {addr len : BitVec 12} {s : State} (hb : addr.toNat + len.toNat ≤ 4096) :
    exec (.derdec d addr len) s = complete s (underive (s.readBuf addr.toNat len.toNat) >>= fun rs =>
      .ok (s.setRegs d [rs.1, rs.2])) :=
  complete_bind_of_ok (checkBuf_of_le hb) s _

theorem exec_derdec_of_ok (d : RegIdx) {addr len : BitVec 12} {s : State} {r v : Word} (hb : addr.toNat + len.toNat ≤ 4096)
    (h : underive (s.readBuf addr.toNat len.toNat) = .ok (r, v)) :
    exec (.derdec d addr len) s = .next { s with r := (s.r.set d r).set (d + 1 : RegIdx) v, done := true } := by
  rw [exec_derdec d hb, h]
  rfl

theorem underive_der {r v : Word} (h : isSig r v = true) : underive (der r v) = .ok (r, v) := underive_eq_ok_iff_der.2 ⟨h, rfl⟩

/-- Settles O47: `underive` accepts what `der` writes, and DERDEC reads the bytes that DERENC has written. -/
theorem derRoundTrip : Obligations.DerRoundTrip := by
  refine ⟨fun r v => underive_der, fun a b d addr len s hsig hlen hbuf => ?_⟩
  rw [exec_derenc addr hsig]
  refine ⟨_, complete_emitWithLength_of_le s (hlen ▸ hbuf), exec_derdec_of_ok d hbuf ?_⟩
  rw [hlen, ← underive_der hsig]
  exact congrArg underive (s.readBuf_writeBuf _ _)

/-- Settles O46: each command checks, then does what `der` and `underive` give; the named strings are computed. -/
theorem derCommands : Obligations.DerCommands := by
  refine ⟨fun a b addr s => ⟨fun h => complete_bind_of_error (checkSig_of_not_sig h) s _, fun h =>
      ⟨le_length_der h, length_der_le _ _, fun hb => ?past, fun hb => ?encodes⟩⟩,
    fun d addr len s => ⟨fun hb => complete_bind_of_error (checkBuf_of_gt hb) s _, fun hb => ?decodes⟩,
    by decide, by decide, by decide, by decide⟩
  case past => rw [exec_derenc addr h, complete_emitWithLength_of_gt s hb]
  case encodes =>
    rw [exec_derenc addr h]
    exact ⟨_, complete_emitWithLength_of_le s hb, rfl, s.readBuf_writeBuf _ _, s.sameOutside_writeBuf _ _⟩
  case decodes =>
    rw [exec_derdec d hb]
    cases underive (s.readBuf addr.toNat len.toNat) <;> rfl

end Sys2Proof.Machine
end

section
/-! PROOFS. Public keys in BUF: PTENC and PTDEC (44_codec R372, R373). -/

namespace Sys2Proof.Machine

/-! ### PTENC (R372) -/

/-- The number of bytes of each format's key. -/
theorem length_encodePoint (p : AffPoint) {fmt : BitVec 2} {n : Nat} (h : (fmt.toNat, n) ∈ [(0, 33), (1, 65), (2, 32)]) :
    (encodePoint p fmt).length = n := by
  simp only [List.mem_cons, List.not_mem_nil, or_false, Prod.mk.injEq] at h
  obtain ⟨hf, rfl⟩ | ⟨hf, rfl⟩ | ⟨hf, rfl⟩ := h <;> simp [encodePoint, hf]

/-- PTENC of one of the three formats goes on with AssertValid (42_curve R275). -/
theorem exec_ptenc (a : PtIdx) (addr : BitVec 12) {fmt : BitVec 2} (s : State) (hf : fmt.toNat ≠ 3) :
    exec (.ptenc a addr fmt) s = complete s (assertValid (s.getQ a) >>= fun p => s.emitWithLength addr (encodePoint p fmt)) :=
  complete_bind_of_ok (y := ()) (require_eq_ok.2 (bne_iff_ne.2 hf)) s _

theorem assertValid_of_valid {t : Point} (h : valid (aff t) = true) : assertValid t = .ok (aff t) := if_pos h

theorem assertValid_of_not_valid {t : Point} (h : valid (aff t) = false) : assertValid t = .error .point :=
  if_neg (Bool.not_eq_true _ ▸ h)

theorem State.holdsBytes_compressed (s : State) (a : Nat) (p : AffPoint) :
    (s.writeBuf a (encodePoint p 0)).HoldsBytes a 1 (2 + p.y.toNat % 2) ∧
    (s.writeBuf a (encodePoint p 0)).HoldsBytes (a + 1) 32 p.x.toNat :=
  ⟨s.holdsBytes_writeBuf_cons a _ _, s.holdsBytes_writeBuf_last a [_] 32 _⟩

theorem State.holdsBytes_uncompressed (s : State) (a : Nat) (p : AffPoint) :
    (s.writeBuf a (encodePoint p 1)).HoldsBytes a 1 4 ∧ (s.writeBuf a (encodePoint p 1)).HoldsBytes (a + 1) 32 p.x.toNat ∧
    (s.writeBuf a (encodePoint p 1)).HoldsBytes (a + 33) 32 p.y.toNat :=
  ⟨s.holdsBytes_writeBuf_cons a 4 _, s.holdsBytes_writeBuf_part a [_] 32 _ _,
    (s.holdsBytes_writeBuf_last a (_ :: be32 p.x) 32 _)⟩

/-- Settles O40: a format's bytes are its first byte and one or two coordinates, one after the other. -/
theorem ptencWritesTheKeyBytes : Obligations.PtencWritesTheKeyBytes := by
  intro a addr fmt n s hfmt
  have hf : fmt.toNat ≠ 3 := by rintro h; simp [h] at hfmt
  have hlen := length_encodePoint (aff (s.getQ a)) hfmt
  subst hlen
  rw [exec_ptenc a addr s hf]
  refine ⟨?word, fun h => complete_bind_of_error (assertValid_of_not_valid h) s _, fun h hb => ?past, fun h hb => ?writes⟩
  case word => exact congrArg (fun imm => word 0x50 { a := a, addr := addr, imm := imm }) (by clear * -; revert fmt; decide)
  case past => rw [complete_bind_of_ok (assertValid_of_valid h), complete_emitWithLength_of_gt s hb]
  case writes =>
    rw [complete_bind_of_ok (assertValid_of_valid h), complete_emitWithLength_of_le s hb]
    refine ⟨_, rfl, rfl, s.sameOutside_writeBuf _ _, ?compressed, ?uncompressed, ?xOnly⟩
    case compressed =>
      rintro rfl
      obtain ⟨hpre, hx⟩ := s.holdsBytes_compressed addr.toNat (aff (s.getQ a))
      exact ⟨hpre.withLength _, hx.withLength _⟩
    case uncompressed =>
      rintro rfl
      obtain ⟨hpre, hx, hy⟩ := s.holdsBytes_uncompressed addr.toNat (aff (s.getQ a))
      exact ⟨hpre.withLength _, hx.withLength _, hy.withLength _⟩
    case xOnly =>
      rintro rfl
      exact (s.holdsBytes_writeBuf addr.toNat 32 _).withLength _

/-! ### PTDEC (R373) -/

theorem decodePoint_of_length {b : List Byte} (h : b.length ∉ [32, 33, 65]) : decodePoint b = .error .encoding := by
  simp only [List.mem_cons, List.not_mem_nil, or_false, not_or] at h
  obtain ⟨h32, h33, h65⟩ := h
  unfold decodePoint
  split
  · contradiction
  · contradiction
  · contradiction
  · rfl

theorem decodePoint_xOnly {b : List Byte} (h : b.length = 32) : decodePoint b = lift (wordOf b) 0 := by
  rw [decodePoint, h]
  rfl

theorem decodePoint_compressed (pre : Byte) {b : List Byte} (h : b.length = 32) :
    decodePoint (pre :: b) =
      if pre.toNat = 2 ∨ pre.toNat = 3 then lift (wordOf b) (pre.toNat - 2) else .error .encoding := by
  have hstep : decodePoint (pre :: b) =
      (require (pre == 0x02 || pre == 0x03) .encoding >>= fun _ => lift (wordOf b) (pre.toNat - 2)) := by
    rw [decodePoint, List.length_cons, h]
    rfl
  rw [hstep, require_bind]
  simp [← BitVec.toNat_inj]

theorem decodePoint_uncompressed (pre : Byte) {b c : List Byte} (hb : b.length = 32) (hc : c.length = 32) :
    decodePoint (pre :: (b ++ c)) =
      if pre.toNat = 4 then if valid ⟨wordOf b, wordOf c⟩ = true then .ok ⟨wordOf b, wordOf c⟩ else .error .point
      else .error .encoding := by
  have hstep : decodePoint (pre :: (b ++ c)) = (require (pre == 0x04) .encoding >>= fun _ =>
      require (valid ⟨wordOf b, wordOf c⟩) .point >>= fun _ => .ok ⟨wordOf b, wordOf c⟩) := by
    rw [decodePoint, List.length_cons, List.length_append, hb, hc]
    simp only [List.headD_cons, List.tail_cons, List.take_left' hb, List.drop_left' hb]
  rw [hstep, require_bind, require_bind]
  simp [← BitVec.toNat_inj]

theorem lift_error {x : Word} {par : Nat} {e : Err} (h : lift x par = .error e) : e = .point := by
  unfold lift at h
  split at h
  · dsimp only at h
    split at h <;> cases h
    rfl
  · cases h; rfl

/-- PTDEC of a region in BUF ends as `decodePoint` of its bytes does. -/
theorem exec_ptdec (d : PtIdx) {addr len : BitVec 12} (s : State) (hb : addr.toNat + len.toNat ≤ 4096) {n : Nat} (hl : len.toNat = n) :
    exec (.ptdec d addr len) s =
      complete s (decodePoint (s.readBuf addr.toNat n) >>= fun p => .ok (s.setQ d ⟨p.x, p.y, 1⟩)) := by
  rw [← hl]
  exact complete_bind_of_ok (checkBuf_of_le hb) s _

theorem decodePoint_readBuf_33 (s : State) (a : Nat) :
    decodePoint (s.readBuf a 33) = if (s.bufByte a).toNat = 2 ∨ (s.bufByte a).toNat = 3 then
      lift (wordOf (s.readBuf (a + 1) 32)) ((s.bufByte a).toNat - 2) else .error .encoding := by
  rw [s.readBuf_succ a 32, decodePoint_compressed _ (s.length_readBuf ..)]

theorem decodePoint_readBuf_65 {s : State} {a : Nat} {x y : Word} (hx : wordOf (s.readBuf (a + 1) 32) = x)
    (hy : wordOf (s.readBuf (a + 33) 32) = y) :
    decodePoint (s.readBuf a 65) = if (s.bufByte a).toNat = 4 then
      if valid ⟨x, y⟩ = true then .ok ⟨x, y⟩ else .error .point
      else .error .encoding := by
  rw [s.readBuf_succ a 64, s.readBuf_add (a + 1) 32 32, decodePoint_uncompressed _ (s.length_readBuf ..) (s.length_readBuf ..),
    ← hx, ← hy]

/-- Settles O42: the length selects the format, whose bytes are a first byte and one or two coordinates. -/
theorem ptdecReadsTheThreeFormats : Obligations.PtdecReadsTheThreeFormats := by
  intro d addr len s word32 pre lifts
  have hlift (x : Word) (par : Nat) :
      complete s (lift x par >>= fun p => .ok (s.setQ d ⟨p.x, p.y, 1⟩)) = lifts (lift x par) := by
    cases h : lift x par with
    | ok p => rfl
    | error e => rw [lift_error h]; rfl
  have h65 := decodePoint_readBuf_65 (s := s) (a := addr.toNat) (x := word32 1) (y := word32 33) rfl rfl
  refine ⟨rfl, fun hb => complete_bind_of_error (checkBuf_of_gt hb) s _, fun hb =>
    ⟨fun hl => ?length, fun hl => ?xOnly, fun hl h2 h3 => ?badCompressed, fun hl h23 => ?compressed, fun hl h4 => ?badUncompressed,
      fun hl h4 hv => ?badPair, fun hl h4 hv => ?uncompressed⟩⟩
  case length =>
    rw [exec_ptdec d s hb rfl]
    exact complete_bind_of_error (decodePoint_of_length (by rwa [State.length_readBuf])) s _
  case xOnly =>
    rw [exec_ptdec d s hb hl, decodePoint_xOnly (s.length_readBuf ..)]
    exact hlift _ _
  case badCompressed =>
    rw [exec_ptdec d s hb hl, decodePoint_readBuf_33, if_neg (not_or.2 ⟨h2, h3⟩)]
    rfl
  case compressed =>
    rw [exec_ptdec d s hb hl, decodePoint_readBuf_33, if_pos h23]
    exact hlift _ _
  case badUncompressed =>
    rw [exec_ptdec d s hb hl, h65, if_neg h4]
    rfl
  case badPair =>
    rw [exec_ptdec d s hb hl, h65, if_pos h4, if_neg (Bool.not_eq_true _ ▸ hv)]
    rfl
  case uncompressed =>
    rw [exec_ptdec d s hb hl, h65, if_pos h4, if_pos hv]
    rfl

end Sys2Proof.Machine
end

section
/-! PROOFS. Compact, recoverable and Schnorr signatures in BUF: SIGENC, SIGDEC, RSIGENC, RSIGDEC, SCHENC and SCHDEC (44_codec R374,
R375, R378 to R381). -/

namespace Sys2Proof.Machine

/-! ### The encoders (R374, R378, R380) -/

theorem exec_sigenc {a b : RegIdx} (addr : BitVec 12) {s : State} (h : isSig (s.getR a) (s.getR b) = true) :
    exec (.sigenc a b addr) s = complete s (s.emit addr (compact (s.getR a) (s.getR b))) :=
  complete_bind_of_ok (checkSig_of_sig h) s _

theorem exec_schenc {a b : RegIdx} (addr : BitVec 12) {s : State} (h : isSchnorrSig (s.getR a) (s.getR b) = true) :
    exec (.schenc a b addr) s = complete s (s.emit addr (compact (s.getR a) (s.getR b))) :=
  complete_bind_of_ok (checkSchnorrSig_of_sig h) s _

theorem exec_rsigenc {a b : RegIdx} (addr : BitVec 12) {s : State} (h : isSig (s.getR a) (s.getR b) = true) :
    exec (.rsigenc a b addr) s =
      complete s (s.emit addr (BitVec.ofNat 8 (31 + s.recid.toNat) :: compact (s.getR a) (s.getR b))) :=
  complete_bind_of_ok (checkSig_of_sig h) s _

/-- A write of one byte string changes BUF, in its region, and DONE. -/
theorem State.markDone_writeBuf_frame (s : State) (a : Nat) (out : List Byte) :
    (s.writeBuf a out).markDone = { s with buf := (s.writeBuf a out).markDone.buf, done := true } ∧
    s.SameOutside (s.writeBuf a out).markDone a out.length := ⟨rfl, s.sameOutside_writeBuf a out⟩

/-- The two halves of a compact signature that a byte string ends with. -/
theorem State.holdsBytes_compact (s : State) (a : Nat) (pre : List Byte) (r v : Word) :
    (s.writeBuf a (pre ++ compact r v)).markDone.HoldsBytes (a + pre.length) 32 r.toNat ∧
    (s.writeBuf a (pre ++ compact r v)).markDone.HoldsBytes (a + pre.length + 32) 32 v.toNat := by
  have hlast := s.holdsBytes_writeBuf_last a (pre ++ be32 r) 32 v.toNat
  rw [List.append_assoc, List.length_append, length_be32, ← add_assoc] at hlast
  exact ⟨(s.holdsBytes_writeBuf_part a pre 32 r.toNat (be32 v)).markDone, hlast.markDone⟩

/-- The output of SIGENC and SCHENC where it fits BUF. -/
theorem complete_emit_compact (s : State) {addr : BitVec 12} (r v : Word) (hb : addr.toNat + 64 ≤ 4096) :
    ∃ t, complete s (s.emit addr (compact r v)) = .next t ∧ t = { s with buf := t.buf, done := true } ∧
      s.SameOutside t addr.toNat 64 ∧ t.HoldsBytes addr.toNat 32 r.toNat ∧ t.HoldsBytes (addr.toNat + 32) 32 v.toNat := by
  have hlen := length_compact r v
  obtain ⟨hframe, hout⟩ := s.markDone_writeBuf_frame addr.toNat (compact r v)
  rw [hlen] at hout
  exact ⟨_, complete_emit_of_le s (by rwa [hlen]), hframe, hout, s.holdsBytes_compact addr.toNat [] r v⟩

/-- The output of RSIGENC where it fits BUF. -/
theorem complete_emit_recoverable (s : State) {addr : BitVec 12} (p : Nat) (r v : Word) (hb : addr.toNat + 65 ≤ 4096) :
    ∃ t, complete s (s.emit addr (BitVec.ofNat 8 p :: compact r v)) = .next t ∧ t = { s with buf := t.buf, done := true } ∧
      s.SameOutside t addr.toNat 65 ∧ t.HoldsBytes addr.toNat 1 p ∧ t.HoldsBytes (addr.toNat + 1) 32 r.toNat ∧
      t.HoldsBytes (addr.toNat + 33) 32 v.toNat := by
  have hlen : (BitVec.ofNat 8 p :: compact r v).length = 65 := by rw [List.length_cons, length_compact]
  obtain ⟨hframe, hout⟩ := s.markDone_writeBuf_frame addr.toNat (BitVec.ofNat 8 p :: compact r v)
  rw [hlen] at hout
  exact ⟨_, complete_emit_of_le s (by rwa [hlen]), hframe, hout, (s.holdsBytes_writeBuf_cons addr.toNat p _).markDone,
    s.holdsBytes_compact addr.toNat [BitVec.ofNat 8 p] r v⟩

/-- Settles O43: each encoder checks its signature and writes its one byte string. -/
theorem compactEncodersWriteTheirBytes : Obligations.CompactEncodersWriteTheirBytes := by
  intro a b addr s r v
  have hsig := isSig_iff (s.getR a) (s.getR b)
  have hsch := isSchnorrSig_iff (s.getR a) (s.getR b)
  have hlen := length_compact (s.getR a) (s.getR b)
  refine ⟨⟨rfl, rfl, rfl⟩, fun h => ?notSig, fun h => ?notSchnorr, fun hr0 hrN hv0 hvN => ?ecdsa, fun hr0 hrP hv0 hvN => ?schnorr⟩
  case notSig =>
    have hbad := complete_bind_of_error (checkSig_of_not_sig (Bool.eq_false_of_not_eq_true (mt hsig.1 h))) s
    exact ⟨hbad _, hbad _⟩
  case notSchnorr =>
    exact complete_bind_of_error (checkSchnorrSig_of_not_sig (Bool.eq_false_of_not_eq_true (mt hsch.1 h))) s _
  case ecdsa =>
    have hgood := hsig.2 ⟨hr0, hrN, hv0, hvN⟩
    rw [exec_sigenc addr hgood, exec_rsigenc addr hgood]
    exact ⟨fun hb => complete_emit_of_gt s (by rwa [hlen]), fun hb => complete_emit_of_gt s (by rwa [List.length_cons, hlen]),
      complete_emit_compact s _ _, complete_emit_recoverable s _ _ _⟩
  case schnorr =>
    rw [exec_schenc addr (hsch.2 ⟨hr0, hrP, hv0, hvN⟩)]
    exact ⟨fun hb => complete_emit_of_gt s (by rwa [hlen]), complete_emit_compact s _ _⟩

/-! ### The decoders (R375, R379, R381) -/

theorem complete_checkSig (s t : State) (r v : Word) : complete s (checkSig r v >>= fun _ => .ok t) =
    .next (if 0 < r.toNat ∧ r.toNat < N ∧ 0 < v.toNat ∧ v.toNat < N then t.markDone else s.raise .range) := by
  rw [checkSig, require_bind, ← if_congr (isSig_iff r v) rfl rfl]
  split_ifs <;> rfl

theorem complete_checkSchnorrSig (s t : State) (r v : Word) : complete s (checkSchnorrSig r v >>= fun _ => .ok t) =
    .next (if 0 < r.toNat ∧ r.toNat < P ∧ 0 < v.toNat ∧ v.toNat < N then t.markDone else s.raise .range) := by
  rw [checkSchnorrSig, require_bind, ← if_congr (isSchnorrSig_iff r v) rfl rfl]
  split_ifs <;> rfl

theorem State.readBuf_64 (s : State) (a : Nat) : s.readBuf a 64 = s.readBuf a 32 ++ s.readBuf (a + 32) 32 := s.readBuf_add a 32 32

theorem State.take_readBuf_64 (s : State) (a : Nat) : (s.readBuf a 64).take 32 = s.readBuf a 32 := by
  rw [s.readBuf_64, List.take_left' (s.length_readBuf ..)]

theorem State.drop_readBuf_64 (s : State) (a : Nat) : (s.readBuf a 64).drop 32 = s.readBuf (a + 32) 32 := by
  rw [s.readBuf_64, List.drop_left' (s.length_readBuf ..)]

theorem State.readBuf_65 (s : State) (a : Nat) : s.readBuf a 65 = s.bufByte a :: s.readBuf (a + 1) 64 := s.readBuf_succ a 64

/-- A 64-byte decoder, by its check of the components, goes on with the two halves of its region. -/
theorem complete_decode_64 (check : Word → Word → Except Err Unit) (d : RegIdx) {addr len : BitVec 12} (s : State)
    (hb : addr.toNat + len.toNat ≤ 4096) (hl : len.toNat = 64) {r v : Word} (hr : wordOf (s.readBuf addr.toNat 32) = r)
    (hv : wordOf (s.readBuf (addr.toNat + 32) 32) = v) :
    complete s (s.fetchExact addr len 64 >>= fun b => check (wordOf (b.take 32)) (wordOf (b.drop 32)) >>= fun _ =>
      .ok (s.setRegs d [wordOf (b.take 32), wordOf (b.drop 32)])) =
    complete s (check r v >>= fun _ => .ok (s.setRegs d [r, v])) := by
  rw [complete_bind_of_ok (s.fetchExact_of_eq hb hl), s.take_readBuf_64, s.drop_readBuf_64, hr, hv]

/-- SIGDEC of 64 bytes in BUF. -/
theorem exec_sigdec (d : RegIdx) {addr len : BitVec 12} (s : State) (hb : addr.toNat + len.toNat ≤ 4096) (hl : len.toNat = 64)
    {r v : Word} (hr : wordOf (s.readBuf addr.toNat 32) = r) (hv : wordOf (s.readBuf (addr.toNat + 32) 32) = v) :
    exec (.sigdec d addr len) s = .next (if 0 < r.toNat ∧ r.toNat < N ∧ 0 < v.toNat ∧ v.toNat < N then
      { s with r := (s.r.set d r).set (d + 1 : RegIdx) v, done := true } else s.raise .range) :=
  (complete_decode_64 checkSig d s hb hl hr hv).trans (complete_checkSig ..)

/-- SCHDEC of 64 bytes in BUF. -/
theorem exec_schdec (d : RegIdx) {addr len : BitVec 12} (s : State) (hb : addr.toNat + len.toNat ≤ 4096) (hl : len.toNat = 64)
    {r v : Word} (hr : wordOf (s.readBuf addr.toNat 32) = r) (hv : wordOf (s.readBuf (addr.toNat + 32) 32) = v) :
    exec (.schdec d addr len) s = .next (if 0 < r.toNat ∧ r.toNat < P ∧ 0 < v.toNat ∧ v.toNat < N then
      { s with r := (s.r.set d r).set (d + 1 : RegIdx) v, done := true } else s.raise .range) :=
  (complete_decode_64 checkSchnorrSig d s hb hl hr hv).trans (complete_checkSchnorrSig ..)

/-- RSIGDEC of 65 bytes in BUF tests the first byte, then the components after it. -/
theorem exec_rsigdec (d : RegIdx) {addr len : BitVec 12} (s : State) (hb : addr.toNat + len.toNat ≤ 4096) (hl : len.toNat = 65)
    {p : Nat} {r v : Word} (hp : (s.bufByte addr.toNat).toNat = p) (hr : wordOf (s.readBuf (addr.toNat + 1) 32) = r)
    (hv : wordOf (s.readBuf (addr.toNat + 33) 32) = v) :
    exec (.rsigdec d addr len) s = complete s (require (decide (31 ≤ p ∧ p ≤ 34)) .encoding >>= fun _ =>
      checkSig r v >>= fun _ => .ok { s.setRegs d [r, v] with recid := BitVec.ofNat 2 (p - 31) }) := by
  refine (complete_bind_of_ok (s.fetchExact_of_eq hb hl) s _).trans ?_
  rw [s.readBuf_65]
  simp only [List.headD_cons, List.tail_cons, s.take_readBuf_64, s.drop_readBuf_64, hp, hr, hv]

/-- Settles O44: the parts of the region are the components, after the first byte for RSIGDEC. -/
theorem compactDecodersReadTheirBytes : Obligations.CompactDecodersReadTheirBytes := by
  intro d addr len s part pre
  refine ⟨⟨rfl, rfl, rfl⟩, fun hb => ?past, fun hb => ⟨fun hl => ?length, fun h => ?format, fun hl => ?compact, fun hl h31 h34 => ?rsigdec⟩⟩
  case past =>
    have hfetch (k : Nat) := complete_bind_of_error (s.fetchExact_of_gt k hb) s
    exact ⟨hfetch 64 _, hfetch 65 _, hfetch 64 _⟩
  case length =>
    have hfetch := complete_bind_of_error (s.fetchExact_of_ne hb hl) s
    exact ⟨hfetch _, hfetch _⟩
  case format =>
    by_cases hl : len.toNat = 65
    · have hpre : ¬(31 ≤ pre ∧ pre ≤ 34) := by omega
      rw [exec_rsigdec d s hb hl (p := pre) rfl rfl rfl, decide_eq_false hpre]
      rfl
    · exact complete_bind_of_error (s.fetchExact_of_ne hb hl) s _
  case compact => exact ⟨exec_sigdec d s hb hl rfl rfl, exec_schdec d s hb hl rfl rfl⟩
  case rsigdec =>
    rw [exec_rsigdec d s hb hl (p := pre) (r := part 1) (v := part 33) rfl rfl rfl, decide_eq_true ⟨h31, h34⟩]
    exact complete_checkSig ..

/-! ### Round trips -/

theorem State.HoldsBytes.withRecid {s : State} {a n v : Nat} (h : s.HoldsBytes a n v) (id : BitVec 2) :
    { s with recid := id }.HoldsBytes a n v := h

/-- RSIGDEC of a region that holds a first byte, r and v gives them, whatever RECID holds. -/
theorem exec_rsigdec_of_holdsBytes (d : RegIdx) {addr : BitVec 12} {t : State} {k : BitVec 2} {r v : Word} (id : BitVec 2)
    (hb : addr.toNat + 65 ≤ 4096) (hp : t.HoldsBytes addr.toNat 1 (31 + k.toNat))
    (hr : t.HoldsBytes (addr.toNat + 1) 32 r.toNat) (hv : t.HoldsBytes (addr.toNat + 33) 32 v.toNat)
    (hsig : 0 < r.toNat ∧ r.toNat < N ∧ 0 < v.toNat ∧ v.toNat < N) :
    exec (.rsigdec d addr 65) { t with recid := id } =
      .next { t with r := (t.r.set d r).set (d + 1 : RegIdx) v, recid := k, done := true } := by
  have hpre := (hp.withRecid id).toNat_bufByte (by omega)
  rw [exec_rsigdec d _ hb rfl hpre (State.wordOf_readBuf (hr.withRecid id)) (State.wordOf_readBuf (hv.withRecid id)),
    decide_eq_true (by omega), Nat.add_sub_cancel_left, BitVec.ofNat_toNat, BitVec.setWidth_eq]
  refine (complete_checkSig ..).trans ?_
  rw [if_pos hsig]
  rfl

/-- What a decoder makes of the state t that an encoder has left, in terms of the state s before both. -/
theorem State.decoded_of_encoded {s t : State} (ht : t = { s with buf := t.buf, done := true }) (d : RegIdx) (r v : Word) (k : BitVec 2) :
    { t with r := (t.r.set d r).set (d + 1 : RegIdx) v, recid := k, done := true } =
      { t with r := (s.r.set d r).set (d + 1 : RegIdx) v, recid := k } := by
  rw [ht]

/-- Settles O45: the components and the first byte are read where they were written. -/
theorem compactSignaturesRoundTrip : Obligations.CompactSignaturesRoundTrip := by
  intro a b d addr s r v
  refine ⟨fun hr0 hrN hv0 hvN => ?ecdsa, fun hr0 hrP hv0 hvN hb => ?schnorr⟩
  case ecdsa =>
    have hsig : 0 < r.toNat ∧ r.toNat < N ∧ 0 < v.toNat ∧ v.toNat < N := ⟨hr0, hrN, hv0, hvN⟩
    have hgood := (isSig_iff r v).2 hsig
    rw [exec_sigenc addr hgood, exec_rsigenc addr hgood]
    refine ⟨fun hb => ?sigenc, fun hb => ?rsigenc⟩
    case sigenc =>
      obtain ⟨t, hexec, ht, -, hr, hv⟩ := complete_emit_compact s r v hb
      refine ⟨t, hexec, ?_⟩
      rw [exec_sigdec d t hb rfl (State.wordOf_readBuf hr) (State.wordOf_readBuf hv), if_pos hsig]
      exact congrArg _ (State.decoded_of_encoded ht d r v _)
    case rsigenc =>
      obtain ⟨t, hexec, ht, -, hp, hr, hv⟩ := complete_emit_recoverable s (31 + s.recid.toNat) r v hb
      refine ⟨t, hexec, fun id => ?_⟩
      rw [exec_rsigdec_of_holdsBytes d id hb hp hr hv hsig]
      exact congrArg _ (State.decoded_of_encoded ht d r v _)
  case schnorr =>
    have hsig : 0 < r.toNat ∧ r.toNat < P ∧ 0 < v.toNat ∧ v.toNat < N := ⟨hr0, hrP, hv0, hvN⟩
    obtain ⟨t, hexec, ht, -, hr, hv⟩ := complete_emit_compact s r v hb
    refine ⟨t, (exec_schenc addr ((isSchnorrSig_iff r v).2 hsig)).trans hexec, ?_⟩
    rw [exec_schdec d t hb rfl (State.wordOf_readBuf hr) (State.wordOf_readBuf hv), if_pos hsig]
    exact congrArg _ (State.decoded_of_encoded ht d r v _)

end Sys2Proof.Machine
end

section
/-! PROOFS. One signing attempt, and the commands EVERIFY, ERECOVER and SVERIFY (45_ecdsa R420, R425, R427, R428, 46_schnorr R453). -/

namespace Sys2Proof.Machine

/-! ### The hash input (R420) -/

theorem State.fetchHash_of_gt (s : State) {addr len : BitVec 12} (hb : 4096 < addr.toNat + len.toNat) :
    s.fetchHash addr len 0 = .error .bufRange := by
  rw [State.fetchHash_eq, add_zero, if_neg (Nat.not_le_of_lt hb)]

theorem State.fetchHash_of_empty (s : State) {addr len : BitVec 12} (hb : addr.toNat + len.toNat ≤ 4096) (hl : len.toNat = 0) :
    s.fetchHash addr len 0 = .error .encoding := by
  rw [State.fetchHash_eq, add_zero, if_pos hb, if_pos hl]

theorem State.fetchHash_ok (s : State) {addr len : BitVec 12} (hb : addr.toNat + len.toNat ≤ 4096) (hl : len.toNat ≠ 0) :
    s.fetchHash addr len 0 = .ok (s.readBuf addr.toNat len.toNat) := by
  rw [State.fetchHash_eq, add_zero, if_pos hb, if_neg hl]

/-! ### Inverses mod n (43_scalar R325) -/

/-- `nInv` answers a reduced value, also where no inverse exists. -/
theorem nInv_lt (a : Nat) : nInv a < N := by
  have hN : (0 : Int) < N := by exact_mod_cast N_pos
  have h := Int.emod_lt_of_pos (egcd 512 N (a % N) 0 1) hN
  rw [nInv, invMod]
  omega

theorem mul_nInv {a : Nat} (h : Nat.gcd a N = 1) : a * nInv a % N = 1 := by
  have hc : Nat.gcd (a % N) N = 1 := by rwa [← Nat.gcd_rec, Nat.gcd_comm]
  exact (nInv_spec a hc).2

/-! ### One signing attempt (R425) -/

theorem kmdToSig_of_out {k : Nat} (h : k = 0 ∨ N ≤ k) (m key : Nat) : kmdToSig k m key = none := if_neg (by omega)

theorem kmdToSig_of_range {k : Nat} (h0 : 0 < k) (hN : k < N) (m key : Nat) :
    kmdToSig k m key =
      let a := aff (smul pointG k)
      let r := a.x.toNat % N
      let v := nInv k * (m + key * r) % N
      if r = 0 ∨ v = 0 then none else some ⟨r, v, recoveryId a.x.toNat r a.y.toNat⟩ :=
  (if_pos ⟨h0, hN⟩).trans (ite_or ..).symm

/-- The two parts of a recovery id are its two bits. -/
theorem recoveryId_eq_or (rx r ry : Nat) : recoveryId rx r ry = (if rx = r then 0 else 2) ||| BitVec.ofNat 2 (ry % 2) := by
  rw [recoveryId]
  rcases Nat.mod_two_eq_zero_or_one ry with h | h <;> rw [h] <;> split <;> rfl

/-- The s of a signing attempt solves k s = m + d r mod n. -/
theorem mul_nInv_mul {k : Nat} (h : Nat.gcd k N = 1) (x : Nat) : k * (nInv k * x % N) % N = x % N := by
  rw [Nat.mul_mod_mod, ← mul_assoc, Nat.mul_mod, mul_nInv h, one_mul, Nat.mod_mod]

/-- Settles O50: s is the inverse of the candidate times m + d r. -/
theorem oneSigningAttempt : Obligations.OneSigningAttempt := by
  refine fun k m key => ⟨fun h => kmdToSig_of_out h m key, fun h0 hN hk => ?_⟩
  intro a r
  rw [kmdToSig_of_range h0 hN, ← recoveryId_eq_or]
  exact ⟨_, Nat.mod_lt _ N_pos, mul_nInv_mul hk _, rfl⟩

/-! ### EVERIFY and SVERIFY (R427, 46_schnorr R453) -/

/-- The point that `verifyE` compares with r, for an inverse w of s. -/
def verifyPoint (t : Point) (h : List Byte) (r : Word) (w : Nat) : Point :=
  add (smul pointG (msgScalar h * w % N)) (smul (fromAff (aff t)) (r.toNat * w % N))

theorem verifyE_iff (nostrict : Bool) (r v : Word) (t : Point) (h : List Byte) :
    verifyE nostrict r v t h = true ↔
      (0 < r.toNat ∧ r.toNat < N ∧ 0 < v.toNat ∧ v.toNat < N) ∧ (nostrict = true ∨ v.toNat ≤ N / 2) ∧ valid (aff t) = true ∧
        (verifyPoint t h r (nInv v.toNat)).z ≠ 0 ∧ (aff (verifyPoint t h r (nInv v.toNat))).x.toNat % N = r.toNat := by
  have hlow : ¬(nostrict = false ∧ isHigh v = true) ↔ nostrict = true ∨ v.toNat ≤ N / 2 := by
    rw [isHigh_eq_decide]; cases nostrict <;> simp
  rw [verifyE, ← isSig_iff, ← hlow, verifyPoint]
  simp only [Bool.if_false_left, Bool.and_eq_true, Bool.not_eq_true', decide_eq_false_iff_not, Bool.not_eq_false,
    beq_iff_eq, ne_eq]

theorem exec_everify (a b : RegIdx) (c : PtIdx) {addr len : BitVec 12} (nostrict : Bool) (s : State)
    (hb : addr.toNat + len.toNat ≤ 4096) (hl : len.toNat ≠ 0) :
    exec (.everify a b c addr len nostrict) s = .next { s with
      res := verifyE nostrict (s.getR a) (s.getR b) (s.getQ c) (s.readBuf addr.toNat len.toNat), done := true } :=
  complete_bind_of_ok (s.fetchHash_ok hb hl) s _

theorem exec_sverify (a b px : RegIdx) {addr len : BitVec 12} (s : State) (hb : addr.toNat + len.toNat ≤ 4096) :
    exec (.sverify a b px addr len) s = .next { s with
      res := verifyS (s.getR a) (s.getR b) (s.getR px) (s.readBuf addr.toNat len.toNat), done := true } :=
  complete_bind_of_ok (checkBuf_of_le hb) s _

/-- Settles O51: RES is what `verifyE` and `verifyS` decide, and any inverse of s mod n is the one `verifyE` computes. -/
theorem verifyCommandsWriteRes : Obligations.VerifyCommandsWriteRes := by
  intro a b c px addr len nostrict s r v msg
  refine ⟨fun hb => ⟨complete_bind_of_error (s.fetchHash_of_gt hb) s _, complete_bind_of_error (checkBuf_of_gt hb) s _⟩,
    fun hb hl => complete_bind_of_error (s.fetchHash_of_empty hb hl) s _,
    fun hb hl => ⟨_, exec_everify a b c nostrict s hb hl, ?_⟩,
    fun hb => ⟨_, exec_sverify a b px s hb, verifyS_iff _ _ _ _⟩⟩
  have hiff := verifyE_iff nostrict r v (s.getQ c) msg
  refine ⟨fun hout => ?range, fun hstrict hhigh => ?high, fun hkey => ?key, fun w hw hinv => ?inverse⟩
  case range => exact Bool.eq_false_of_not_eq_true fun h => hout (hiff.1 h).1
  case high =>
    refine Bool.eq_false_of_not_eq_true fun h => ?_
    obtain ⟨-, hlow, -⟩ := hiff.1 h
    simp [hstrict, Nat.not_le_of_lt hhigh] at hlow
  case key =>
    refine Bool.eq_false_of_not_eq_true fun h => ?_
    obtain ⟨-, -, hvalid, -⟩ := hiff.1 h
    exact absurd hvalid (Bool.eq_false_iff.1 hkey)
  case inverse =>
    rw [nInv_unique hw hinv] at hiff
    exact hiff

/-! ### ERECOVER (R428) -/

theorem exec_erecover (d : PtIdx) (a b : RegIdx) {addr len : BitVec 12} (s : State) (hb : addr.toNat + len.toNat ≤ 4096)
    (hl : len.toNat ≠ 0) :
    exec (.erecover d a b addr len) s = complete s (require (isSig (s.getR a) (s.getR b)) .range >>= fun _ =>
      require (decide (s.recid.toNat ≤ 1)) .recId >>= fun _ => lift (s.getR a) (s.recid.toNat % 2) >>= fun ra =>
      let x := recoverPoint ra (s.getR a) (s.getR b) (s.readBuf addr.toNat len.toNat)
      require (x.z != 0) .point >>= fun _ => .ok (s.setQ d (norm x))) :=
  complete_bind_of_ok (s.fetchHash_ok hb hl) s _

/-- The last steps of ERECOVER: the point found, or E_POINT for the identity. -/
theorem complete_setQ_norm_of_identity (s : State) (d : PtIdx) {x : Point} (hx : x.z = 0) :
    complete s (require (x.z != 0) .point >>= fun _ => .ok (s.setQ d (norm x))) = .next (s.raise .point) :=
  complete_require_false (by rw [hx]; rfl) ..

theorem complete_setQ_norm_of_ne (s : State) (d : PtIdx) {x : Point} (hx : x.z ≠ 0) :
    complete s (require (x.z != 0) .point >>= fun _ => .ok (s.setQ d (norm x))) =
      .next { s with q := s.q.set d (norm x), done := true } :=
  complete_bind_of_ok (y := ()) (require_eq_ok.2 (bne_iff_ne.2 hx)) s _

/-- The negation mod n of ERECOVER's u1, on natural numbers and on integers. -/
theorem sub_mod_eq_neg_emod (x : Nat) : (N - x % N) % N = (-(x : Int) % N).toNat := by
  have hlt : x % N < N := Nat.mod_lt x N_pos
  have h : ((N - x % N : Nat) : Int) ≡ -x [ZMOD N] := by
    rw [Nat.cast_sub hlt.le, Int.natCast_mod, Int.modEq_iff_dvd]
    exact ⟨-(x / N) - 1, by linear_combination Int.emod_add_mul_ediv (x : Int) N⟩
  rw [← h.eq, ← Int.natCast_mod, Int.toNat_natCast]

theorem recoverPoint_eq (ra : AffPoint) (r v : Word) (h : List Byte) :
    recoverPoint ra r v h = add (smul pointG (-((msgScalar h * nInv r.toNat : Nat) : Int) % N).toNat)
      (smul (fromAff ra) (v.toNat * nInv r.toNat % N)) := by
  rw [recoverPoint, sub_mod_eq_neg_emod]

/-- Settles O52: the checks pass one after the other, and the point is `recoverPoint`'s. -/
theorem erecoverWritesTheKey : Obligations.ErecoverWritesTheKey := by
  intro d a b addr len s go m r
  refine ⟨fun hb => complete_bind_of_error (s.fetchHash_of_gt hb) s _,
    fun hb hl => complete_bind_of_error (s.fetchHash_of_empty hb hl) s _, fun hb hl => ?_⟩
  have hgo : go = _ := exec_erecover d a b s hb hl
  refine ⟨fun hsig => ?range, fun hsig hid => ?recId, fun hsig hid => ?recovers⟩
  case range => exact hgo.trans (complete_require_false hsig ..)
  case recId =>
    have hbad : decide (s.recid.toNat ≤ 1) = false := by obtain h | h := hid <;> rw [h] <;> rfl
    rw [hgo, complete_bind_of_ok (y := ()) (require_eq_ok.2 hsig), complete_require_false hbad]
  case recovers =>
    have hid1 : decide (s.recid.toNat ≤ 1) = true := by obtain h | h := hid <;> rw [h] <;> rfl
    have hpar : s.recid.toNat % 2 = s.recid.toNat := by obtain h | h := hid <;> rw [h] <;> rfl
    rw [complete_bind_of_ok (y := ()) (require_eq_ok.2 hsig), complete_bind_of_ok (y := ()) (require_eq_ok.2 hid1), hpar] at hgo
    cases hlift : lift (s.getR a) s.recid.toNat with
    | error e => exact hgo.trans (complete_bind_of_error (lift_error hlift ▸ hlift) s _)
    | ok ra =>
      rw [complete_bind_of_ok hlift, recoverPoint_eq] at hgo
      exact ⟨nInv r, nInv_lt r, mul_nInv, fun hx => hgo.trans (complete_setQ_norm_of_identity s d hx),
        fun hx => hgo.trans (complete_setQ_norm_of_ne s d hx)⟩

end Sys2Proof.Machine
end

section
/-! PROOFS. ESIGN: its checks and its draw, and the signing loop over the HMAC-DRBG with its inputs written out (45_ecdsa R421 to R426). -/

namespace Sys2Proof.Machine

/-! ### The checks and the draw (R426) -/

section
variable {a : RegIdx} {addr len : BitVec 12} {ent : BitVec 2} {s : State}

/-- ENT is 1 exactly when its value is, and so the region that ESIGN checks is that of the statement. -/
theorem esignRegion_eq (addr len : BitVec 12) (ent : BitVec 2) :
    addr.toNat + (len.toNat + if ent.toNat = 1 then 32 else 0) = addr.toNat + len.toNat + if ent = 1 then 32 else 0 := by
  have h1 : ent.toNat = 1 ↔ ent = 1 := BitVec.toNat_inj (y := 1)
  rw [← add_assoc, if_congr h1 rfl rfl]

theorem toNat_ne_three (h : ent ≠ 3) : ent.toNat ≠ 3 := fun h3 => h (BitVec.eq_of_toNat_eq h3)

theorem esignInput_past_buf (h : ent ≠ 3) (hb : 4096 < addr.toNat + len.toNat + if ent = 1 then 32 else 0) :
    esignInput a addr len ent s = .error .bufRange := by
  rw [esignInput_eq, if_neg (toNat_ne_three h), esignRegion_eq, if_neg (Nat.not_le_of_lt hb)]

theorem esignInput_of_empty (h : ent ≠ 3) (hb : addr.toNat + len.toNat + (if ent = 1 then 32 else 0) ≤ 4096) (hl : len.toNat = 0) :
    esignInput a addr len ent s = .error .encoding := by
  rw [esignInput_eq, if_neg (toNat_ne_three h), esignRegion_eq, if_pos hb, if_pos hl]

theorem esignInput_of_nonempty (h : ent ≠ 3) (hb : addr.toNat + len.toNat + (if ent = 1 then 32 else 0) ≤ 4096)
    (hl : len.toNat ≠ 0) : esignInput a addr len ent s =
      if inScalarRange (s.getR a) then .ok (s.readBuf addr.toNat len.toNat) else .error .range := by
  rw [esignInput_eq, if_neg (toNat_ne_three h), esignRegion_eq, if_pos hb, if_neg hl]

/-- What ESIGN draws, and the state after the draw. -/
theorem State.entropy_eq (s : State) (addr len : BitVec 12) (h : ent ≠ 3) :
    s.entropy addr len ent =
      (if ent = 1 then s.readBuf (addr.toNat + len.toNat) 32
        else if ent = 2 then (List.range 32).map (fun j => Config.rngByte (s.draws + j)) else [],
      if ent = 2 then { s with draws := s.draws + 32 } else s) := by
  have hent : ∀ e : BitVec 2, e ≠ 3 → e = 0 ∨ e = 1 ∨ e = 2 := by decide
  obtain rfl | rfl | rfl := hent ent h <;> rfl

/-- ESIGN where one of its checks fails: it draws nothing. -/
theorem exec_esign_of_error (d : RegIdx) (nocanon : Bool) {e : Err} (h : esignInput a addr len ent s = .error e) :
    exec (.esign d a addr len nocanon ent) s = .next (s.raise e) := by
  show execEsign d a addr len nocanon ent s = _
  rw [execEsign, h]; rfl

/-- ESIGN where its checks pass: the state t after the draw ends with the signature, or reports E_DRBG. -/
theorem exec_esign_of_ok (d : RegIdx) (nocanon : Bool) {t : State} {msg entropy : List Byte}
    (h : esignInput a addr len ent s = .ok msg) (hdraw : s.entropy addr len ent = (entropy, t)) :
    exec (.esign d a addr len nocanon ent) s =
      complete t (esignRun nocanon (s.getR a).toNat (msgScalar msg) entropy >>= fun sc => .ok (t.writeSig d sc.1 sc.2)) := by
  show execEsign d a addr len nocanon ent s = _
  rw [execEsign, h, hdraw]

end

/-! ### The DRBG (R422 to R424) -/

/-- HMAC_SHA256 with its digest as bytes. -/
def hmacBytes (key msg : List Byte) : List Byte := be32 (Config.hmacSha256 key msg)

/-- K and V, as bytes, after each number of failed candidates: a retry generates, then reseeds with the empty string. -/
structure Retries (K V : Nat → List Byte) : Prop where
  key (j : Nat) : K (j + 1) = hmacBytes (K j) (hmacBytes (K j) (V j) ++ [0x00])
  value (j : Nat) : V (j + 1) = hmacBytes (K (j + 1)) (hmacBytes (K j) (V j))

/-- The DRBG g is in the state before candidate j. -/
structure Drbg.At (K V : Nat → List Byte) (j : Nat) (g : Drbg) : Prop where
  key : be32 g.k = K j
  value : be32 g.v = V j
  count : g.cnt = j

/-- Candidate number j. -/
def drbgCandidate (K V : Nat → List Byte) (j : Nat) : Nat := be (hmacBytes (K j) (V j))

/-- The seeding of a new DRBG: two rounds, as the seed is not empty. -/
theorem reseed_drbgNew_at {K V : Nat → List Byte} {seed : List Byte} (hseed : seed.isEmpty = false) {k1 v1 : List Byte}
    (hk1 : k1 = hmacBytes (List.replicate 32 0x00) (List.replicate 32 0x01 ++ [0x00] ++ seed))
    (hv1 : v1 = hmacBytes k1 (List.replicate 32 0x01)) (hK : K 0 = hmacBytes k1 (v1 ++ [0x01] ++ seed))
    (hV : V 0 = hmacBytes (K 0) v1) : (reseed drbgNew seed).At K V 0 := by
  have hk : be32 drbgNew.k = List.replicate 32 0x00 := by decide
  have hv : be32 drbgNew.v = List.replicate 32 0x01 := by decide
  rw [← hk, ← hv] at hk1
  rw [← hv] at hv1
  subst hk1 hv1
  rw [hK] at hV
  rw [reseed, hseed]
  exact ⟨hK.symm, hV.symm, rfl⟩

section
variable {K V : Nat → List Byte} {j : Nat} {g : Drbg}

theorem generate_of_lt (h : g.cnt < 1000) :
    generate g = .ok ((Config.hmacSha256 (be32 g.k) (be32 g.v)).toNat,
      { g with v := Config.hmacSha256 (be32 g.k) (be32 g.v), cnt := g.cnt + 1, phase := .generating }) :=
  if_neg (Nat.not_le_of_lt h)

/-- Below the cap the DRBG generates its candidate, and reseeding with the empty string leads to the state before the next one. -/
theorem Drbg.At.generate_retry (h : g.At K V j) (hr : Retries K V) (hj : j < 1000) :
    ∃ g', generate g = .ok (drbgCandidate K V j, g') ∧ g'.cnt = j + 1 ∧ (reseed g' []).At K V (j + 1) := by
  obtain ⟨hk, hv, rfl⟩ := h
  have hkey := hr.key g.cnt
  have hvalue := hr.value g.cnt
  have hcand : drbgCandidate K V g.cnt = (Config.hmacSha256 (be32 g.k) (be32 g.v)).toNat := by
    rw [drbgCandidate, ← hk, ← hv, hmacBytes, be_be32]
  rw [hkey] at hvalue
  rw [← hk, ← hv, ← List.append_nil (_ ++ [_])] at hkey hvalue
  rw [hcand]
  exact ⟨_, generate_of_lt hj, rfl, hkey.symm, hvalue.symm, rfl⟩

/-- At the cap no candidate is left. -/
theorem Drbg.At.generate_eq_error (h : g.At K V j) (hj : 1000 ≤ j) : generate g = .error .drbg :=
  if_pos (h.count ▸ hj)

/-! ### The signing loop (R426) -/

variable {m key : Nat}

theorem signLoop_of_fail (h : g.At K V j) (hr : Retries K V) (hj : j < 1000)
    (hfail : kmdToSig (drbgCandidate K V j) m key = none) (f : Nat) :
    ∃ g' : Drbg, g'.At K V (j + 1) ∧ signLoop (f + 1) g m key = signLoop f g' m key := by
  obtain ⟨g', hgen, -, hat⟩ := h.generate_retry hr hj
  exact ⟨_, hat, by rw [signLoop, hgen]; simp only [hfail]⟩

theorem signLoop_of_sig (h : g.At K V j) (hr : Retries K V) (hj : j < 1000) {sig : EcdsaSig}
    (hsig : kmdToSig (drbgCandidate K V j) m key = some sig) (f : Nat) : signLoop (f + 1) g m key = .ok (sig, j + 1) := by
  obtain ⟨g', hgen, hcnt, -⟩ := h.generate_retry hr hj
  rw [signLoop, hgen]; simp only [hsig, hcnt]

/-- If every candidate fails, the loop reports E_DRBG. -/
theorem signLoop_eq_error (hr : Retries K V) (f : Nat) (h : g.At K V j)
    (hfail : ∀ i < 1000, kmdToSig (drbgCandidate K V i) m key = none) : signLoop f g m key = .error .drbg := by
  induction f generalizing g j with
  | zero => rfl
  | succ f ih =>
    by_cases hj : j < 1000
    · obtain ⟨g', hat, hnext⟩ := signLoop_of_fail h hr hj (hfail j hj) f
      rw [hnext, ih hat]
    · rw [signLoop, h.generate_eq_error (Nat.le_of_not_lt hj)]

/-- The loop from candidate i gives the first candidate from there on that signs, when its bound reaches it. -/
theorem signLoop_eq_ok (hr : Retries K V) {i f : Nat} (h : g.At K V i) (hij : i ≤ j) (hjf : j < i + f) (hj : j < 1000)
    (hfail : ∀ i < j, kmdToSig (drbgCandidate K V i) m key = none) {sig : EcdsaSig}
    (hsig : kmdToSig (drbgCandidate K V j) m key = some sig) : signLoop f g m key = .ok (sig, j + 1) := by
  induction f generalizing g i with
  | zero => omega
  | succ f ih =>
    obtain rfl | hlt := hij.eq_or_lt
    · exact signLoop_of_sig h hr hj hsig f
    · obtain ⟨g', hat, hnext⟩ := signLoop_of_fail h hr (by omega) (hfail i hlt) f
      rw [hnext, ih hat hlt (by omega)]

end

/-- The low-S step of ESIGN. -/
theorem canonicalSig_eq (nocanon : Bool) (sig : EcdsaSig) :
    (if nocanon then sig else canonicalSig sig) =
      if nocanon = false ∧ N / 2 < sig.s then ⟨sig.r, N - sig.s, sig.recid ^^^ 1⟩ else sig := by
  cases nocanon <;> simp [canonicalSig, halfN_eq]

theorem esignRun_of_error {nocanon : Bool} {key m : Nat} {entropy : List Byte} {e : Err}
    (h : signLoop (drbgCap + 1) (reseed drbgNew (signSeed key m ++ entropy)) m key = .error e) :
    esignRun nocanon key m entropy = .error e := by
  rw [esignRun, h]

theorem esignRun_of_ok {nocanon : Bool} {key m cnt : Nat} {entropy : List Byte} {sig : EcdsaSig}
    (h : signLoop (drbgCap + 1) (reseed drbgNew (signSeed key m ++ entropy)) m key = .ok (sig, cnt)) :
    esignRun nocanon key m entropy =
      .ok (if nocanon = false ∧ N / 2 < sig.s then ⟨sig.r, N - sig.s, sig.recid ^^^ 1⟩ else sig, cnt) := by
  rw [esignRun, h, ← canonicalSig_eq]

/-- Settles O49: the checks and the draw come before the loop, which tries the DRBG's candidates one after the other. -/
theorem esignSigns : Obligations.EsignSigns := by
  refine ⟨?command, msgScalar_eq, ?loop⟩
  case command =>
    intro d a addr len nocanon ent s need key drawn entropy
    refine ⟨fun h => ?illegal, fun h hb => exec_esign_of_error d nocanon (esignInput_past_buf h hb),
      fun h hb hl => exec_esign_of_error d nocanon (esignInput_of_empty h hb hl), fun h hb hl hout => ?range,
      fun h hb hl h0 hN => ?signs⟩
    case illegal => subst h; exact exec_of_not_wellFormed rfl s
    case range =>
      have hbad : inScalarRange (s.getR a) = false := decide_eq_false (by omega)
      exact exec_esign_of_error d nocanon (by rw [esignInput_of_nonempty h hb hl, hbad]; rfl)
    case signs =>
      have hgood : inScalarRange (s.getR a) = true := decide_eq_true ⟨h0, hN⟩
      have hrun := exec_esign_of_ok d nocanon ((esignInput_of_nonempty h hb hl).trans (if_pos hgood)) (s.entropy_eq addr len h)
      obtain hrej | ⟨sig, cnt, hok, hcnt1, hcnt2, hr0, hrN, hs0, hsN, hlow⟩ :=
        esignRun_cases nocanon key (msgScalar (s.readBuf addr.toNat len.toNat)) entropy
      · rw [hrej]
        exact hrun.trans (complete_bind_of_error hrej _ _)
      · rw [hok]
        have hr : drawn.r = s.r := by dsimp only [drawn]; split <;> rfl
        rw [← hr]
        exact ⟨hr0, hrN, hs0, hsN, hlow, hcnt1, hcnt2, hrun.trans (complete_bind_of_ok hok _ _)⟩
  case loop =>
    intro nocanon key m entropy K V hmac k0 v0 seed k1 v1 cand hK hV hKs hVs
    have hretries : Retries K V := ⟨hKs, hVs⟩
    have hstart : (reseed drbgNew seed).At K V 0 := reseed_drbgNew_at rfl rfl rfl hK hV
    exact ⟨fun hfail => esignRun_of_error (signLoop_eq_error hretries _ hstart hfail),
      fun j sig hj hfail hsig => esignRun_of_ok (signLoop_eq_ok hretries hstart (Nat.zero_le j) (by rw [drbgCap]; omega) hj hfail hsig)⟩

end Sys2Proof.Machine
end

section
/-! PROOFS. How a command ends: precise errors, the first error kept, and the interrupt line (60_exceptions R510, R520, R531). -/

namespace Sys2Proof.Machine

/-! ### The end of a command (R510) -/

/-- An error with the word w in flight sets ERR and DONE, and is reported with w unless ERR is set already. -/
theorem State.raise_of_inflight {s : State} {w : Cmd} (h : s.inflight = some w) (e : Err) :
    s.raise e = { s with
      err := true
      done := true
      errcode := if s.err then s.errcode else some e
      errcmd := if s.err then s.errcmd else w } := by
  rw [State.raise, h, Option.getD_some]

theorem State.raise_of_no_err {s : State} {w : Cmd} (h : s.inflight = some w) (hs : s.err = false) (e : Err) :
    s.raise e = { s with err := true, done := true, errcode := some e, errcmd := w } := by
  rw [State.raise_of_inflight h, hs]
  rfl

/-- Settles O9: `complete` commits the staged state, or reports the error with the word in flight. -/
theorem howACommandEnds : Obligations.HowACommandEnds :=
  fun _ _ _ e h => ⟨rfl, congrArg _ (State.raise_of_inflight h e)⟩

/-! ### Errors are precise (R510) -/

/-- ERR is 1 in t only if it was in s. -/
def SetsNoErr (s t : State) : Prop := t.err = true → s.err = true

/-- The answer is the end of a rule that began in s: an error is reported from s with some draws consumed, and what a success commits
has ERR set only if s has. -/
def EndsPrecisely (s : State) (o : Outcome) : Prop :=
  ∃ n r, o = complete { s with draws := s.draws + n } r ∧ Yields (SetsNoErr s) r

/-- A success that has left ERR as it was. -/
theorem Yields.sameErr {s t : State} (h : t.err = s.err := by rfl) : Yields (SetsNoErr s) (.ok t) :=
  .ok h.symm.trans

theorem EndsPrecisely.complete {s : State} {r : Except Err State} (h : Yields (SetsNoErr s) r) : EndsPrecisely s (complete s r) :=
  ⟨0, r, rfl, h⟩

/-- A rule that goes on from the state u after its draw. -/
theorem EndsPrecisely.complete_drawn {s u : State} {n : Nat} (hu : u = { s with draws := s.draws + n }) {r : Except Err State}
    (h : Yields (SetsNoErr u) r) : EndsPrecisely s (Machine.complete u r) := by
  subst hu
  exact ⟨n, r, rfl, h⟩

/-- ESIGN's extra entropy changes the count of draws only (45_ecdsa R426). -/
theorem State.entropy_frame (s : State) (addr len : BitVec 12) (ent : BitVec 2) :
    ∃ n, (s.entropy addr len ent).2 = { s with draws := s.draws + n } := by
  unfold State.entropy
  split
  · exact ⟨0, rfl⟩
  · exact ⟨32, rfl⟩
  · exact ⟨0, rfl⟩

/-- SSIGN's auxiliary randomness changes the count of draws only (46_schnorr R452). -/
theorem State.auxRand_frame (s : State) (addr len : BitVec 12) (auxbuf : Bool) :
    ∃ n, (s.auxRand addr len auxbuf).2 = { s with draws := s.draws + n } := by
  cases auxbuf
  · exact ⟨32, rfl⟩
  · exact ⟨0, rfl⟩

/-- A write of a CSR sets no ERR: a write of STATUS can only clear it (10_state R42). -/
theorem State.err_of_csrWrite {s : State} {n : Nat} {v : Cmd} (h : (s.csrWrite n v).err = true) : s.err = true := by
  rcases s.csrWrite_cases n v with ⟨-, e⟩ | ⟨-, e⟩ | ⟨-, e⟩ | e <;> rw [e] at h
  · exact Bool.and_elim_left h
  · exact h
  · exact h
  · exact h

theorem State.setProduct_err (s : State) (d : PtIdx) (t p : Point) : (s.setProduct d t p).err = s.err := by
  rw [State.setProduct_frame]

theorem State.emit_keeps_err (s : State) (addr : BitVec 12) (out : List Byte) :
    Yields (SetsNoErr s) (s.emit addr out) :=
  .bind fun _ _ => .sameErr

theorem State.emitWithLength_keeps_err (s : State) (addr : BitVec 12) (out : List Byte) :
    Yields (SetsNoErr s) (s.emitWithLength addr out) :=
  .bind fun t ht => .ok (s.emit_keeps_err addr out t ht)

/-- Every command's checks come before its writes, only ESIGN and SSIGN draw before a check can fail, and no write sets ERR. -/
theorem exec_endsPrecisely (i : Instr) (s : State) : EndsPrecisely s (exec i s) := by
  cases i
  case nop | ldi | mov | rcmp | rodd | fadd | fsub | fmul | fsqr | fneg | fpow | fsqrt | fred | nadd | nsub | nmul | nneg | nred | pget
      | pgetj | pldg | pzero | pmov | pneg | pdbl | padd | peq | paff | pendo | pwei | cinv => exact .complete .sameErr
  case finv | ninv | nchk | pchk | csrr | spub | shighs | everify | sverify | precomp => exact .complete (.bind fun _ _ => .sameErr)
  case ld | nsplit | pset | ptdec | sigdec | derdec | schdec => exact .complete (.bind fun _ _ => .bind fun _ _ => .sameErr)
  case sigenc | rsigenc | schenc => exact .complete (.bind fun _ _ => s.emit_keeps_err _ _)
  case st | psetj | rsigdec => exact .complete (.bind fun _ _ => .bind fun _ _ => .bind fun _ _ => .sameErr)
  case erecover =>
    exact .complete (.bind fun _ _ => .bind fun _ _ => .bind fun _ _ => .bind fun _ _ => .bind fun _ _ => .sameErr)
  case ldc =>
    refine .complete ?_
    split
    · exact .sameErr
    · exact .error _
  case snorm => exact .complete (.bind fun _ _ => .ite (fun _ => .sameErr) fun _ => .sameErr)
  case csrw => exact .complete (.bind fun _ _ => .bind fun _ _ => .ok State.err_of_csrWrite)
  case fbinv => exact .complete (.bind fun _ _ => .sameErr (s.setRegs_err _ _))
  case paffb => exact .complete (.bind fun _ _ => .sameErr (s.setPts_err _ _))
  case mul => exact .complete (.bind fun _ _ => .bind fun _ _ => .sameErr (s.setProduct_err _ _ _))
  case mulu => exact .complete (.bind fun _ _ => .sameErr (s.setProduct_err _ _ _))
  case derenc => exact .complete (.bind fun _ _ => s.emitWithLength_keeps_err _ _)
  case ptenc => exact .complete (.bind fun _ _ => .bind fun _ _ => s.emitWithLength_keeps_err _ _)
  case esign d a addr len nocanon ent =>
    obtain ⟨n, hdrawn⟩ := s.entropy_frame addr len ent
    show EndsPrecisely s (execEsign ..)
    unfold execEsign
    split
    · exact .complete (.error _)
    · exact .complete_drawn hdrawn (.bind fun _ _ => .sameErr)
  case ssign d a addr len auxbuf =>
    obtain ⟨n, hdrawn⟩ := s.auxRand_frame addr len auxbuf
    show EndsPrecisely s (execSsign ..)
    unfold execSsign
    split
    · exact .complete (.error _)
    · exact .complete_drawn hdrawn (.bind fun _ _ => .sameErr)

/-- Settles O11: ERR turned 1, so the rule failed, and its error was reported from the start but for the draws consumed. -/
theorem errorsArePrecise : Obligations.ErrorsArePrecise := by
  intro i s t w hw hs ht herr
  obtain ⟨n, r, hend, hok⟩ := exec_endsPrecisely i s
  rw [hend] at ht
  rcases complete_cases { s with draws := s.draws + n } r with ⟨u, hr, hu⟩ | ⟨e, -, he⟩
  · cases hu.symm.trans ht
    exact nomatch hs.symm.trans (hok u hr herr)
  · cases he.symm.trans ht
    exact ⟨Nat.le_add_right _ _, e, State.raise_of_no_err (s := { s with draws := s.draws + n }) hw hs e⟩

/-! ### The first error is kept (R510, R531) -/

/-- ERR, ERRCODE and ERRCMD are in t what they were in s. -/
def SameReport (s t : State) : Prop := t.err = s.err ∧ t.errcode = s.errcode ∧ t.errcmd = s.errcmd

theorem SameReport.trans {s t u : State} (h : SameReport s t) (h' : SameReport t u) : SameReport s u := by
  obtain ⟨herr, hcode, hcmd⟩ := h
  obtain ⟨herr', hcode', hcmd'⟩ := h'
  exact ⟨herr'.trans herr, hcode'.trans hcode, hcmd'.trans hcmd⟩

/-- An error raised while ERR = 1 is not reported. -/
theorem SameReport.raise {s : State} (h : s.err = true) (e : Err) : SameReport s (s.raise e) := by
  simp [SameReport, h]

/-- A write of STATUS with bit 2 clear leaves the report (10_state R42). -/
theorem SameReport.writeStatus {s : State} {v : Cmd} (h : v.getLsbD 2 = false) : SameReport s (s.writeStatus v) := by
  simp [SameReport, -BitVec.getLsbD_eq_getElem, h]

/-- A write of STATUS with bit 2 set clears the report (10_state R42). -/
theorem State.writeStatus_clears_report {s : State} {v : Cmd} (h : v.getLsbD 2 = true) :
    (s.writeStatus v).err = false ∧ (s.writeStatus v).errcode = none ∧ (s.writeStatus v).errcmd = 0 := by
  simp [-BitVec.getLsbD_eq_getElem, h]

/-- A command other than CSRW of STATUS keeps the report of an error. -/
theorem exec_sameReport {i : Instr} {s t : State} (hi : (footprint s i).ovr = false) (hs : s.err = true)
    (ht : exec i s = .next t) : SameReport s t := by
  refine (exec_stagedBy i s).of_next ht (fun u hu => hu.report hi) fun u e hu => ?error
  have hreport : SameReport s u := hu.report hi
  exact hreport.trans (.raise (hreport.1.trans hs) e)

/-- Settles O12: of the commands only CSRW of STATUS writes the error report, and it does so exactly by bit 2 of the register. -/
theorem theFirstErrorIsKept : Obligations.TheFirstErrorIsKept := by
  intro i s t hs ht
  have kept (h : SameReport s t) : t.err = true ∧ t.errcode = s.errcode ∧ t.errcmd = s.errcmd := ⟨h.1.trans hs, h.2⟩
  cases hovr : (footprint s i).ovr
  case false => exact .inl (kept (exec_sameReport hovr hs ht))
  case true =>
    obtain ⟨a, csr, rfl⟩ := footprint_ovr hovr
    obtain rfl : csr = 1 := beq_iff_eq.mp hovr
    have hbit : ((s.getR a).setWidth 64).getLsbD 2 = (s.getR a).getLsbD 2 := getLsbD_setWidth_of_lt _ (by decide)
    cases (exec_csrw a s rfl).symm.trans ht
    cases h : (s.getR a).getLsbD 2
    case false => exact .inl (kept (.writeStatus (hbit.trans h)))
    case true => exact .inr ⟨⟨a, rfl, h⟩, State.writeStatus_clears_report (hbit.trans h)⟩

/-! ### The interrupt line (R520) -/

theorem exec_done {i : Instr} {s t : State} (h : exec i s = .next t) : t.done = true :=
  (exec_stagedBy i s).of_next (L := fun t => t.done = true) h (fun _ _ => rfl) fun _ _ _ => rfl

theorem State.issue_of_idle {s : State} (h : s.inflight = none) (w : Cmd) :
    s.issue w = { s with inflight := some w, done := false } := by
  simp [State.issue, State.busy, h]

/-- Settles O13: DONE is set after every command and cleared by its issue. -/
theorem interruptSignalsCompletion : Obligations.InterruptSignalsCompletion := by
  refine ⟨fun i s t h => ?after, fun s w h => ?issue, fun s k => ?input⟩
  case after => rw [State.irq, exec_done h, Bool.and_true]
  case issue => rw [State.issue_of_idle h, State.irq, Bool.and_false]
  case input => simp [State.irqInput, State.irq]

end Sys2Proof.Machine
end

section
/-! PROOFS. Steps, commands and runs: every step answers, a run's last move is followed by the execute step, and what reset leaves
(70_reset R600, R620, R630, R633, R634). -/

namespace Sys2Proof.Machine

/-! ### Commands and the engine's turn (R630) -/

/-- Settles O10: how a command ends, with its writes or with an error, sets DONE. -/
theorem everyCommandEndsWithDone : Obligations.EveryCommandEndsWithDone := by
  intro i s
  obtain ⟨u, -, h | ⟨e, h⟩⟩ := exec_stagedBy i s
  · exact ⟨u.markDone, h, rfl⟩
  · exact ⟨u.raise e, h, rfl⟩

theorem engineTurn_of_inflight {s : State} {w : Cmd} (h : s.inflight = some w) : engineTurn s = executeStep w s := by
  rw [engineTurn, h]

theorem engineTurn_of_idle {s : State} (h : s.inflight = none) : engineTurn s = .next s := by
  rw [engineTurn, h]

theorem step_of_no_host {s : State} (h : s.host = []) : step s = engineTurn s := by
  rw [step, h]

theorem step_of_pass {s : State} {rest : List HostOp} (h : s.host = .pass :: rest) : step s = engineTurn { s with host := rest } := by
  rw [step, h]

theorem executeStep_of_decode {w : Cmd} {i : Instr} (h : decode w = .ok i) (s : State) :
    executeStep w s = retireOutcome (exec i s) := by
  rw [executeStep, h]

/-- Settles O6: the engine's turn is the execute step of the word in flight, and nothing when there is none. -/
theorem stepRunsTheDecodedCommand : Obligations.StepRunsTheDecodedCommand := by
  refine ⟨fun s hhost hidle => ?idle, fun s w i rest hdecode => ⟨fun hw hturn => ?turn, ?placed⟩⟩
  case idle => rw [step_of_no_host hhost, engineTurn_of_idle hidle]
  case turn =>
    have hstep : step s = engineTurn { s with host := rest } := by
      obtain hpass | ⟨hhost, rfl⟩ := hturn
      · exact step_of_pass hpass
      · rw [step_of_no_host hhost, ← hhost]
    calc step s
      _ = engineTurn { s with host := rest } := hstep
      _ = executeStep w { s with host := rest } := engineTurn_of_inflight hw
      _ = retireOutcome (exec i { s with host := rest }) := executeStep_of_decode hdecode _
  case placed =>
    have hword : BitVec.ofNat 64 (w.toNat % 2 ^ 64) = w := by
      rw [Nat.mod_eq_of_lt w.isLt, BitVec.ofNat_toNat, BitVec.setWidth_eq]
    have hplaced : s.withFetchWord 64 w.toNat = { s with inflight := some w, done := false, host := .pass :: s.host } := by
      rw [State.withFetchWord, hword]
    rw [hplaced]
    calc step { s with inflight := some w, done := false, host := .pass :: s.host }
      _ = engineTurn { s with inflight := some w, done := false } := step_of_pass rfl
      _ = executeStep w { s with inflight := some w, done := false } := engineTurn_of_inflight rfl
      _ = retireOutcome (exec i { s with inflight := some w, done := false }) := executeStep_of_decode hdecode _

/-! ### Reset (R600, R620) -/

@[simp] theorem State.reset_getR (i : RegIdx) : State.reset.getR i = 0 := Vector.getElem_replicate i.isLt

@[simp] theorem State.reset_getQ (i : PtIdx) : State.reset.getQ i = zeroJ := Vector.getElem_replicate i.isLt

/-- Settles O7: each item of R600, and a clean entry of the run without a host move. -/
theorem resetLeavesTheValuesOfTheSpec : Obligations.ResetLeavesTheValuesOfTheSpec := by
  refine ⟨State.reset_getR, State.reset_getQ, fun _ => rfl, ?csrs, rfl, rfl, rfl, ?clean⟩
  case csrs => decide
  case clean => exact ⟨rfl, rfl, rfl, rfl, State.inputsGiven_idle rfl rfl⟩

/-- Settles O8: a reset step is `resetStep`, which leaves no byte of BUF written. -/
theorem resetStepSetsEveryItem : Obligations.ResetStepSetsEveryItem := by
  intro s rest h
  have hstep : step s = .next ({ s with host := rest } : State).resetStep := by rw [step, h]; rfl
  refine ⟨hstep, fun t ht x => ?_⟩
  cases hstep.symm.trans ht
  rfl

/-! ### Runs (R630, R633, R634) -/

/-- The engine's turn always answers; it leaves the host's moves, and no command in flight. -/
theorem engineTurn_answers (s : State) : ∃ t, engineTurn s = .next t ∧ t.host = s.host ∧ t.inflight = none := by
  cases hw : s.inflight with
  | none => exact ⟨s, engineTurn_of_idle hw, rfl, hw⟩
  | some w =>
    rw [engineTurn_of_inflight hw]
    obtain ⟨u, hu, h | ⟨e, h⟩⟩ := executeStep_ends (L := fun u => u.host = s.host) w rfl
      fun i => (exec_stagedBy i s).mono fun u hu => hu.outside.2.1
    · exact ⟨_, h, hu, rfl⟩
    · exact ⟨_, h, hu, rfl⟩

/-- Every step answers and takes one move of the host; a step after the last move leaves no command in flight. -/
theorem step_answers (s : State) : ∃ t, step s = .next t ∧ t.host = s.host.tail ∧ (s.host = [] → t.inflight = none) := by
  rcases step_cases s with ⟨hs, e⟩ | ⟨rest, hs, e⟩ | ⟨op, rest, hs, -, e⟩ <;> rw [e, hs]
  · obtain ⟨t, ht, hhost, hidle⟩ := engineTurn_answers s
    exact ⟨t, ht, hhost.trans hs, fun _ => hidle⟩
  · obtain ⟨t, ht, hhost, -⟩ := engineTurn_answers { s with host := rest }
    exact ⟨t, ht, hhost, nofun⟩
  · exact ⟨_, rfl, State.hostMove_host _ op, nofun⟩

theorem State.step_next (s : State) : step s = .next s.next := by
  obtain ⟨t, ht, -⟩ := step_answers s
  rw [State.next_of_step ht, ht]

theorem State.next_host (s : State) : s.next.host = s.host.tail := by
  obtain ⟨t, ht, hhost, -⟩ := step_answers s
  rw [State.next_of_step ht, hhost]

theorem State.next_inflight_of_no_host {s : State} (h : s.host = []) : s.next.inflight = none := by
  obtain ⟨t, ht, -, hidle⟩ := step_answers s
  rw [State.next_of_step ht, hidle h]

theorem State.after_host (s : State) (n : Nat) : (s.after n).host = s.host.drop n := by
  induction n with
  | zero => rfl
  | succ n ih => rw [State.after_succ, State.next_host, ih, List.tail_drop]

/-- The induction over a run, packaged: what every step keeps holds of every state of the run if it holds of the launch. -/
theorem State.after_keeps {K : State → Prop} (hstep : ∀ s t, step s = .next t → K s → K t) {s : State} (hs : K s) (n : Nat) :
    K (s.after n) := by
  induction n with
  | zero => exact hs
  | succ n ih => exact hstep _ _ (s.after n).step_next ih

theorem State.inflight_of_not_busy {s : State} (h : s.busy = false) : s.inflight = none := by
  simpa [State.busy] using h

theorem State.not_busy_of_idle {s : State} (h : s.inflight = none) : s.busy = false := by
  rw [State.busy, h, Option.isSome_none]

/-- The final state of a clean run shows no error, no overrun and no command in flight (R633). -/
theorem State.EndsClean.final {s : State} {n : Nat} (hs : s.ErrorReportConsistent) (h : s.EndsClean n) :
    (s.after n).inflight = none ∧ (s.after n).err = false ∧ (s.after n).errcode = none ∧ (s.after n).ovr = false := by
  obtain ⟨⟨⟨-, hbusy, -⟩, -⟩, hfault, hlost⟩ := h
  have herr : (s.after n).err = false := Bool.eq_false_iff.mpr fun h => hfault (.inl h)
  have hreport : (s.after n).ErrorReportConsistent :=
    State.after_keeps (fun s t h => (stepsKeepTheControlStateConsistent s t h).2.1) hs n
  exact ⟨State.inflight_of_not_busy hbusy, herr, (hreport.2 herr).1, Bool.eq_false_iff.mpr hlost⟩

/-- Settles O60: reset by its values; a clean run's end by R633's conditions and the error report's invariant, which every step
keeps; and the host's moves are used up one by one, after which the engine has the turn. -/
theorem resetMeetsEveryInvariant : Obligations.ResetMeetsEveryInvariant := by
  refine ⟨?invariants, fun ops hgiven => ?launch, fun s n ops hreport hclean hgiven => ?relaunch, fun s => ?executed⟩
  case invariants =>
    exact ⟨⟨.nil, nofun⟩, fun i => (State.reset_getQ i).symm ▸ zeroJ_canonical, .of_none rfl,
      ⟨nofun, fun _ => ⟨rfl, rfl⟩⟩, nofun, Nat.zero_le _, Nat.zero_le _⟩
  case launch => exact ⟨rfl, rfl, rfl, rfl, hgiven⟩
  case relaunch =>
    obtain ⟨hidle, herr, hcode, hovr⟩ := hclean.final hreport
    exact ⟨hidle, herr, hcode, hovr, hgiven⟩
  case executed =>
    have hlast : (s.after s.host.length).host = [] := by rw [State.after_host, List.drop_length]
    have hidle : (s.after (s.host.length + 1)).inflight = none := State.next_inflight_of_no_host hlast
    exact ⟨by rw [State.after_host, List.drop_eq_nil_of_le (Nat.le_succ _)], State.not_busy_of_idle hidle⟩

end Sys2Proof.Machine
end

section
/-! PROOFS. The host's accesses to BUF, the CSRs and CMD (20_memory R90 to R93, 70_reset R621 to R623). -/

namespace Sys2Proof.Machine

/-! ### The window (R90, R91) -/

theorem windowOffset_of_lt {off : Nat} (h : off < 0x2000) : windowOffset (Config.engineBase + off) = some off := by
  simp [windowOffset, h]

/-- The 8-byte slot n above BUF. -/
theorem windowOffset_slot {n : Nat} (h : n < 512) : windowOffset (Config.engineBase + 0x1000 + 8 * n) = some (0x1000 + 8 * n) := by
  rw [Nat.add_assoc, windowOffset_of_lt (by omega)]

theorem legalWidth_iff (w : Nat) : legalWidth w = true ↔ w ∈ [1, 2, 4, 8] := by
  simp [legalWidth, or_assoc]

theorem target_buf {off w : Nat} (hw : w ∈ [1, 2, 4, 8]) (hm : off % w = 0) (ho : off < 4096) : target off w = .buf off := by
  simp [target, (legalWidth_iff w).mpr hw, hm, ho]

theorem target_slot (n : Nat) : target (0x1000 + 8 * n) 8 = if n ≤ 8 then .csr n else if n = 16 then .cmd else .nothing := by
  have hm : (0x1000 + 8 * n) % 8 = 0 := by omega
  have hcsr : 0x1000 + 8 * n ≤ 0x1040 ↔ n ≤ 8 := by omega
  have hcmd : 0x1000 + 8 * n = 0x1080 ↔ n = 16 := by omega
  simp [target, (legalWidth_iff 8).mpr, hm, hcsr, hcmd]

theorem target_misaligned {off w : Nat} (h : w ∉ [1, 2, 4, 8] ∨ off % w ≠ 0 ∨ 4096 ≤ off ∧ w ≠ 8) : target off w = .nothing := by
  rw [← legalWidth_iff] at h
  unfold target
  split
  · rfl
  · rename_i hlegal
    obtain ⟨hw, hm⟩ : legalWidth w = true ∧ off % w = 0 := by simpa using hlegal
    obtain ⟨ho, hne⟩ : 4096 ≤ off ∧ w ≠ 8 := by simpa [hw, hm] using h
    rw [if_neg (by omega), if_pos (by simpa using hne)]

/-! ### One move of the host (R620 to R623) -/

section
variable {s t : State} {addr off w : Nat} {data : BitVec 64} {rest : List HostOp}

theorem step_of_move {op : HostOp} (h : s.host = op :: rest) (hop : op ≠ .pass) :
    step s = .next ({ s with host := rest }.hostMove op) := by
  rcases step_cases s with ⟨h', -⟩ | ⟨rest', h', -⟩ | ⟨op', rest', h', -, e⟩ <;> cases h.symm.trans h'
  · exact absurd rfl hop
  · exact e

theorem step_read (h : s.host = .read addr w :: rest) (ho : windowOffset addr = some off)
    (ht : { s with host := rest }.hostRead off w = t) : step s = .next t := by
  rw [step_of_move h nofun, ← ht]
  simp only [State.hostMove, ho]

theorem step_write (h : s.host = .write addr w data :: rest) (ho : windowOffset addr = some off)
    (ht : { s with host := rest }.hostWrite off w data = t) : step s = .next t := by
  rw [step_of_move h nofun, ← ht]
  simp only [State.hostMove, ho]

theorem State.hostRead_of_value {v : BitVec 64} (h : s.hostReadValue off w = v) : s.hostRead off w = { s with reply := some v } := by
  rw [State.hostRead, h]

theorem State.hostReadValue_nothing (h : target off w = .nothing) : s.hostReadValue off w = 0 := by
  rw [State.hostReadValue, h]

theorem State.hostReadValue_cmd (h : target off w = .cmd) : s.hostReadValue off w = 0 := by
  rw [State.hostReadValue, h]

theorem State.hostReadValue_csr {n : Nat} (h : target off w = .csr n) : s.hostReadValue off w = s.csrRead n s.busy := by
  rw [State.hostReadValue, h]

theorem State.hostReadValue_buf_of_busy {a : Nat} (h : target off w = .buf a) (hb : s.busy = true) : s.hostReadValue off w = 0 := by
  rw [State.hostReadValue, h]
  exact if_pos hb

theorem State.hostReadValue_buf_of_idle {a : Nat} (h : target off w = .buf a) (hb : s.busy = false) :
    s.hostReadValue off w = laneValue Config.hostWordOrder (s.readBuf a w) := by
  rw [State.hostReadValue, h]
  exact if_neg (Bool.eq_false_iff.mp hb)

theorem State.hostWrite_nothing (h : target off w = .nothing) : s.hostWrite off w data = s := by
  rw [State.hostWrite, h]

theorem State.hostWrite_cmd (h : target off w = .cmd) : s.hostWrite off w data = s.issue data := by
  rw [State.hostWrite, h]

theorem State.hostWrite_status (h : target off w = .csr 1) : s.hostWrite off w data = s.writeStatus data := by
  rw [State.hostWrite, h]
  exact if_pos rfl

theorem State.hostWrite_csr_of_busy {n : Nat} (h : target off w = .csr n) (hn : n ≠ 1) (hb : s.busy = true) :
    s.hostWrite off w data = s.overrun := by
  rw [State.hostWrite, h]
  exact (if_neg hn).trans (if_pos hb)

theorem State.hostWrite_csr_of_idle {n : Nat} (h : target off w = .csr n) (hn : n ≠ 1) (hb : s.busy = false) :
    s.hostWrite off w data = s.csrWrite n data := by
  rw [State.hostWrite, h]
  exact (if_neg hn).trans (if_neg (Bool.eq_false_iff.mp hb))

theorem State.hostWrite_buf_of_busy {a : Nat} (h : target off w = .buf a) (hb : s.busy = true) : s.hostWrite off w data = s.overrun := by
  rw [State.hostWrite, h]
  exact if_pos hb

theorem State.hostWrite_buf_of_idle {a : Nat} (h : target off w = .buf a) (hb : s.busy = false) :
    s.hostWrite off w data = s.writeBuf a (laneBytes Config.hostWordOrder w data) := by
  rw [State.hostWrite, h]
  exact if_neg (Bool.eq_false_iff.mp hb)

end

theorem State.issue_of_busy {s : State} (h : s.busy = true) (w : Cmd) : s.issue w = s.overrun := if_pos h

/-- Settles O54: CMD is slot 16, and a write of it is the issue step. -/
theorem cmdWriteIssuesTheWord : Obligations.CmdWriteIssuesTheWord := by
  intro s w rest h
  have hstep {t : State} : { s with host := rest }.issue w = t → step s = .next t := fun ht =>
    step_write h (windowOffset_of_lt (by decide)) ((State.hostWrite_cmd (target_slot 16)).trans ht)
  refine ⟨fun hb => hstep ?idle, fun hb => hstep ?busy⟩
  case idle => exact State.issue_of_idle (s := { s with host := rest }) (State.inflight_of_not_busy hb) w
  case busy => exact State.issue_of_busy (s := { s with host := rest }) hb w

/-! ### The lanes of a bus datum (R91) -/

theorem beBytes_mod (n v : Nat) : beBytes n (v % 256 ^ n) = beBytes n v := by
  refine List.ext_getElem (by simp) fun j h _ => BitVec.eq_of_toNat_eq ?_
  rw [length_beBytes] at h
  have hpow : 256 ^ n = 256 ^ (n - 1 - j) * 256 ^ (j + 1) := by rw [← pow_add]; congr 1; omega
  rw [getElem_beBytes, getElem_beBytes, hpow, Nat.mod_mul_right_div_self, Nat.mod_mod_of_dvd _ (dvd_pow_self 256 j.succ_ne_zero)]

/-- The datum of the lanes of a datum is the datum, to the width of the access. -/
theorem laneValue_laneBytes (order : WordOrder) (w : Nat) (data : BitVec 64) :
    laneValue order (laneBytes order w data) = BitVec.ofNat 64 (data.toNat % 256 ^ w) := by
  have hbe : be (beBytes w data.toNat) = data.toNat % 256 ^ w := by
    rw [← beBytes_mod, be_beBytes w _ (Nat.mod_lt _ (by positivity))]
  cases order with
  | big => rw [laneBytes, laneValue, hbe]
  | little => rw [laneBytes, laneValue, List.reverse_reverse, hbe]

section
variable (s : State) (a w : Nat) (data : BitVec 64)

theorem State.sameOutside_writeLanes (order : WordOrder) : s.SameOutside (s.writeBuf a (laneBytes order w data)) a w := by
  have h := s.sameOutside_writeBuf a (laneBytes order w data)
  rwa [length_laneBytes] at h

theorem State.readBuf_writeLanes (order : WordOrder) :
    (s.writeBuf a (laneBytes order w data)).readBuf a w = laneBytes order w data := by
  have h := s.readBuf_writeBuf a (laneBytes order w data)
  rwa [length_laneBytes] at h

/-- With the order little the least significant byte is at the lowest address. -/
theorem State.bufByte_writeLanes_little {j : Nat} (hj : j < w) :
    ((s.writeBuf a (laneBytes .little w data)).bufByte (a + j)).toNat = data.toNat / 256 ^ j % 256 := by
  rw [State.bufByte_writeBuf, dif_pos (by rw [length_laneBytes]; omega)]
  simp only [laneBytes, List.getElem_reverse, getElem_beBytes, length_beBytes]
  congr 3; omega

/-- A host read of the bytes that a host write stored joins the same lanes. -/
theorem State.hostReadValue_writeLanes {off : Nat} (h : target off w = .buf a) (hb : s.busy = false) :
    (s.writeBuf a (laneBytes Config.hostWordOrder w data)).hostReadValue off w = BitVec.ofNat 64 (data.toNat % 256 ^ w) := by
  rw [State.hostReadValue_buf_of_idle (s := s.writeBuf a _) h hb, State.readBuf_writeLanes, laneValue_laneBytes]

end

/-- Settles O55: the write stores the datum's lanes in address order, and the read joins the same lanes. -/
theorem hostReadsBackWhatItWrote : Obligations.HostReadsBackWhatItWrote := by
  intro s off w data rest hw hm ho hidle hhost
  have htarget : target off w = .buf off := target_buf hw hm ho
  have hwindow : windowOffset (Config.engineBase + off) = some off := windowOffset_of_lt (by omega)
  have hb : s.busy = false := State.not_busy_of_idle hidle
  refine ⟨_, step_write hhost hwindow (State.hostWrite_buf_of_idle htarget hb), rfl, State.sameOutside_writeLanes _ off w data _,
    fun hbig => ?big, fun hlittle j hj => ?little, step_read rfl hwindow (State.hostRead_of_value ?read)⟩
  case big => rw [hbig]; exact State.holdsBytes_writeBuf _ off w _
  case little => rw [hlittle]; exact State.bufByte_writeLanes_little _ off w data hj
  case read => exact State.hostReadValue_writeLanes { s with host := rest } off w data htarget hb

/-! ### CSRs and reserved slots (R51, R622, R623) -/

theorem target_slot_csr {n : Nat} (h : n ≤ 8) : target (0x1000 + 8 * n) 8 = .csr n := by rw [target_slot, if_pos h]

theorem target_slot_reserved {n : Nat} (h9 : 9 ≤ n) (h16 : n ≠ 16) : target (0x1000 + 8 * n) 8 = .nothing := by
  rw [target_slot, if_neg (by omega), if_neg h16]

theorem State.hostReadValue_slot_reserved {n : Nat} (h9 : 9 ≤ n) (s : State) : s.hostReadValue (0x1000 + 8 * n) 8 = 0 := by
  obtain rfl | h16 := eq_or_ne n 16
  · exact State.hostReadValue_cmd (target_slot 16)
  · exact State.hostReadValue_nothing (target_slot_reserved h9 h16)

theorem State.csrWrite_readOnly {n : Nat} (h : n ∈ [0, 2, 3, 6, 7, 8]) (s : State) (v : Cmd) : s.csrWrite n v = s := by
  rcases s.csrWrite_cases n v with ⟨rfl, -⟩ | ⟨rfl, -⟩ | ⟨rfl, -⟩ | e
  · exact absurd h (by decide)
  · exact absurd h (by decide)
  · exact absurd h (by decide)
  · exact e

/-- Settles O56: slots 0 to 8 are the CSRs, slot 16 is CMD, the others are reserved. -/
theorem hostAccessesToCsrs : Obligations.HostAccessesToCsrs := by
  intro s n v rest after
  refine ⟨fun hn h => ?read, fun h9 hn h => ?readReserved, fun hn h => ?write, fun h9 hn h16 h => ?writeReserved⟩
  case read => exact step_read h (windowOffset_slot (by omega)) (State.hostRead_of_value (State.hostReadValue_csr (target_slot_csr hn)))
  case readReserved => exact step_read h (windowOffset_slot hn) (State.hostRead_of_value (State.hostReadValue_slot_reserved h9 _))
  case write =>
    have hstep {t : State} (ht : after.hostWrite (0x1000 + 8 * n) 8 v = t) : step s = .next t :=
      step_write h (windowOffset_slot (by omega)) ht
    have hidle (hne : n ≠ 1) (hb : s.busy = false) : step s = .next (after.csrWrite n v) :=
      hstep (State.hostWrite_csr_of_idle (target_slot_csr hn) hne hb)
    refine ⟨?status, fun hne hb => ?dropped, ?ctrl, ?recid, fun hro hb => ?readOnly⟩
    case status => rintro rfl; exact hstep (State.hostWrite_status (target_slot_csr hn))
    case dropped => exact hstep (State.hostWrite_csr_of_busy (target_slot_csr hn) hne hb)
    case ctrl => rintro rfl hb; exact hidle (by decide) hb
    case recid => rintro rfl hb; exact hidle (by decide) hb
    case readOnly =>
      have hne : n ≠ 1 := by rintro rfl; exact absurd hro (by decide)
      rw [hidle hne hb, State.csrWrite_readOnly hro]
  case writeReserved => exact step_write h (windowOffset_slot hn) (State.hostWrite_nothing (target_slot_reserved h9 h16))

/-! ### The command in flight (R623) -/

/-- While BUSY a write of the host changes STATUS and the error report at most. -/
theorem State.hostWrite_frame_of_busy {s : State} (hb : s.busy = true) (off w : Nat) (data : BitVec 64) :
    s.hostWrite off w data = { s with
      done := (s.hostWrite off w data).done
      err := (s.hostWrite off w data).err
      res := (s.hostWrite off w data).res
      ovr := (s.hostWrite off w data).ovr
      errcode := (s.hostWrite off w data).errcode
      errcmd := (s.hostWrite off w data).errcmd } := by
  cases h : target off w with
  | buf a => rw [State.hostWrite_buf_of_busy h hb]; rfl
  | csr n =>
    obtain rfl | hn := eq_or_ne n 1
    · rw [State.hostWrite_status h]; rfl
    · rw [State.hostWrite_csr_of_busy h hn hb]; rfl
  | cmd => rw [State.hostWrite_cmd h, State.issue_of_busy hb]; rfl
  | nothing => rw [State.hostWrite_nothing h]

/-- While BUSY a move of the host other than reset changes STATUS, the error report and the host's answer at most. -/
theorem State.hostMove_frame_of_busy {s : State} (hb : s.busy = true) {op : HostOp} (hop : op ≠ .reset) :
    s.hostMove op = { s with
      done := (s.hostMove op).done
      err := (s.hostMove op).err
      res := (s.hostMove op).res
      ovr := (s.hostMove op).ovr
      errcode := (s.hostMove op).errcode
      errcmd := (s.hostMove op).errcmd
      reply := (s.hostMove op).reply } := by
  cases op with
  | read addr w =>
    simp only [State.hostMove]
    split
    · rfl
    · rfl
  | write addr w data =>
    simp only [State.hostMove]
    split
    · rw [State.hostWrite_frame_of_busy hb]
    · rfl
  | reset => exact absurd rfl hop
  | pass => rfl

/-- Settles O57: while BUSY the host reaches STATUS and its own answer only; a misaligned access reaches nothing. -/
theorem anInFlightCommandIsSafeFromTheHost : Obligations.AnInFlightCommandIsSafeFromTheHost := by
  refine ⟨fun s w op rest hw h hpass hreset => ?inflight, fun s off w data rest =>
    ⟨fun hb hw hm ho => ⟨fun h => ?bufWrite, fun h => ?bufRead⟩, fun ho hbad => ⟨fun h => ?badWrite, fun h => ?badRead⟩⟩⟩
  case inflight =>
    have hb : ({ s with host := rest } : State).busy = true := by rw [State.busy, hw, Option.isSome_some]
    refine ⟨_, step_of_move h hpass, ?_⟩
    rw [State.hostMove_frame_of_busy hb hreset]
    exact ⟨hw, rfl, rfl, rfl, rfl, rfl, rfl, rfl, rfl, rfl, rfl, rfl⟩
  case bufWrite => exact step_write h (windowOffset_of_lt (by omega)) (State.hostWrite_buf_of_busy (target_buf hw hm ho) hb)
  case bufRead =>
    exact step_read h (windowOffset_of_lt (by omega)) (State.hostRead_of_value (State.hostReadValue_buf_of_busy (target_buf hw hm ho) hb))
  case badWrite => exact step_write h (windowOffset_of_lt ho) (State.hostWrite_nothing (target_misaligned hbad))
  case badRead =>
    exact step_read h (windowOffset_of_lt ho) (State.hostRead_of_value (State.hostReadValue_nothing (target_misaligned hbad)))

end Sys2Proof.Machine
end
